-- ==== Sys2Proof/Word.lean ====
section
/-! DEFINITION. The word types of the player and the one piece of plain arithmetic its sizes use. -/

namespace Sys2Proof

/-- A byte of the XSVF stream, of the staging buffer or of a scan buffer (R12: `u8`). -/
abbrev Byte := BitVec 8

/-- A two-byte field of a record (R12: `u16`). -/
abbrev Half := BitVec 16

/-- A four-byte field of a record (R12: `u32`). -/
abbrev Word := BitVec 32

/-- `ceil8(n) = (n + 7) div 8` over the unbounded naturals (R12). -/
def ceil8 (n : Nat) : Nat := (n + 7) / 8

end Sys2Proof
end

