-- ==== Sys2Proof/Config.lean ====
section
/-! DEFINITION. The parameters of R9: the constants the spec fixes, the OPEN parameters (uninterpreted
constants, so that nothing can be proved about their values: log entry 14), and the free values of the draws
(log entries 1 to 5) and of a host that never stops (log entry 21). -/

namespace Sys2Proof

/-- The closed error taxonomy of R40 and R310. -/
inductive ErrorKind where
  | none
  | ioExhausted
  | chainSizeExceeded
  | invalidEndState
  | verificationFailed
  | unimplementedInstruction
  | notConnected
  deriving DecidableEq, Repr

namespace Config

/-- `MAX_CHAIN_BYTES` (R9). -/
def maxChainBytes : Nat := 129

/-- `MAX_CHAIN_BITS = 8 × 129` (R9). -/
def maxChainBits : Nat := 1032

/-- `STAGE_CAP` (R9). -/
def stageCap : Nat := 62

/-- `POLL_RETRIES` (R9). -/
def pollRetries : Nat := 16

/-- `REPEAT_DEFAULT` (R9, R34). -/
def repeatDefault : Byte := 32#8

/-- `RESET_CLOCKS` (R9, R148). -/
def resetClocks : Nat := 5

/-- `CSUM_BITS`, OPEN (R9, D15). -/
opaque csumBits : Nat

/-- `CSUM_ENABLED`, OPEN (R9, D18). -/
opaque csumEnabled : Bool

/-- `HOST_TIMELY`, OPEN (R9, R75, D14). -/
opaque hostTimely : Bool

/-- How far the transport's safe chunk exceeds `STAGE_CAP`, OPEN (R378). -/
opaque safeChunkSlack : Nat

/-- `SAFE_CHUNK`, OPEN but at least `STAGE_CAP` (R9, R378). -/
def safeChunk : Nat := stageCap + safeChunkSlack

/-- `ERR_TEXT`, OPEN (R9, R317, D18). -/
opaque errText : ErrorKind → String

/-- The implementation's wish for the numeric code of each error kind, OPEN (R317, D17). -/
opaque errCodeWish : ErrorKind → Nat

/-- The code a kind gets when `used` are taken: its wish where that is free, else the first number
above all of them. Every choice of distinct codes is reached by wishing for it. -/
def freshCode (used : List Nat) (wish : Nat) : Nat :=
  if wish ∈ used then used.sum + 1 else wish

/-- `used` with one more kind's code at the end. -/
def withCode (used : List Nat) (k : ErrorKind) : List Nat :=
  used ++ [freshCode used (errCodeWish k)]

/-- The codes of the seven kinds in R40's order: 0 for None, then six distinct others (R317; DEDUCED, log
entry 15). -/
def errCodes : List Nat :=
  [.ioExhausted, .chainSizeExceeded, .invalidEndState, .verificationFailed,
    .unimplementedInstruction, .notConnected].foldl withCode [0]

/-- The place of a kind in R40's order. -/
def errIndex : ErrorKind → Nat
  | .none => 0
  | .ioExhausted => 1
  | .chainSizeExceeded => 2
  | .invalidEndState => 3
  | .verificationFailed => 4
  | .unimplementedInstruction => 5
  | .notConnected => 6

/-- `ERR_CODE` (R317): injective by construction, with `ERR_CODE(None) = 0`. -/
def errCode (k : ErrorKind) : Nat := errCodes.getD (errIndex k) 0

/-- The free TDO level of the n-th free draw (R50, R146, D30). -/
opaque freeTdo : Nat → Bool

/-- The free number of pulses that fit into a timed wait (R151, D11). -/
opaque freePulses : Nat → Nat

/-- The free number of bytes the Byte Source has delivered since the last poll (R73, R75, D14). -/
opaque freePoll : Nat → Nat

/-- The free bytes of a host that never stops, in stream order (R362, I20). -/
opaque freeByte : Nat → Byte

/-- The free sensed value of VREF (R51, R353, D19). -/
opaque freeVref : Nat → Bool

/-- The free level of an output pin after initialisation (R49, R352, D20). -/
opaque freeLevel : Nat → Bool

end Config
end Sys2Proof
end

