-- ==== Sys2Proof/Machine/State.lean ====
section
/-! DEFINITION. The state of the player (10_state.md), its fault and refusal reasons, and the state a session
starts from. -/

namespace Sys2Proof.Machine

/-- The sixteen TAP states in the order of their codes 0 to 15 (R31). -/
inductive TapState where
  | testLogicReset
  | runTestIdle
  | selectDrScan
  | captureDr
  | shiftDr
  | exit1Dr
  | pauseDr
  | exit2Dr
  | updateDr
  | selectIrScan
  | captureIr
  | shiftIr
  | exit1Ir
  | pauseIr
  | exit2Ir
  | updateIr
  deriving DecidableEq, Repr

/-- A byte store in its one canonical form: the bytes that differ from 0, by rising address. The reset
contents of every byte store of the player are 0 (R42, R45), so an unlisted byte reads as 0. -/
abbrev Memory := List Host.Cell

/-- The scalar fields of the Session Context (R33), the registers of the widths of R10. A byte length is 0 to
129 and a cursor 0 to 62, as R33 types them. -/
structure Context where
  irBits : Half
  irBytes : Fin 130
  drBits : Word
  drBytes : Fin 130
  /-- The retry budget. -/
  retries : Byte
  xstate : TapState
  endIr : TapState
  endDr : TapState
  /-- Microseconds. -/
  runtest : Word
  waitStart : TapState
  waitEnd : TapState
  waitClocks : Word
  /-- Microseconds. -/
  waitUs : Word
  instrCount : BitVec 32
  error : ErrorKind
  complete : Bool
  checksum : BitVec Config.csumBits
  consumed : BitVec 32
  rd : Fin 63
  wr : Fin 63
  deriving DecidableEq, Repr

/-- The context a session starts with (R33, R34, R35, R351). -/
def Context.initial : Context where
  irBits := 0#16
  irBytes := 0
  drBits := 0#32
  drBytes := 0
  retries := Config.repeatDefault
  xstate := .testLogicReset
  endIr := .runTestIdle
  endDr := .runTestIdle
  runtest := 0#32
  waitStart := .testLogicReset
  waitEnd := .testLogicReset
  waitClocks := 0#32
  waitUs := 0#32
  instrCount := 0#32
  error := .none
  complete := false
  checksum := 0#Config.csumBits
  consumed := 0#32
  rd := 0
  wr := 0

/-- The six scan buffers, each with the indices 0 to 128 (R42). -/
structure Buffers where
  tdi : Memory
  tdocap : Memory
  tdoexp : Memory
  tdomask : Memory
  addrmask : Memory
  datamask : Memory
  deriving DecidableEq, Repr

/-- Every byte of every scan buffer is 0 (R42). -/
def Buffers.initial : Buffers where
  tdi := []
  tdocap := []
  tdoexp := []
  tdomask := []
  addrmask := []
  datamask := []

/-- Whether TMS, TDI and TCK are driven (R48). -/
inductive PinMode where
  | highZ
  | driven
  deriving DecidableEq, Repr

/-- The output lines and the levels driven on them; `tdi` is the TDI latch (R47 to R49). -/
structure Pins where
  mode : PinMode
  tms : Bool
  tdi : Bool
  tck : Bool
  deriving DecidableEq, Repr

/-- The Session Driver's state (R54). -/
inductive Phase where
  | idle
  | connected
  | running
  | completed
  | failed
  deriving DecidableEq, Repr

/-- The observable events (R53). -/
inductive Event where
  | pinsInit
  | ready
  | reqMore (n : Nat)
  | clk (tms tdi tdo : Bool)
  | delay (us : Word)
  | diag (text : List Byte)
  | status (code : Nat) (text : String) (complete : Bool) (count : BitVec 32)
  | csum (checksum : BitVec Config.csumBits) (consumed : BitVec 32)
  | release
  deriving DecidableEq, Repr

/-- The part of the host stream that the Byte Source has not delivered yet (R71): the bytes `listed`, and after
them nothing more, or, for a host that never stops (R362, I20), the free bytes of Config from number `k` on
where `endless = some k` (log entry 21). -/
structure HostStream where
  listed : List Byte
  endless : Option Nat
  deriving DecidableEq, Repr

/-- The host stream that ends after `bytes`. -/
def HostStream.ending (bytes : List Byte) : HostStream where
  listed := bytes
  endless := none

/-- What the outside gives the player (R7, R71, R375). `host` is the host stream. Each other list holds answers
the outside has ready, first answer first; once a list is empty, the answer is a free value of Config, and
`draws` counts the free values taken (log entries 1 to 6). -/
structure Env where
  host : HostStream
  tdo : List Bool
  pulses : List Nat
  polls : List Nat
  vref : List Bool
  levels : List Bool
  draws : Nat
  deriving DecidableEq, Repr

/-- Nothing placed: no byte of a stream, and every answer free. -/
def Env.initial : Env where
  host := .ending []
  tdo := []
  pulses := []
  polls := []
  vref := []
  levels := []
  draws := 0

/-- The player (R30 to R54). -/
structure State where
  ctx : Context
  bufs : Buffers
  /-- The staging buffer, indices 0 to 61 (R45). -/
  stage : Memory
  /-- The TAP mirror (R32). -/
  tap : TapState
  pins : Pins
  phase : Phase
  /-- The text so far of an XCOMMENT that a host that never stops is still sending: the `text` of R203's loop,
  kept from one step to the next (log entry 19). -/
  comment : Option (List Byte)
  /-- The events so far, oldest first (R53). -/
  trace : List Event
  env : Env
  deriving DecidableEq, Repr

/-- Why the machine stops. -/
inductive Fault where
  /-- Raised by XSTATE, XWAIT and XWAITSTATE for a state byte of 16 to 255, to which the spec gives no
  meaning: its own words are `fault Undefined` (R289, R316). Safe: nothing is claimed of such a run (log
  entry 20). -/
  | undefinedStateByte (b : Byte)
  deriving DecidableEq, Repr

/-- Why an instruction has no meaning here. -/
inductive Refusal where
  /-- An instruction of the table without a meaning yet. No instruction is left so. Safe. -/
  | notModelled (mnemonic : String)
  deriving DecidableEq, Repr

/-- Before the first session: the context, the scan buffers, the staging buffer and `tap` as `Reset()`
leaves them (R351), the pins at high impedance and the phase Idle (R48, R54), no event yet. The three
pin levels are 0 by DESIGN CHOICE (log entry 7): nothing is driven. -/
def State.reset : State where
  ctx := .initial
  bufs := .initial
  stage := []
  tap := .testLogicReset
  pins := { mode := .highZ, tms := false, tdi := false, tck := false }
  phase := .idle
  comment := none
  trace := []
  env := .initial

end Sys2Proof.Machine
end

