-- ==== Sys2Proof/Machine/Ops.lean ====
section
/-! DEFINITION. The named operations over the byte stores, the draws, the trace, and raising an error. -/

namespace Sys2Proof.Machine

/-! ## Byte stores -/

/-- What a byte that nothing has written reads as: every byte store starts as 0 (R42, R45). -/
def Memory.unlisted : Byte := 0#8

/-- Read one byte. -/
def Memory.get : Memory → Nat → Byte
  | [], _ => Memory.unlisted
  | (a, v) :: m, i => if a = i then v else Memory.get m i

/-- Forget what is listed at `i`. -/
def Memory.erase : Memory → Nat → Memory
  | [], _ => []
  | (a, v) :: m, i => if a = i then Memory.erase m i else (a, v) :: Memory.erase m i

/-- List `b` at `i`, in its place in the rising order. -/
def Memory.insert : Memory → Nat → Byte → Memory
  | [], i, b => [(i, b)]
  | (a, v) :: m, i, b =>
    if a < i then (a, v) :: Memory.insert m i b
    else if a = i then (i, b) :: m
    else (i, b) :: (a, v) :: m

/-- Write one byte, keeping the canonical form. -/
def Memory.set (m : Memory) (i : Nat) (b : Byte) : Memory :=
  if b = Memory.unlisted then m.erase i else m.insert i b

/-- Write the bytes `bs` at `i`, `i + 1`, … in this order. -/
def Memory.store : Memory → Nat → List Byte → Memory
  | m, _, [] => m
  | m, i, b :: bs => Memory.store (m.set i b) (i + 1) bs

/-- The canonical form from address `lo` on: rising addresses below `size`, no entry that reads as an
unlisted byte does. -/
def Memory.wfFrom (size : Nat) : Nat → Memory → Bool
  | _, [] => true
  | lo, (a, v) :: m =>
    decide (lo ≤ a) && decide (a < size) && v != Memory.unlisted && Memory.wfFrom size (a + 1) m

/-- The canonical form of a store of `size` bytes. -/
def Memory.wf (size : Nat) (m : Memory) : Bool := Memory.wfFrom size 0 m

/-! ## The host stream -/

/-- Byte number `i` of the stream, if the host has so many (R71). -/
def HostStream.byte (h : HostStream) (i : Nat) : Option Byte :=
  if i < h.listed.length then some (h.listed.getD i 0#8)
  else h.endless.map fun k => Config.freeByte (k + (i - h.listed.length))

/-- How many bytes a refill can find at most: all that are left, and a full chunk from a host that never
stops (R75). -/
def HostStream.offer (h : HostStream) : Nat :=
  if h.endless = none then h.listed.length else Config.stageCap

/-- The first `n` bytes, of which the host has so many. -/
def HostStream.take (h : HostStream) (n : Nat) : List Byte :=
  (List.range n).map fun i => (h.byte i).getD 0#8

/-- The stream after its first `n` bytes. -/
def HostStream.drop (h : HostStream) (n : Nat) : HostStream where
  listed := h.listed.drop n
  endless := h.endless.map (· + (n - h.listed.length))

/-! ## Draws -/

/-- The next TDO level: an answer the outside has ready, else a free value (R50, D30). -/
def Env.drawTdo (e : Env) : Bool × Env :=
  match e.tdo with
  | x :: q => (x, { e with tdo := q })
  | [] => (Config.freeTdo e.draws, { e with draws := e.draws + 1 })

/-- The next number of pulses that fit into a timed wait (R151, D11). -/
def Env.drawPulses (e : Env) : Nat × Env :=
  match e.pulses with
  | x :: q => (x, { e with pulses := q })
  | [] => (Config.freePulses e.draws, { e with draws := e.draws + 1 })

/-- The next number of bytes the Byte Source offers to a poll (R73, D14). -/
def Env.drawPoll (e : Env) : Nat × Env :=
  match e.polls with
  | x :: q => (x, { e with polls := q })
  | [] => (Config.freePoll e.draws, { e with draws := e.draws + 1 })

/-- The sensed value of VREF (R51, D19). -/
def Env.drawVref (e : Env) : Bool × Env :=
  match e.vref with
  | x :: q => (x, { e with vref := q })
  | [] => (Config.freeVref e.draws, { e with draws := e.draws + 1 })

/-- The level of an output pin after initialisation (R49, D20). -/
def Env.drawLevel (e : Env) : Bool × Env :=
  match e.levels with
  | x :: q => (x, { e with levels := q })
  | [] => (Config.freeLevel e.draws, { e with draws := e.draws + 1 })

/-! ## The trace -/

/-- `emit ev` (R53). -/
def emit (ev : Event) (s : State) : State := { s with trace := s.trace ++ [ev] }

/-! ## Errors

The player has no trap: taking an exception is `raise`, which records the kind and abandons the record,
and there is no return from one (R312, R319). -/

/-- `raise E` (R312): the one writer of `ctx.error` inside a record. That nothing more of the record runs
is `Flow.raised`. -/
def raise (e : ErrorKind) (s : State) : State := { s with ctx := { s.ctx with error := e } }

/-- How far a record has come: on to its next statement, or abandoned by a `raise` (R15, R312). -/
inductive Flow where
  | go (s : State)
  | raised (s : State)
  deriving DecidableEq, Repr

/-- The next statement, which a raise skips (R15). -/
def Flow.andThen : Flow → (State → Flow) → Flow
  | .go s, f => f s
  | .raised s, _ => .raised s

/-- The state a record ends in, raised or not: both are next states, since every error is the player's
own and what was done before it stands (R313, R314). -/
def Flow.state : Flow → State
  | .go s => s
  | .raised s => s

/-- The outcome of a record. -/
abbrev Result := Host.Outcome State Fault Refusal

/-- The outcome of a record that cannot fault. -/
def Flow.result (f : Flow) : Result := .next f.state

/-- Do `f` to the next state, if there is one. -/
def afterRecord (f : State → State) : Result → Result
  | .next s => .next (f s)
  | .fault r => .fault r
  | .refused r => .refused r

end Sys2Proof.Machine
end

