-- ==== Sys2Proof/Machine/Tap.lean ====
section
/-! DEFINITION. The TAP state machine (40_tap_controller.md): its two constant tables and its primitives
`Clock`, `Step`, `Goto` and `IdleWait`. -/

namespace Sys2Proof.Machine

/-- The numeric code of a TAP state (R31). -/
def tapCode : TapState → Nat
  | .testLogicReset => 0
  | .runTestIdle => 1
  | .selectDrScan => 2
  | .captureDr => 3
  | .shiftDr => 4
  | .exit1Dr => 5
  | .pauseDr => 6
  | .exit2Dr => 7
  | .updateDr => 8
  | .selectIrScan => 9
  | .captureIr => 10
  | .shiftIr => 11
  | .exit1Ir => 12
  | .pauseIr => 13
  | .exit2Ir => 14
  | .updateIr => 15

/-- The TAP state with a given code, if there is one (R31, R128). -/
def tapOfCode : Nat → Option TapState
  | 0 => some .testLogicReset
  | 1 => some .runTestIdle
  | 2 => some .selectDrScan
  | 3 => some .captureDr
  | 4 => some .shiftDr
  | 5 => some .exit1Dr
  | 6 => some .pauseDr
  | 7 => some .exit2Dr
  | 8 => some .updateDr
  | 9 => some .selectIrScan
  | 10 => some .captureIr
  | 11 => some .shiftIr
  | 12 => some .exit1Ir
  | 13 => some .pauseIr
  | 14 => some .exit2Ir
  | 15 => some .updateIr
  | _ => none

/-- The transition table `T[s][tms]` (R140; PRESUMED by the spec itself, log entry 16). -/
def tapNext : TapState → Bool → TapState
  | .testLogicReset, false => .runTestIdle
  | .testLogicReset, true => .testLogicReset
  | .runTestIdle, false => .runTestIdle
  | .runTestIdle, true => .selectDrScan
  | .selectDrScan, false => .captureDr
  | .selectDrScan, true => .selectIrScan
  | .captureDr, false => .shiftDr
  | .captureDr, true => .exit1Dr
  | .shiftDr, false => .shiftDr
  | .shiftDr, true => .exit1Dr
  | .exit1Dr, false => .pauseDr
  | .exit1Dr, true => .updateDr
  | .pauseDr, false => .pauseDr
  | .pauseDr, true => .exit2Dr
  | .exit2Dr, false => .shiftDr
  | .exit2Dr, true => .updateDr
  | .updateDr, false => .runTestIdle
  | .updateDr, true => .selectDrScan
  | .selectIrScan, false => .captureIr
  | .selectIrScan, true => .testLogicReset
  | .captureIr, false => .shiftIr
  | .captureIr, true => .exit1Ir
  | .shiftIr, false => .shiftIr
  | .shiftIr, true => .exit1Ir
  | .exit1Ir, false => .pauseIr
  | .exit1Ir, true => .updateIr
  | .pauseIr, false => .pauseIr
  | .pauseIr, true => .exit2Ir
  | .exit2Ir, false => .shiftIr
  | .exit2Ir, true => .updateIr
  | .updateIr, false => .runTestIdle
  | .updateIr, true => .selectDrScan

/-- The path masks `PT[s]` (R144; the spec's default, log entry 17). -/
def pathMask : TapState → BitVec 16
  | .testLogicReset => 0x0000#16
  | .runTestIdle => 0xFFFD#16
  | .selectDrScan => 0xFE03#16
  | .captureDr => 0xFFE7#16
  | .shiftDr => 0xFFEF#16
  | .exit1Dr => 0xFF0F#16
  | .pauseDr => 0xFFBF#16
  | .exit2Dr => 0xFF0F#16
  | .updateDr => 0xFEFD#16
  | .selectIrScan => 0x01FF#16
  | .captureIr => 0xF3FF#16
  | .shiftIr => 0xF7FF#16
  | .exit1Ir => 0x87FF#16
  | .pauseIr => 0xDFFF#16
  | .exit2Ir => 0x87FF#16
  | .updateIr => 0x7FFD#16

/-- `PT[s][t]`: the TMS of the first clock from `s` toward `t` (R144). -/
def pathBit (s t : TapState) : Bool := (pathMask s).getLsbD (tapCode t)

/-- `Clock(tms, tdi)` (R146): the sampled TDO and the state after the pulse, which leaves TCK high (log entry
22). -/
def clock (tms tdi : Bool) (s : State) : Bool × State :=
  let draw := s.env.drawTdo
  (draw.1,
    { s with
      pins := { s.pins with tms := tms, tdi := tdi, tck := true }
      tap := tapNext s.tap tms
      env := draw.2
      trace := s.trace ++ [.clk tms tdi draw.1] })

/-- `Step(tms)` (R147): a clock whose TDI is the latch and whose TDO is dropped. -/
def tapStep (tms : Bool) (s : State) : State := (clock tms s.pins.tdi s).2

/-- `n` steps with the same TMS (R148, R151, R292). -/
def tapSteps (tms : Bool) : Nat → State → State
  | 0, s => s
  | n + 1, s => tapSteps tms n (tapStep tms s)

/-- The walk of R149, at most `fuel` clocks of it. -/
def walk : Nat → TapState → State → State
  | 0, _, s => s
  | fuel + 1, target, s =>
    if s.tap = target then s else walk fuel target (tapStep (pathBit s.tap target) s)

/-- `Goto(target)` (R148, R149). The longest walk has 8 clocks (R145), so 8 is the whole loop
(DEDUCED, log entry 13; `gotoTap_tap` in Laws/Tap.lean: it always arrives). -/
def gotoTap (target : TapState) (s : State) : State :=
  if target = .testLogicReset then tapSteps true Config.resetClocks s else walk 8 target s

/-- `IdleWait(us)` (R151): no wait for 0, else a drawn number of TMS-0 pulses, then the `Delay`. -/
def idleWait (us : Word) (s : State) : State :=
  if us = 0#32 then s
  else
    let draw := s.env.drawPulses
    emit (.delay us) (tapSteps false draw.1 { s with env := draw.2 })

end Sys2Proof.Machine
end

