-- ==== Sys2Proof/Machine/Operands.lean ====
section
/-! DEFINITION. The operand forms of the records: scan-buffer vectors, sizes, state bytes and end-state
codes. -/

namespace Sys2Proof.Machine

/-- The names of the six scan buffers (R42). -/
inductive BufName where
  | tdi
  | tdocap
  | tdoexp
  | tdomask
  | addrmask
  | datamask
  deriving DecidableEq, Repr

/-- The scan buffer of a name (R42). -/
def Buffers.get (b : Buffers) : BufName → Memory
  | .tdi => b.tdi
  | .tdocap => b.tdocap
  | .tdoexp => b.tdoexp
  | .tdomask => b.tdomask
  | .addrmask => b.addrmask
  | .datamask => b.datamask

/-- Replace one scan buffer. -/
def Buffers.set (b : Buffers) (n : BufName) (m : Memory) : Buffers :=
  match n with
  | .tdi => { b with tdi := m }
  | .tdocap => { b with tdocap := m }
  | .tdoexp => { b with tdoexp := m }
  | .tdomask => { b with tdomask := m }
  | .addrmask => { b with addrmask := m }
  | .datamask => { b with datamask := m }

/-- `BUF[i]` (R13). -/
def bufByte (s : State) (n : BufName) (i : Nat) : Byte := (s.bufs.get n).get i

/-- Replace one scan buffer of the state. -/
def setBuf (n : BufName) (m : Memory) (s : State) : State := { s with bufs := s.bufs.set n m }

/-- `NextBytes(BUF, n)` (R79) for a vector of which the stream gave the bytes `bytes`: they go to the
indices from 0 on, and if they are fewer than `n`, the read after the last of them raised IoExhausted. -/
def fill (b : BufName) (bytes : List Byte) (n : Nat) (s : State) : Flow :=
  let filled := setBuf b ((s.bufs.get b).store 0 (bytes.take n)) s
  if n ≤ bytes.length then .go filled else .raised (raise .ioExhausted filled)

/-- `SizeCheck(bits)` (R196). -/
def sizeCheck (bits : Nat) (s : State) : Flow :=
  if Config.maxChainBytes < ceil8 bits then .raised (raise .chainSizeExceeded s) else .go s

/-- Write the IR size pair after its check (R37, R240, R241). -/
def setIrSize (bits : Nat) (s : State) : Flow :=
  (sizeCheck bits s).andThen fun s =>
    .go { s with ctx := { s.ctx with
      irBits := BitVec.ofNat 16 bits, irBytes := Fin.ofNat 130 (ceil8 bits) } }

/-- Write the DR size pair after its check (R37, R198). -/
def setDrSize (bits : Nat) (s : State) : Flow :=
  (sizeCheck bits s).andThen fun s =>
    .go { s with ctx := { s.ctx with
      drBits := BitVec.ofNat 32 bits, drBytes := Fin.ofNat 130 (ceil8 bits) } }

/-- `StateArg(s)` (R289): the TAP state a byte names, or the spec's own fault (R316). -/
def stateArg (b : Byte) : Except Fault TapState :=
  match tapOfCode b.toNat with
  | some t => .ok t
  | none => .error (.undefinedStateByte b)

/-- The resting state an end-state code selects, the code 1 selecting `pause` (R129). -/
def endState (pause : TapState) (code : Byte) : Option TapState :=
  if code = 0#8 then some .runTestIdle
  else if code = 1#8 then some pause
  else none

end Sys2Proof.Machine
end

