-- ==== Sys2Proof/Machine/Flags.lean ====
section
/-! DEFINITION. The flags: the four flags of a DR scan, fixed by the opcode (R250), the compare (R256), and
the two flags of the session, completion and error (R41, R192). -/

namespace Sys2Proof.Machine

/-- The DR-scan flags (R131). -/
structure DrFlags where
  mustBegin : Bool
  mustCheck : Bool
  useMask : Bool
  mustEnd : Bool
  deriving DecidableEq, Repr

/-- The rows of R250's table (the spec's default for the last three, log entry 17). -/
def flagsXsdr : DrFlags := { mustBegin := true, mustCheck := true, useMask := true, mustEnd := true }
def flagsXsdrb : DrFlags := { mustBegin := true, mustCheck := false, useMask := false, mustEnd := false }
def flagsXsdrc : DrFlags := { mustBegin := false, mustCheck := false, useMask := false, mustEnd := false }
def flagsXsdre : DrFlags := { mustBegin := false, mustCheck := false, useMask := false, mustEnd := true }
def flagsXsdrtdo : DrFlags := { mustBegin := true, mustCheck := true, useMask := true, mustEnd := true }
def flagsXsdrtdob : DrFlags := { mustBegin := true, mustCheck := true, useMask := false, mustEnd := false }
def flagsXsdrtdoc : DrFlags := { mustBegin := false, mustCheck := true, useMask := false, mustEnd := false }
def flagsXsdrtdoe : DrFlags := { mustBegin := false, mustCheck := true, useMask := false, mustEnd := true }

/-- Whether byte `j` of the captured TDO matches the expected one, masked first where the mask is used
(R256, R257). -/
def byteMatches (useMask : Bool) (s : State) (j : Nat) : Bool :=
  let mask := if useMask then bufByte s .tdomask j else 0xFF#8
  (bufByte s .tdocap j &&& mask) == (bufByte s .tdoexp j &&& mask)

/-- `Match(m)` over the bytes 0 to `n - 1` (R256). -/
def bytesMatch (useMask : Bool) (s : State) : Nat → Bool
  | 0 => true
  | n + 1 => bytesMatch useMask s n && byteMatches useMask s n

/-- `Match(m)` (R256). -/
def captureMatches (useMask : Bool) (s : State) : Bool := bytesMatch useMask s s.ctx.drBytes.val

/-- Set the completion flag (R193). -/
def setComplete (s : State) : State := { s with ctx := { s.ctx with complete := true } }

/-- The loop test: `ctx.complete or ctx.error != None` (R356). -/
def sessionOver (s : State) : Bool := s.ctx.complete || s.ctx.error != .none

end Sys2Proof.Machine
end

