-- ==== Sys2Proof/Machine/Shift.lean ====
section
/-! DEFINITION. The shift engine (41_shift_engine.md). -/

namespace Sys2Proof.Machine

/-- A sampled bit in its place in an output byte (R170: `tdo << p`). -/
def bitAt (bit : Bool) (p : Nat) : Byte := if bit then 1#8 <<< p else 0#8

/-- The array index that carries bit `i` of an `n`-bit shift: last byte first (R170, R171). -/
def wireByte (n i : Nat) : Nat := ceil8 n - 1 - i / 8

/-- Clock number `i` of an `n`-bit shift (the body of R170's loop). -/
def shiftBit (inp out : BufName) (n : Nat) (mustEnd : Bool) (i : Nat) (s : State) : State :=
  let j := wireByte n i
  let pulse := clock (mustEnd && i + 1 == n) ((bufByte s inp j).getLsbD (i % 8)) s
  let captured := (bufByte s out j) ||| bitAt pulse.1 (i % 8)
  setBuf out ((pulse.2.bufs.get out).set j captured) pulse.2

/-- The clocks from number `i` on, `left` of them. -/
def shiftFrom (inp out : BufName) (n : Nat) (mustEnd : Bool) : Nat → Nat → State → State
  | 0, _, s => s
  | left + 1, i, s => shiftFrom inp out n mustEnd left (i + 1) (shiftBit inp out n mustEnd i s)

/-- `OUT[0..nb-1] <- 0` (R170). -/
def clearOut (out : BufName) (n : Nat) (s : State) : State :=
  setBuf out ((s.bufs.get out).store 0 (List.replicate (ceil8 n) 0#8)) s

/-- `Shift(IN, OUT, n, must_end)` (R170). -/
def shift (inp out : BufName) (n : Nat) (mustEnd : Bool) (s : State) : State :=
  shiftFrom inp out n mustEnd n 0 (clearOut out n s)

end Sys2Proof.Machine
end

