-- ==== Sys2Proof/Machine/Scan.lean ====
section
/-! DEFINITION. The scan records (43_xsvf_scan.md): the part of each after its bytes are read. -/

namespace Sys2Proof.Machine

/-! ## Instruction-register scans -/

/-- The settle of an IR scan: the configured end state is used only with a run-test duration (R242). -/
def irSettle (s : State) : State :=
  if s.ctx.runtest = 0#32 then gotoTap .runTestIdle s
  else idleWait s.ctx.runtest (gotoTap s.ctx.endIr s)

/-- `IRScan()` (R242). -/
def irScan (s : State) : State :=
  irSettle (shift .tdi .tdocap s.ctx.irBits.toNat true (gotoTap .shiftIr s))

/-- An IR record of `bits` bits with the vector `tdi` (R240, R241). -/
def irRecord (bits : Nat) (tdi : List Byte) (s : State) : Flow :=
  (setIrSize bits s).andThen fun s =>
    (fill .tdi tdi s.ctx.irBytes.val s).andThen fun s => .go (irScan s)

/-- XSIR (R240). -/
def execXsir (len : Byte) (tdi : List Byte) (s : State) : Result := (irRecord len.toNat tdi s).result

/-- XSIR2 (R241). -/
def execXsir2 (len : Half) (tdi : List Byte) (s : State) : Result := (irRecord len.toNat tdi s).result

/-! ## Data-register scans -/

/-- One attempt's shift (R251). -/
def drShift (mustEnd : Bool) (s : State) : State := shift .tdi .tdocap s.ctx.drBits.toNat mustEnd s

/-- `RetryBounce()` (R253). -/
def retryBounce (s : State) : State :=
  let idle := gotoTap .runTestIdle (gotoTap .shiftDr (gotoTap .pauseDr s))
  gotoTap .shiftDr (idleWait idle.ctx.runtest idle)

/-- `Settle()` (R254): the configured end state is used only without a run-test duration. -/
def drSettle (s : State) : State :=
  if s.ctx.runtest = 0#32 then gotoTap s.ctx.endDr s
  else idleWait s.ctx.runtest (gotoTap .runTestIdle s)

/-- The attempts of R251's loop: the next one, and `retries` more after it. -/
def drAttempts (f : DrFlags) : Nat → State → Flow
  | 0, s =>
    let shifted := drShift f.mustEnd s
    if !f.mustCheck || captureMatches f.useMask shifted then .go shifted
    else .raised (raise .verificationFailed shifted)
  | retries + 1, s =>
    let shifted := drShift f.mustEnd s
    if !f.mustCheck || captureMatches f.useMask shifted then .go shifted
    else drAttempts f retries (retryBounce shifted)

/-- `DRScan(b, c, m, e)` (R251): at most `ctx.repeat + 1` attempts. -/
def drScan (f : DrFlags) (s : State) : Flow :=
  let begun := if f.mustBegin then gotoTap .shiftDr s else s
  (drAttempts f begun.ctx.retries.toNat begun).andThen fun s =>
    .go (if f.mustEnd then drSettle s else s)

/-- A DR record with a TDI vector alone (R260 to R263). -/
def drRecord (f : DrFlags) (tdi : List Byte) (s : State) : Flow :=
  (fill .tdi tdi s.ctx.drBytes.val s).andThen (drScan f)

/-- A DR record with a TDI and an expected vector (R264 to R267). -/
def drRecordExp (f : DrFlags) (tdi exp : List Byte) (s : State) : Flow :=
  (fill .tdi tdi s.ctx.drBytes.val s).andThen fun s =>
    (fill .tdoexp exp s.ctx.drBytes.val s).andThen (drScan f)

/-- XSDR (R260). -/
def execXsdr (tdi : List Byte) (s : State) : Result := (drRecord flagsXsdr tdi s).result

/-- XSDRB (R261). -/
def execXsdrb (tdi : List Byte) (s : State) : Result := (drRecord flagsXsdrb tdi s).result

/-- XSDRC (R262). -/
def execXsdrc (tdi : List Byte) (s : State) : Result := (drRecord flagsXsdrc tdi s).result

/-- XSDRE (R263). -/
def execXsdre (tdi : List Byte) (s : State) : Result := (drRecord flagsXsdre tdi s).result

/-- XSDRTDO (R264). -/
def execXsdrtdo (tdi exp : List Byte) (s : State) : Result := (drRecordExp flagsXsdrtdo tdi exp s).result

/-- XSDRTDOB (R265). -/
def execXsdrtdob (tdi exp : List Byte) (s : State) : Result := (drRecordExp flagsXsdrtdob tdi exp s).result

/-- XSDRTDOC (R266). -/
def execXsdrtdoc (tdi exp : List Byte) (s : State) : Result := (drRecordExp flagsXsdrtdoc tdi exp s).result

/-- XSDRTDOE (R267). -/
def execXsdrtdoe (tdi exp : List Byte) (s : State) : Result := (drRecordExp flagsXsdrtdoe tdi exp s).result

end Sys2Proof.Machine
end

