-- ==== Sys2Proof/Machine/Setup.lean ====
section
/-! DEFINITION. The setup records (42_xsvf_decode_setup.md): the part of each after its bytes are read. -/

namespace Sys2Proof.Machine

/-- XCOMPLETE (R193). -/
def execXcomplete (s : State) : Result := .next (setComplete s)

/-- XTDOMASK (R194). -/
def execXtdomask (mask : List Byte) (s : State) : Result :=
  (fill .tdomask mask s.ctx.drBytes.val s).result

/-- XRUNTEST (R195). -/
def execXruntest (us : Word) (s : State) : Result :=
  .next { s with ctx := { s.ctx with runtest := us } }

/-- XREPEAT (R197). -/
def execXrepeat (n : Byte) (s : State) : Result :=
  .next { s with ctx := { s.ctx with retries := n } }

/-- XSDRSIZE (R198). -/
def execXsdrsize (bits : Word) (s : State) : Result := (setDrSize bits.toNat s).result

/-- XSETSDRMASKS (R199). -/
def execXsetsdrmasks (addr data : List Byte) (s : State) : Result :=
  ((fill .addrmask addr s.ctx.drBytes.val s).andThen fun s =>
    fill .datamask data s.ctx.drBytes.val s).result

/-- XSDRINC (R200): the TDI data is read and nothing is shifted. -/
def execXsdrinc (tdi : List Byte) (s : State) : Result :=
  (fill .tdi tdi s.ctx.drBytes.val s).result

/-- XENDIR (R201). -/
def execXendir (code : Byte) (s : State) : Result :=
  match endState .pauseIr code with
  | some t => .next { s with ctx := { s.ctx with endIr := t } }
  | none => .next (raise .invalidEndState s)

/-- XENDDR (R202). -/
def execXenddr (code : Byte) (s : State) : Result :=
  match endState .pauseDr code with
  | some t => .next { s with ctx := { s.ctx with endDr := t } }
  | none => .next (raise .invalidEndState s)

/-- XCOMMENT (R203). -/
def execXcomment (text : List Byte) (s : State) : Result := .next (emit (.diag text) s)

/-- XTRST (R204): every mode is accepted and ignored. -/
def execXtrst (_mode : Byte) (s : State) : Result := .next s

/-- An unassigned opcode (R205). It is no record of the table, so no arm of `exec` calls it. -/
def execUnassigned (s : State) : Result := .next (raise .unimplementedInstruction s)

end Sys2Proof.Machine
end

