-- ==== Sys2Proof/Machine/Wait.lean ====
section
/-! DEFINITION. The records that move the TAP or wait (44_xsvf_state_wait.md): the part of each after its
bytes are read. -/

namespace Sys2Proof.Machine

/-- XSTATE (R290). -/
def execXstate (state : Byte) (s : State) : Result :=
  match stateArg state with
  | .error r => .fault r
  | .ok t => .next (gotoTap t { s with ctx := { s.ctx with xstate := t } })

/-- Both state bytes of a wait record, the start checked first (R291). -/
def waitArgs (start stop : Byte) : Except Fault (TapState × TapState) :=
  match stateArg start with
  | .error r => .error r
  | .ok ts =>
    match stateArg stop with
    | .error r => .error r
    | .ok te => .ok (ts, te)

/-- Write the four wait parameters (R293). -/
def setWait (ts te : TapState) (clocks us : Word) (s : State) : State :=
  { s with ctx := { s.ctx with waitStart := ts, waitEnd := te, waitClocks := clocks, waitUs := us } }

/-- The clocks of a wait record: to the wait state, the fixed pulses, the timed wait, to the end state
(R291, R292). -/
def waitWalk (ts te : TapState) (clocks us : Word) (s : State) : State :=
  gotoTap te (idleWait us (tapSteps false clocks.toNat (gotoTap ts s)))

/-- A wait record with both state bytes checked (R291, R292). -/
def waitRecord (start stop : Byte) (clocks us : Word) (s : State) : Result :=
  match waitArgs start stop with
  | .error r => .fault r
  | .ok (ts, te) => .next (waitWalk ts te clocks us (setWait ts te clocks us s))

/-- XWAIT (R291): it carries no clock count, so it writes and makes 0 fixed pulses. -/
def execXwait (start stop : Byte) (us : Word) (s : State) : Result := waitRecord start stop 0#32 us s

/-- XWAITSTATE (R292). -/
def execXwaitstate (start stop : Byte) (clocks us : Word) (s : State) : Result :=
  waitRecord start stop clocks us s

end Sys2Proof.Machine
end

