-- ==== Sys2Proof/Syntax.lean ====
section
/-! DEFINITION. The records of the XSVF instruction set, one constructor for each row of the opcode
table (R102). An operand is held as the stream gives it: a byte, a big-endian number, or the vector's
bytes in stream order. A state byte or an end-state code stays a byte, because every value of it can be
encoded and the record itself says what a bad one does (R128, R129). -/

namespace Sys2Proof

inductive Instr where
  /-- R104 -/
  | xcomplete
  /-- R105 -/
  | xtdomask (mask : List Byte)
  /-- R106: the IR length in bits, then the TDI vector -/
  | xsir (len : Byte) (tdi : List Byte)
  /-- R107 -/
  | xsdr (tdi : List Byte)
  /-- R108: microseconds -/
  | xruntest (us : Word)
  /-- R109 -/
  | xrepeat (n : Byte)
  /-- R110 -/
  | xsdrsize (bits : Word)
  /-- R111: TDI, then expected TDO -/
  | xsdrtdo (tdi exp : List Byte)
  /-- R112: address mask, then data mask -/
  | xsetsdrmasks (addr data : List Byte)
  /-- R113 -/
  | xsdrinc (tdi : List Byte)
  /-- R114 -/
  | xsdrb (tdi : List Byte)
  /-- R115 -/
  | xsdrc (tdi : List Byte)
  /-- R116 -/
  | xsdre (tdi : List Byte)
  /-- R117 -/
  | xsdrtdob (tdi exp : List Byte)
  /-- R118 -/
  | xsdrtdoc (tdi exp : List Byte)
  /-- R119 -/
  | xsdrtdoe (tdi exp : List Byte)
  /-- R120 -/
  | xstate (state : Byte)
  /-- R121 -/
  | xendir (code : Byte)
  /-- R122 -/
  | xenddr (code : Byte)
  /-- R123: the IR length in bits, then the TDI vector -/
  | xsir2 (len : Half) (tdi : List Byte)
  /-- R124: the text without its terminating 0x00 -/
  | xcomment (text : List Byte)
  /-- R125: wait state, end state, microseconds -/
  | xwait (start stop : Byte) (us : Word)
  /-- R126: wait state, end state, clock count, microseconds -/
  | xwaitstate (start stop : Byte) (clocks us : Word)
  /-- R127: the ignored mode -/
  | xtrst (mode : Byte)
  deriving DecidableEq, Repr

end Sys2Proof
end

