-- ==== Sys2Proof/Machine/Dispatch.lean ====
section
/-! DEFINITION. The meaning of each record, as the decode cycle dispatches to it (R191). -/

namespace Sys2Proof.Machine

def exec (i : Instr) (s : State) : Host.Outcome State Fault Refusal :=
  match i with
  | .xcomplete => Sys2Proof.Machine.execXcomplete s
  | .xtdomask mask => Sys2Proof.Machine.execXtdomask mask s
  | .xsir len tdi => Sys2Proof.Machine.execXsir len tdi s
  | .xsdr tdi => Sys2Proof.Machine.execXsdr tdi s
  | .xruntest us => Sys2Proof.Machine.execXruntest us s
  | .xrepeat n => Sys2Proof.Machine.execXrepeat n s
  | .xsdrsize bits => Sys2Proof.Machine.execXsdrsize bits s
  | .xsdrtdo tdi exp => Sys2Proof.Machine.execXsdrtdo tdi exp s
  | .xsetsdrmasks addr data => Sys2Proof.Machine.execXsetsdrmasks addr data s
  | .xsdrinc tdi => Sys2Proof.Machine.execXsdrinc tdi s
  | .xsdrb tdi => Sys2Proof.Machine.execXsdrb tdi s
  | .xsdrc tdi => Sys2Proof.Machine.execXsdrc tdi s
  | .xsdre tdi => Sys2Proof.Machine.execXsdre tdi s
  | .xsdrtdob tdi exp => Sys2Proof.Machine.execXsdrtdob tdi exp s
  | .xsdrtdoc tdi exp => Sys2Proof.Machine.execXsdrtdoc tdi exp s
  | .xsdrtdoe tdi exp => Sys2Proof.Machine.execXsdrtdoe tdi exp s
  | .xstate state => Sys2Proof.Machine.execXstate state s
  | .xendir code => Sys2Proof.Machine.execXendir code s
  | .xenddr code => Sys2Proof.Machine.execXenddr code s
  | .xsir2 len tdi => Sys2Proof.Machine.execXsir2 len tdi s
  | .xcomment text => Sys2Proof.Machine.execXcomment text s
  | .xwait start stop us => Sys2Proof.Machine.execXwait start stop us s
  | .xwaitstate start stop clocks us => Sys2Proof.Machine.execXwaitstate start stop clocks us s
  | .xtrst mode => Sys2Proof.Machine.execXtrst mode s

end Sys2Proof.Machine
end

