-- ==== Sys2Proof/Machine/Session.lean ====
section
/-! DEFINITION. The Session Driver (70_reset_and_hazards.md, section 2), apart from the record loop, which is
`step`. -/

namespace Sys2Proof.Machine

/-- The checksum line, where checksum tracking is enabled (R358). -/
def checksumLine (s : State) : List Event :=
  if Config.csumEnabled then [.csum s.ctx.checksum s.ctx.consumed] else []

/-- `ReportStatus()` (R358). -/
def reportStatus (s : State) : State :=
  let line := Event.status (Config.errCode s.ctx.error) (Config.errText s.ctx.error) s.ctx.complete
    s.ctx.instrCount
  { s with trace := s.trace ++ line :: checksumLine s }

/-- `ReleasePins()` (R359). -/
def releasePins (s : State) : State :=
  emit .release { s with pins := { s.pins with mode := .highZ } }

/-- The end of a session: the phase, the report, the release (R352). -/
def endSession (s : State) : State :=
  releasePins (reportStatus { s with phase := if s.ctx.complete then .completed else .failed })

/-- The loop test after a record (R356). -/
def loopTest (s : State) : State := if sessionOver s then endSession s else s

/-- Set the pin directions, draw the three levels, which are unspecified after it (R49, R352). -/
def initPins (s : State) : State :=
  let tms := s.env.drawLevel
  let tdi := tms.2.drawLevel
  let tck := tdi.2.drawLevel
  emit .pinsInit { s with
    pins := { mode := .driven, tms := tms.1, tdi := tdi.1, tck := tck.1 }
    env := tck.2 }

/-- `Reset()` (R351). -/
def resetContext (s : State) : State :=
  { s with ctx := .initial, bufs := .initial, stage := [], tap := .testLogicReset, comment := none }

/-- `CheckConnected()` (R353): on to Connected, or the end of the session with NotConnected. -/
def checkConnected (s : State) : State :=
  let sensed := s.env.drawVref
  let s := { s with env := sensed.2 }
  if sensed.1 then { s with phase := .connected } else endSession (raise .notConnected s)

/-- The start of a session up to the connectivity check (R352). -/
def startSession (s : State) : State := checkConnected (resetContext (initPins s))

/-- Signal readiness and enter the record loop (R352, R355). -/
def signalReady (s : State) : State := { emit .ready s with phase := .running }

end Sys2Proof.Machine
end

