-- ==== Sys2Proof/WellFormed.lean ====
section
/-! DEFINITION. Which records are whole. A vector is exactly as long as its record says: `D` bytes, where
`D` is the decoding mode `ctx.dr_bytes` (R101, R137), or `ceil8(L)` bytes for the record's own `L` (R106,
R123). -/

namespace Sys2Proof

/-- The bytes of an IR vector whose length field passes the size check, and none where it fails, because
the record then ends after its size field (R130). -/
def irVectorBytes (bits : Nat) : Nat :=
  if ceil8 bits ≤ Config.maxChainBytes then ceil8 bits else 0

/-- The record is whole when it is decoded with `ctx.dr_bytes = d`. -/
def Instr.wellFormed (d : Nat) : Instr → Bool
  | .xcomplete => true
  | .xtdomask mask => mask.length == d
  | .xsir len tdi => tdi.length == irVectorBytes len.toNat
  | .xsdr tdi => tdi.length == d
  | .xruntest _ => true
  | .xrepeat _ => true
  | .xsdrsize _ => true
  | .xsdrtdo tdi exp => tdi.length == d && exp.length == d
  | .xsetsdrmasks addr data => addr.length == d && data.length == d
  | .xsdrinc tdi => tdi.length == d
  | .xsdrb tdi => tdi.length == d
  | .xsdrc tdi => tdi.length == d
  | .xsdre tdi => tdi.length == d
  | .xsdrtdob tdi exp => tdi.length == d && exp.length == d
  | .xsdrtdoc tdi exp => tdi.length == d && exp.length == d
  | .xsdrtdoe tdi exp => tdi.length == d && exp.length == d
  | .xstate _ => true
  | .xendir _ => true
  | .xenddr _ => true
  | .xsir2 len tdi => tdi.length == irVectorBytes len.toNat
  | .xcomment text => text.all (· != 0#8)
  | .xwait _ _ _ => true
  | .xwaitstate _ _ _ _ => true
  | .xtrst _ => true

/-- `i` is a whole record in the decoding mode `d`. -/
abbrev WellFormed (d : Nat) (i : Instr) : Prop := i.wellFormed d = true

end Sys2Proof
end

