-- ==== Sys2Proof/Decode.lean ====
section
/-! DEFINITION. The decoder of records and, after it, the encoder. A record's length is known only while it
is read (R101), so the decoder is written over any reader of bytes: the pure decoder reads a list, the
player reads its stream (Machine/Stream.lean). One text says for both which bytes make which record. -/

namespace Sys2Proof

/-- A reader takes the next byte, or says that there is none (R72). -/
abbrev Reader (σ : Type) := σ → Option Byte × σ

/-- What reading one record's parameters came to. -/
inductive Parsed (σ : Type) where
  /-- The whole record was read. -/
  | whole (i : Instr) (rest : σ)
  /-- A read failed inside the record. If it failed inside a vector, the record holds the bytes before
  the failure, because those stay in the scan buffer (R79). -/
  | cut (i : Option Instr) (rest : σ)
  /-- The text of an XCOMMENT, so far without its end, of which no more is read for now (R203). -/
  | unfinished (text : List Byte) (rest : σ)
  /-- The opcode is unassigned and nothing more was read (R132). -/
  | unassigned (op : Byte) (rest : σ)
  deriving DecidableEq, Repr

/-- Big-endian composition of two bytes (R81, R123). -/
def be16 (b1 b0 : Byte) : Half := (b1 ++ b0 : BitVec 16)

/-- Big-endian composition of four bytes, `b3` in bits 31..24 (R78). -/
def be32 (b3 b2 b1 b0 : Byte) : Word := (b3 ++ b2 ++ b1 ++ b0 : BitVec 32)

/-- Read one `u8` field (R103). -/
def parseByte {σ : Type} (next : Reader σ) (s : σ) (k : Byte → σ → Parsed σ) : Parsed σ :=
  match next s with
  | (some b, s1) => k b s1
  | (none, s1) => .cut none s1

/-- Read one big-endian `u32` field: `NextLong` (R78). -/
def parseLong {σ : Type} (next : Reader σ) (s : σ) (k : Word → σ → Parsed σ) : Parsed σ :=
  parseByte next s fun b3 s =>
  parseByte next s fun b2 s =>
  parseByte next s fun b1 s =>
  parseByte next s fun b0 s => k (be32 b3 b2 b1 b0) s

/-- Read the `n` bytes of a vector in index order, stopping at the first failed read: a list shorter
than `n` says that one failed (R79). -/
def readVector {σ : Type} (next : Reader σ) : Nat → σ → List Byte × σ
  | 0, s => ([], s)
  | n + 1, s =>
    match next s with
    | (some b, s1) => (b :: (readVector next n s1).1, (readVector next n s1).2)
    | (none, s1) => ([], s1)

/-- Read the last vector of a record. -/
def parseVector {σ : Type} (next : Reader σ) (n : Nat) (mk : List Byte → Instr) (s : σ) : Parsed σ :=
  match readVector next n s with
  | (v, s1) => if v.length = n then .whole (mk v) s1 else .cut (some (mk v)) s1

/-- Read the two vectors of a record; after a first one cut short nothing of the second is read. -/
def parseVectors {σ : Type} (next : Reader σ) (n : Nat) (mk : List Byte → List Byte → Instr) (s : σ) :
    Parsed σ :=
  match readVector next n s with
  | (v, s1) => if v.length = n then parseVector next n (mk v) s1 else .cut (some (mk v [])) s1

/-- Read on in a NUL-terminated text (R124, R203), `fuel` reads at most. -/
def parseText {σ : Type} (next : Reader σ) : Nat → List Byte → σ → Parsed σ
  | 0, text, s => .unfinished text s
  | fuel + 1, text, s =>
    match next s with
    | (some b, s1) =>
      if b = 0#8 then .whole (.xcomment text) s1 else parseText next fuel (text ++ [b]) s1
    | (none, s1) => .cut none s1

/-- Read the parameters that follow the opcode byte `op`, in the decoding mode `d = ctx.dr_bytes`
(R102; PRESUMED by the spec itself, log entry 16). -/
def parseBody {σ : Type} (next : Reader σ) (d fuel : Nat) (op : Byte) (s : σ) : Parsed σ :=
  match op.toNat with
  | 0x00 => .whole .xcomplete s
  | 0x01 => parseVector next d .xtdomask s
  | 0x02 => parseByte next s fun len s => parseVector next (irVectorBytes len.toNat) (.xsir len) s
  | 0x03 => parseVector next d .xsdr s
  | 0x04 => parseLong next s fun us s => .whole (.xruntest us) s
  | 0x07 => parseByte next s fun n s => .whole (.xrepeat n) s
  | 0x08 => parseLong next s fun bits s => .whole (.xsdrsize bits) s
  | 0x09 => parseVectors next d .xsdrtdo s
  | 0x0A => parseVectors next d .xsetsdrmasks s
  | 0x0B => parseVector next d .xsdrinc s
  | 0x0C => parseVector next d .xsdrb s
  | 0x0D => parseVector next d .xsdrc s
  | 0x0E => parseVector next d .xsdre s
  | 0x0F => parseVectors next d .xsdrtdob s
  | 0x10 => parseVectors next d .xsdrtdoc s
  | 0x11 => parseVectors next d .xsdrtdoe s
  | 0x12 => parseByte next s fun state s => .whole (.xstate state) s
  | 0x13 => parseByte next s fun code s => .whole (.xendir code) s
  | 0x14 => parseByte next s fun code s => .whole (.xenddr code) s
  | 0x15 =>
    parseByte next s fun hi s =>
    parseByte next s fun lo s =>
    parseVector next (irVectorBytes (be16 hi lo).toNat) (.xsir2 (be16 hi lo)) s
  | 0x16 => parseText next fuel [] s
  | 0x17 =>
    parseByte next s fun start s =>
    parseByte next s fun stop s =>
    parseLong next s fun us s => .whole (.xwait start stop us) s
  | 0x18 =>
    parseByte next s fun start s =>
    parseByte next s fun stop s =>
    parseLong next s fun clocks s =>
    parseLong next s fun us s => .whole (.xwaitstate start stop clocks us) s
  | 0x1C => parseByte next s fun mode s => .whole (.xtrst mode) s
  | _ => .unassigned op s

/-- Why bytes are no record. -/
inductive DecodeError where
  /-- The opcode byte is unassigned (R132). -/
  | unassigned (op : Byte)
  /-- The bytes end before the record does. -/
  | truncated
  deriving DecidableEq, Repr

/-- The reader of a plain list of bytes. -/
def listReader : Reader (List Byte)
  | [] => (none, [])
  | b :: rest => (some b, rest)

/-- The record at the front of `bytes`, decoded with `ctx.dr_bytes = d`, and the bytes after it. -/
def decode (d : Nat) : List Byte → Except DecodeError (Instr × List Byte)
  | [] => .error .truncated
  | op :: rest =>
    match parseBody listReader d (rest.length + 1) op rest with
    | .whole i after => .ok (i, after)
    | .cut _ _ => .error .truncated
    | .unfinished _ _ => .error .truncated
    | .unassigned op _ => .error (.unassigned op)

/-- The two bytes of a big-endian `u16` (R81). -/
def bytes16 (w : Half) : List Byte := [w.extractLsb' 8 8, w.extractLsb' 0 8]

/-- The four bytes of a big-endian `u32` (R78). -/
def bytes32 (w : Word) : List Byte :=
  [w.extractLsb' 24 8, w.extractLsb' 16 8, w.extractLsb' 8 8, w.extractLsb' 0 8]

/-- The bytes of a record in stream order (R104 to R127). -/
def encode : Instr → List Byte
  | .xcomplete => [0x00#8]
  | .xtdomask mask => 0x01#8 :: mask
  | .xsir len tdi => 0x02#8 :: len :: tdi
  | .xsdr tdi => 0x03#8 :: tdi
  | .xruntest us => 0x04#8 :: bytes32 us
  | .xrepeat n => [0x07#8, n]
  | .xsdrsize bits => 0x08#8 :: bytes32 bits
  | .xsdrtdo tdi exp => 0x09#8 :: (tdi ++ exp)
  | .xsetsdrmasks addr data => 0x0A#8 :: (addr ++ data)
  | .xsdrinc tdi => 0x0B#8 :: tdi
  | .xsdrb tdi => 0x0C#8 :: tdi
  | .xsdrc tdi => 0x0D#8 :: tdi
  | .xsdre tdi => 0x0E#8 :: tdi
  | .xsdrtdob tdi exp => 0x0F#8 :: (tdi ++ exp)
  | .xsdrtdoc tdi exp => 0x10#8 :: (tdi ++ exp)
  | .xsdrtdoe tdi exp => 0x11#8 :: (tdi ++ exp)
  | .xstate state => [0x12#8, state]
  | .xendir code => [0x13#8, code]
  | .xenddr code => [0x14#8, code]
  | .xsir2 len tdi => 0x15#8 :: (bytes16 len ++ tdi)
  | .xcomment text => 0x16#8 :: (text ++ [0x00#8])
  | .xwait start stop us => 0x17#8 :: start :: stop :: bytes32 us
  | .xwaitstate start stop clocks us => 0x18#8 :: start :: stop :: (bytes32 clocks ++ bytes32 us)
  | .xtrst mode => [0x1C#8, mode]

/-- The length in bytes of a record decoded with `ctx.dr_bytes = d` (the length column of R102; a
record whose size check fails ends after its size field, R130). -/
def recordBytes (d : Nat) : Instr → Nat
  | .xcomplete => 1
  | .xtdomask _ | .xsdr _ | .xsdrinc _ | .xsdrb _ | .xsdrc _ | .xsdre _ => 1 + d
  | .xsir len _ => 2 + irVectorBytes len.toNat
  | .xruntest _ | .xsdrsize _ => 5
  | .xrepeat _ | .xstate _ | .xendir _ | .xenddr _ | .xtrst _ => 2
  | .xsdrtdo _ _ | .xsetsdrmasks _ _ | .xsdrtdob _ _ | .xsdrtdoc _ _ | .xsdrtdoe _ _ => 1 + 2 * d
  | .xsir2 len _ => 3 + irVectorBytes len.toNat
  | .xcomment text => 2 + text.length
  | .xwait _ _ _ => 7
  | .xwaitstate _ _ _ _ => 11

/-- The first `n` bytes of an instruction whose bits are `w`, bit 0 being the least significant bit of
the first byte. -/
def tableBytes : Nat → Nat → List Byte
  | 0, _ => []
  | n + 1, w => BitVec.ofNat 8 w :: tableBytes n (w / 256)

/-- How many zero bytes after the `nbits` given ones a record can take in the mode `d`: two vectors of `d`
bytes or the ten parameter bytes of XWAITSTATE, and, once a length field is among the given bits, the 129
bytes of the longest IR vector. -/
def paddingBytes (d nbits : Nat) : Nat :=
  2 * d + 10 + (if nbits ≤ 8 then 0 else Config.maxChainBytes)

/-- The `nbits` bits `w` of an instruction in stream order, with the zero bytes a record can take after
them. -/
def paddedBytes (d nbits w : Nat) : List Byte :=
  tableBytes (nbits / 8) w ++ List.replicate (paddingBytes d nbits) 0#8

/-- The record the decoder reads from an instruction whose bits are `w`, in the decoding mode a session
starts in, `ctx.dr_bytes = 0` (R33; DESIGN CHOICE, log entry 18). -/
def decodeTableWord (nbits w : Nat) : Option Instr :=
  match decode 0 (paddedBytes 0 nbits w) with
  | .ok (i, _) => some i
  | .error _ => none

/-- The bytes the record at the front of `bytes` takes: the whole record, or the opcode byte alone where
it is unassigned (R132), or everything where the record is cut short. -/
def frontBytes (d : Nat) (bytes : List Byte) : List Byte :=
  match decode d bytes with
  | .ok (_, rest) => bytes.take (bytes.length - rest.length)
  | .error (.unassigned _) => bytes.take 1
  | .error .truncated => bytes

end Sys2Proof
end

