-- ==== Sys2Proof/Machine/Stream.lean ====
section
/-! DEFINITION. The stream reader (20_memory.md): refilling the staging buffer, taking a byte, and fetching
one record. -/

namespace Sys2Proof.Machine

/-- The polls of one refill (R73): the bytes delivered in all, when `polls` are left to make, `room` bytes
of the staging buffer are free and `left` bytes of the host stream can be found. Each poll delivers
what the Byte Source offers, bounded by both. Polling ends early when the chunk is complete, or when the
host stream has no byte left, after which no poll could deliver one (DEDUCED, log entry 3). -/
def pollLoop : Nat → Nat → Nat → Env → Nat × Env
  | 0, _, _, e => (0, e)
  | polls + 1, room, left, e =>
    if room = 0 ∨ left = 0 then (0, e)
    else
      let draw := e.drawPoll
      let k := min draw.1 (min room left)
      let more := pollLoop polls (room - k) (left - k) draw.2
      (k + more.1, more.2)

/-- The bytes one refill delivers (R75): what the polls delivered; but a host that is always timely
(`HOST_TIMELY`) has delivered at least one byte of a stream that has one left (log entry 3). -/
def refillCount (delivered left : Nat) : Nat :=
  if delivered = 0 then
    if left = 0 then 0 else if Config.hostTimely then 1 else 0
  else delivered

/-- `Refill()` (R73, R75): false where it raises IoExhausted. -/
def refill (s : State) : Bool × State :=
  let polled := pollLoop Config.pollRetries Config.stageCap s.env.host.offer s.env
  let k := refillCount polled.1 s.env.host.offer
  let asked := emit (.reqMore Config.stageCap) s
  (k != 0,
    { asked with
      stage := s.stage.store 0 (s.env.host.take k)
      ctx := { s.ctx with rd := 0, wr := Fin.ofNat 63 k }
      env := { polled.2 with host := s.env.host.drop k } })

/-- Take the byte at the read cursor: it is checksummed and counted (R74). -/
def takeByte (s : State) : Byte × State :=
  let b := s.stage.get s.ctx.rd.val
  (b, { s with ctx := { s.ctx with
    rd := Fin.ofNat 63 (s.ctx.rd.val + 1)
    checksum := s.ctx.checksum + BitVec.ofNat Config.csumBits b.toNat
    consumed := s.ctx.consumed + 1#32 } })

/-- `NextByte()` (R74): no byte where the refill raises IoExhausted. The staging buffer is exhausted when
the read cursor has reached the write cursor (R45, R46; DEDUCED, log entry 11). -/
def nextByte : Reader State := fun s =>
  if s.ctx.rd < s.ctx.wr then
    let t := takeByte s
    (some t.1, t.2)
  else
    let r := refill s
    if r.1 then
      let t := takeByte r.2
      (some t.1, t.2)
    else (none, r.2)

/-- The bytes the reader can still give, buffered or not yet delivered, apart from those of a host that never
stops. -/
def bytesLeft (s : State) : Nat := (s.ctx.wr.val - s.ctx.rd.val) + s.env.host.listed.length

/-- The reads of a comment's text that one step makes: where the host stream ends, as many as there can be, and
the one that fails; where it never does, one (log entry 19; D34 leaves the granularity to the model). -/
def commentReads (s : State) : Nat := if s.env.host.endless = none then bytesLeft s + 1 else 1

/-- Count one opcode read (R191, R325). -/
def countInstr (s : State) : State :=
  { s with ctx := { s.ctx with instrCount := s.ctx.instrCount + 1#32 } }

/-- What fetching a record came to. -/
inductive Fetched where
  /-- A record to execute: whole, or cut short inside a vector, whose `fill` then raises (R79). -/
  | record (i : Instr) (s : State)
  /-- An XCOMMENT whose text is not at its end: the next step reads on (R203, R362). -/
  | suspended (s : State)
  /-- A read failed and nothing but the stream has changed (R76, R84). -/
  | starved (s : State)
  /-- The opcode is unassigned (R132, R205). -/
  | unassigned (s : State)
  deriving DecidableEq, Repr

/-- What a record's parameters are to the interpreter. -/
def fetchedOf : Parsed State → Fetched
  | .whole i s => .record i s
  | .cut (some i) s => .record i s
  | .cut none s => .starved s
  | .unfinished text s => .suspended { s with comment := some text }
  | .unassigned _ s => .unassigned s

/-- Read on in the comment whose text so far is `text` (R203). -/
def resumeComment (text : List Byte) (s : State) : Fetched :=
  fetchedOf (parseText nextByte (commentReads s) text s)

/-- Read one record: the opcode, the count, the parameters (R191), decoded with the `ctx.dr_bytes` of this
moment (R101). Every record reads all its bytes before its first clock, and what it writes in between is
nothing the reader reads, so reading first and executing after is the order of the spec's effects on the
trace (log entry 8). -/
def fetchRecord (s : State) : Fetched :=
  match s.comment with
  | some text => resumeComment text { s with comment := none }
  | none =>
    match nextByte s with
    | (none, s1) => .starved s1
    | (some op, s1) =>
      fetchedOf (parseBody nextByte s.ctx.drBytes.val (commentReads s1) op (countInstr s1))

end Sys2Proof.Machine
end

