-- ==== Sys2Proof/Machine/Step.lean ====
section
/-! DEFINITION. One step of the Session Driver: the start of a session, the readiness signal, or one record
with the loop test after it (R352; D34 leaves the granularity to the model). -/

namespace Sys2Proof.Machine

/-- What one call of the interpreter comes to once the record's bytes are read (R191). -/
def execFetched : Fetched → Host.Outcome State Fault Refusal
  | .record i s => exec i s
  | .suspended s => .next s
  | .starved s => .next (raise .ioExhausted s)
  | .unassigned s => execUnassigned s

/-- One call of the interpreter (R190, R191). -/
def interpret (s : State) : Host.Outcome State Fault Refusal := execFetched (fetchRecord s)

/-- One step (its granularity: DESIGN CHOICE, log entry 12). A session that has ended stays as it is (R361;
DESIGN CHOICE, log entry 10). -/
def step (s : State) : Host.Outcome State Fault Refusal :=
  match s.phase with
  | .idle => .next (startSession s)
  | .connected => .next (signalReady s)
  | .running => afterRecord loopTest (interpret s)
  | .completed => .next s
  | .failed => .next s

/-- `s` in a running session whose next record has the bits `w`, its bits above `nbits` zero: the bytes of
exactly that record are delivered, the first of them in the staging buffer, the others left to refills that
the Byte Source answers in full. It stands for the session start and for the host's delivery (log entry 9). -/
def State.withFetchWord (s : State) (nbits w : Nat) : State :=
  let bytes := frontBytes s.ctx.drBytes.val (paddedBytes s.ctx.drBytes.val nbits w)
  let staged := bytes.take Config.stageCap
  { s with
    phase := .running
    comment := none
    pins := { s.pins with mode := .driven }
    stage := Memory.store [] 0 staged
    ctx := { s.ctx with rd := 0, wr := Fin.ofNat 63 staged.length }
    env := { s.env with
      host := .ending (bytes.drop Config.stageCap)
      polls := List.replicate (bytes.length / Config.stageCap) Config.stageCap } }

end Sys2Proof.Machine
end

