-- ==== Sys2Proof/Safety.lean ====
section
/-! DEFINITION. What counts as a safe state and a final one, and the vocabulary in which claims about runs
are made: what a trace of clocks does to the TAP, and what bytes the stream still holds. -/

namespace Sys2Proof.Machine

/-! ## The invariant -/

/-- Each byte length is `ceil8` of its bit length, which is so at most 1032, since R33's type of a byte length ends
at 129 (R37). -/
abbrev SizesAgree (s : State) : Prop :=
  s.ctx.irBytes.val = ceil8 s.ctx.irBits.toNat ∧ s.ctx.drBytes.val = ceil8 s.ctx.drBits.toNat

/-- Each resting state is RUN_TEST_IDLE or the pause state of its family (R33, R38). -/
abbrev EndStatesLegal (s : State) : Prop :=
  (s.ctx.endIr = .runTestIdle ∨ s.ctx.endIr = .pauseIr) ∧
  (s.ctx.endDr = .runTestIdle ∨ s.ctx.endDr = .pauseDr)

/-- `rd ≤ wr`; that both are at most `STAGE_CAP` is their type (R46). -/
abbrev CursorsOrdered (s : State) : Prop := s.ctx.rd ≤ s.ctx.wr

/-- Every scan buffer and the staging buffer has its canonical form (R42, R45). -/
abbrev StoresCanonical (s : State) : Prop :=
  (s.bufs.tdi.wf Config.maxChainBytes ∧ s.bufs.tdocap.wf Config.maxChainBytes ∧
    s.bufs.tdoexp.wf Config.maxChainBytes ∧ s.bufs.tdomask.wf Config.maxChainBytes ∧
    s.bufs.addrmask.wf Config.maxChainBytes ∧ s.bufs.datamask.wf Config.maxChainBytes) ∧
  s.stage.wf Config.stageCap

/-- The phase agrees with the flags, the pins and the trace: no error or completion before the end of a
session, exactly one of them at its end, the pins driven exactly inside a session, and `Release` its last
event (R48, R54, R356, R359). -/
def phaseAgrees (s : State) : Bool :=
  match s.phase with
  | .idle => s.ctx.error == .none && !s.ctx.complete && s.pins.mode == .highZ
  | .connected => s.ctx.error == .none && !s.ctx.complete && s.pins.mode == .driven
  | .running => s.ctx.error == .none && !s.ctx.complete && s.pins.mode == .driven
  | .completed => s.ctx.error == .none && s.ctx.complete && s.pins.mode == .highZ &&
      s.trace.getLast? == some .release
  | .failed => s.ctx.error != .none && !s.ctx.complete && s.pins.mode == .highZ &&
      s.trace.getLast? == some .release

/-- A comment is half read only inside a session, and only from a host that never stops (log entry 19). -/
abbrev CommentAgrees (s : State) : Prop :=
  s.comment = none ∨ s.phase = .running ∧ s.env.host.endless ≠ none

/-- The invariant every step keeps. -/
structure State.Inv (s : State) : Prop where
  sizes : SizesAgree s
  ends : EndStatesLegal s
  cursors : CursorsOrdered s
  stores : StoresCanonical s
  phase : phaseAgrees s = true
  comment : CommentAgrees s

/-- The session has ended and its run is final (R361). -/
def State.Final (s : State) : Prop := s.phase = .completed ∨ s.phase = .failed

/-! ## Clocks -/

/-- The TAP state after an event (R32: only a clock moves it). -/
def tapAfter (t : TapState) : Event → TapState
  | .clk tms _ _ => tapNext t tms
  | _ => t

/-- The TDI latch after an event (R49). -/
def latchAfter (l : Bool) : Event → Bool
  | .clk _ tdi _ => tdi
  | _ => l

/-- Whether an event is a clock. -/
def isClk : Event → Bool
  | .clk _ _ _ => true
  | _ => false

/-- Where a sequence of TMS levels leads from a TAP state. -/
def tmsWalk (t : TapState) (tms : List Bool) : TapState := tms.foldl tapNext t

/-- From `s` to `t` nothing but clocks and timed waits happened: the context, the scan buffers, the staging
buffer, the phase, the half-read comment, the pins' mode and the host stream are as before. -/
structure OnlyClocked (s t : State) : Prop where
  ctx : t.ctx = s.ctx
  bufs : t.bufs = s.bufs
  stage : t.stage = s.stage
  phase : t.phase = s.phase
  comment : t.comment = s.comment
  mode : t.pins.mode = s.pins.mode
  host : t.env.host = s.env.host

/-- The trace of `t` is that of `s` with `es` after it, and `t`'s TAP state and TDI latch are what the
clocks among `es` make of those of `s`. -/
structure Clocked (s t : State) (es : List Event) : Prop where
  trace : t.trace = s.trace ++ es
  tap : t.tap = es.foldl tapAfter s.tap
  latch : t.pins.tdi = es.foldl latchAfter s.pins.tdi

/-! ## Shifts -/

/-- Bit `i` of the chain value a scan buffer holds for an `n`-bit shift (R44, R171). -/
def chainBit (s : State) (b : BufName) (n i : Nat) : Bool :=
  (bufByte s b (ceil8 n - 1 - i / 8)).getLsbD (i % 8)

/-- The clocks of an `n`-bit shift out of the buffer `inp` from clock number `i` on, with the TDO levels
`tdos`: clock `k` drives chain bit `k`, and TMS is 1 only on the last clock and only if the shift must end
(R171, R172). -/
def shiftEvents (s : State) (inp : BufName) (n : Nat) (mustEnd : Bool) : Nat → List Bool → List Event
  | _, [] => []
  | i, d :: tdos =>
    .clk (mustEnd && i + 1 == n) (chainBit s inp n i) d :: shiftEvents s inp n mustEnd (i + 1) tdos

/-! ## Scans -/

/-- The state with a whole vector in a scan buffer, its first byte at index 0 (R79). -/
def withVector (b : BufName) (v : List Byte) (s : State) : State :=
  setBuf b ((s.bufs.get b).store 0 v) s

/-- R250's table: the four flags of a DR record (must_begin, must_check, use_mask, must_end), its TDI
vector, and the expected vector of the records that carry one. -/
def drOperands : Instr → Option (DrFlags × List Byte × Option (List Byte))
  | .xsdr tdi => some (⟨true, true, true, true⟩, tdi, none)
  | .xsdrb tdi => some (⟨true, false, false, false⟩, tdi, none)
  | .xsdrc tdi => some (⟨false, false, false, false⟩, tdi, none)
  | .xsdre tdi => some (⟨false, false, false, true⟩, tdi, none)
  | .xsdrtdo tdi exp => some (⟨true, true, true, true⟩, tdi, some exp)
  | .xsdrtdob tdi exp => some (⟨true, true, false, false⟩, tdi, some exp)
  | .xsdrtdoc tdi exp => some (⟨false, true, false, false⟩, tdi, some exp)
  | .xsdrtdoe tdi exp => some (⟨false, true, false, true⟩, tdi, some exp)
  | _ => none

/-- The state a DR record's first attempt starts from: its vectors in their buffers, and the TAP in
SHIFT_DR if the record must begin there (R251). -/
def drStart (f : DrFlags) (tdi : List Byte) (exp : Option (List Byte)) (s : State) : State :=
  let stored := match exp with
    | none => withVector .tdi tdi s
    | some e => withVector .tdoexp e (withVector .tdi tdi s)
  if f.mustBegin then gotoTap .shiftDr stored else stored

/-- The state after attempt number `k`, counted from 0, with a bounce between two attempts (R252). -/
def attemptState (mustEnd : Bool) : Nat → State → State
  | 0, s => drShift mustEnd s
  | k + 1, s => drShift mustEnd (retryBounce (attemptState mustEnd k s))

/-- The state a successful scan ends in (R251, R254). -/
def drDone (f : DrFlags) (s : State) : State := if f.mustEnd then drSettle s else s

/-- The clocks in a trace. -/
def clockCount (es : List Event) : Nat := es.countP isClk

/-- The records each scan buffer is written by (R43). -/
def writesBuffer : Instr → BufName → Bool
  | .xsir _ _, .tdi | .xsir2 _ _, .tdi | .xsdr _, .tdi | .xsdrb _, .tdi | .xsdrc _, .tdi
  | .xsdre _, .tdi | .xsdrtdo _ _, .tdi | .xsdrtdob _ _, .tdi | .xsdrtdoc _ _, .tdi
  | .xsdrtdoe _ _, .tdi | .xsdrinc _, .tdi => true
  | .xsir _ _, .tdocap | .xsir2 _ _, .tdocap | .xsdr _, .tdocap | .xsdrb _, .tdocap | .xsdrc _, .tdocap
  | .xsdre _, .tdocap | .xsdrtdo _ _, .tdocap | .xsdrtdob _ _, .tdocap | .xsdrtdoc _ _, .tdocap
  | .xsdrtdoe _ _, .tdocap => true
  | .xsdrtdo _ _, .tdoexp | .xsdrtdob _ _, .tdoexp | .xsdrtdoc _ _, .tdoexp
  | .xsdrtdoe _ _, .tdoexp => true
  | .xtdomask _, .tdomask => true
  | .xsetsdrmasks _ _, .addrmask => true
  | .xsetsdrmasks _ _, .datamask => true
  | _, _ => false

/-- How many bytes of the buffers it writes a record may write: its own vector's bytes for the IR records,
`ctx.dr_bytes` for the others (R43). -/
def writtenBytes (i : Instr) (s : State) : Nat :=
  match i with
  | .xsir len _ => irVectorBytes len.toNat
  | .xsir2 len _ => irVectorBytes len.toNat
  | _ => s.ctx.drBytes.val

/-- Whether a state byte of the record names no TAP state (R128, R289). -/
def badStateByte : Instr → Bool
  | .xstate b => decide (15 < b.toNat)
  | .xwait a b _ => decide (15 < a.toNat) || decide (15 < b.toNat)
  | .xwaitstate a b _ _ => decide (15 < a.toNat) || decide (15 < b.toNat)
  | _ => false

/-- The errors each record can raise once its opcode is read (R310); a vector the stream cuts short is the
one way IoExhausted arises while a record executes. -/
def mayRaise : Instr → ErrorKind → Bool
  | .xsir2 _ _, .chainSizeExceeded | .xsdrsize _, .chainSizeExceeded => true
  | .xendir _, .invalidEndState | .xenddr _, .invalidEndState => true
  | .xsdr _, .verificationFailed | .xsdrtdo _ _, .verificationFailed
  | .xsdrtdob _ _, .verificationFailed | .xsdrtdoc _ _, .verificationFailed
  | .xsdrtdoe _ _, .verificationFailed => true
  | .xtdomask _, .ioExhausted | .xsir _ _, .ioExhausted | .xsdr _, .ioExhausted
  | .xsdrtdo _ _, .ioExhausted | .xsetsdrmasks _ _, .ioExhausted | .xsdrinc _, .ioExhausted
  | .xsdrb _, .ioExhausted | .xsdrc _, .ioExhausted | .xsdre _, .ioExhausted
  | .xsdrtdob _ _, .ioExhausted | .xsdrtdoc _ _, .ioExhausted | .xsdrtdoe _ _, .ioExhausted
  | .xsir2 _ _, .ioExhausted => true
  | _, _ => false

/-! ## The session -/

/-- The VREF sense of a session that starts in `s`: drawn after the three pin levels (R352, R353). -/
def vrefSensed (s : State) : Bool := (initPins s).env.drawVref.1

/-- The last events of a session that ends in `s` (R358, R359). -/
def trailer (s : State) : List Event :=
  [.status (Config.errCode s.ctx.error) (Config.errText s.ctx.error) s.ctx.complete s.ctx.instrCount] ++
    (if Config.csumEnabled then [.csum s.ctx.checksum s.ctx.consumed] else []) ++ [.release]

/-! ## The stream -/

/-- Byte number `i` of those the player has not consumed yet, in stream order, if there are so many (R71). -/
def pendingByte (s : State) (i : Nat) : Option Byte :=
  if i < s.ctx.wr.val - s.ctx.rd.val then some (s.stage.get (s.ctx.rd.val + i))
  else s.env.host.byte (i - (s.ctx.wr.val - s.ctx.rd.val))

/-- From `s` to `t` nothing but stream reads happened: only the staging buffer with its cursors, the two
counts of bytes, the outside, and requests for more data at the end of the trace differ. -/
structure OnlyRead (s t : State) : Prop where
  ctx : t.ctx = { s.ctx with
    rd := t.ctx.rd, wr := t.ctx.wr, checksum := t.ctx.checksum, consumed := t.ctx.consumed }
  bufs : t.bufs = s.bufs
  tap : t.tap = s.tap
  pins : t.pins = s.pins
  phase : t.phase = s.phase
  comment : t.comment = s.comment
  trace : ∃ n, t.trace = s.trace ++ List.replicate n (.reqMore Config.stageCap)

/-- The checksum after some bytes (R74). -/
def checksumAfter (c : BitVec Config.csumBits) (bytes : List Byte) : BitVec Config.csumBits :=
  bytes.foldl (fun c b => c + BitVec.ofNat Config.csumBits b.toNat) c

end Sys2Proof.Machine
end

