-- ==== Sys2Proof/Certificates/Slice0/Obligations.lean ====
section
/-! DEFINITION. The statements for the provers. Each docstring names the rules of spec/ a statement
formalises, and, where it rests on a choice of the model, the log entry. -/

open Sys2Proof Sys2Proof.Machine

/-! ## Encoding (30_encoding.md) -/

/-- Decoding the bytes of a whole record gives the record back and leaves what follows it (R102 to R127). -/
def Obligations.EncodeThenDecode : Prop :=
  ∀ (d : Nat) (i : Instr) (rest : List Byte), WellFormed d i → decode d (encode i ++ rest) = .ok (i, rest)

/-- Bytes that decode to a record are its encoding: every accepted byte string has one meaning, and no bit
of it is dropped (R102 to R127, R137). -/
def Obligations.DecodedBytesAreTheEncoding : Prop :=
  ∀ (d : Nat) (bytes rest : List Byte) (i : Instr), decode d bytes = .ok (i, rest) →
    WellFormed d i ∧ bytes = encode i ++ rest

/-- Every opcode byte is one of the 24 assigned ones or is refused as unassigned (R132, R133). -/
def Obligations.UnassignedOpcodesAreTheRest : Prop :=
  ∀ (d : Nat) (op : Byte) (rest : List Byte),
    decode d (op :: rest) = .error (.unassigned op) ↔
      op ∉ [0x00#8, 0x01#8, 0x02#8, 0x03#8, 0x04#8, 0x07#8, 0x08#8, 0x09#8, 0x0A#8, 0x0B#8, 0x0C#8, 0x0D#8,
        0x0E#8, 0x0F#8, 0x10#8, 0x11#8, 0x12#8, 0x13#8, 0x14#8, 0x15#8, 0x16#8, 0x17#8, 0x18#8, 0x1C#8]

/-- Records written out from the encodings of R110, R111, R123, R124 and R126. -/
def Obligations.SampleRecordsDecode : Prop :=
  decode 0 [0x08#8, 0x00#8, 0x00#8, 0x04#8, 0x10#8] = .ok (.xsdrsize 1040#32, []) ∧
  decode 1 [0x09#8, 0xA5#8, 0x5A#8, 0x00#8] = .ok (.xsdrtdo [0xA5#8] [0x5A#8], [0x00#8]) ∧
  decode 0 [0x15#8, 0x00#8, 0x05#8, 0x1F#8] = .ok (.xsir2 5#16 [0x1F#8], []) ∧
  decode 0 [0x16#8, 0x48#8, 0x49#8, 0x00#8] = .ok (.xcomment [0x48#8, 0x49#8], []) ∧
  decode 0 [0x18#8, 0x06#8, 0x01#8, 0x00#8, 0x00#8, 0x00#8, 0x02#8, 0x00#8, 0x00#8, 0x01#8, 0x00#8] =
    .ok (.xwaitstate 6#8 1#8 2#32 256#32, [])

/-- An XSIR2 length above 1032 bits ends the record after its size field, and the record raises
ChainSizeExceeded with nothing else changed (R130, R241). -/
def Obligations.OversizedIrLengthStopsBeforeData : Prop :=
  ∀ (d : Nat) (hi lo : Byte) (rest : List Byte) (s : State), 1032 < (be16 hi lo).toNat →
    decode d (0x15#8 :: hi :: lo :: rest) = .ok (.xsir2 (be16 hi lo) [], rest) ∧
    exec (.xsir2 (be16 hi lo) []) s =
      .next { s with ctx := { s.ctx with error := .chainSizeExceeded } }

/-! ## Reset and session (70_reset_and_hazards.md) -/

/-- What `Reset()` leaves, from whatever state, and what the machine starts from (R351). -/
def Obligations.ResetValues : Prop :=
  ∀ s u : State, (u = resetContext s ∨ u = State.reset) →
    (u.ctx.irBits = 0#16 ∧ u.ctx.irBytes = 0 ∧ u.ctx.drBits = 0#32 ∧ u.ctx.drBytes = 0 ∧ u.ctx.runtest = 0#32) ∧
    u.ctx.retries = 32#8 ∧
    (u.ctx.xstate = .testLogicReset ∧ u.ctx.waitStart = .testLogicReset ∧ u.ctx.waitEnd = .testLogicReset) ∧
    (u.ctx.waitClocks = 0#32 ∧ u.ctx.waitUs = 0#32 ∧ u.ctx.instrCount = 0#32 ∧ u.ctx.consumed = 0#32 ∧
      u.ctx.checksum = 0#Config.csumBits) ∧
    (u.ctx.endIr = .runTestIdle ∧ u.ctx.endDr = .runTestIdle) ∧
    (u.ctx.error = .none ∧ u.ctx.complete = false) ∧
    (u.ctx.rd = 0 ∧ u.ctx.wr = 0 ∧ ∀ i, u.stage.get i = 0#8) ∧
    (∀ b i, bufByte u b i = 0#8) ∧
    u.tap = .testLogicReset ∧
    (resetContext s).pins = s.pins ∧ (resetContext s).trace = s.trace

/-- A session whose VREF sense is inactive ends at once: pin initialisation, status, checksum line if
enabled, release, and nothing else; no clock and no record (R353, R354). -/
def Obligations.NotConnectedSession : Prop :=
  ∀ s : State, s.phase = .idle → vrefSensed s = false →
    ∃ t, step s = .next t ∧ t.phase = .failed ∧ t.ctx.error = .notConnected ∧ t.ctx.complete = false ∧
      t.ctx.instrCount = 0#32 ∧ t.pins.mode = .highZ ∧ t.tap = .testLogicReset ∧
      t.trace = s.trace ++ [.pinsInit,
        .status (Config.errCode .notConnected) (Config.errText .notConnected) false 0#32] ++
        (if Config.csumEnabled then [.csum 0#Config.csumBits 0#32] else []) ++ [.release]

/-- A session whose VREF sense is active initialises the pins and the context, connects, and then signals
readiness and enters the record loop (R352, R354, R355). -/
def Obligations.ConnectedSession : Prop :=
  ∀ s : State, s.phase = .idle → vrefSensed s = true →
    ∃ t, step s = .next t ∧ t.phase = .connected ∧ t.ctx = .initial ∧ t.bufs = .initial ∧
      t.tap = .testLogicReset ∧ t.pins.mode = .driven ∧ t.trace = s.trace ++ [.pinsInit] ∧
      t.env.host = s.env.host ∧
      step t = .next { t with phase := .running, trace := t.trace ++ [.ready] }

/-- After a record the session goes on exactly if neither flag is set; else it reports and releases the
pins, Completed if the completion flag is set and Failed otherwise, and moves nothing else (R356, R358,
R359). -/
def Obligations.LoopTestEndsSession : Prop :=
  ∀ s : State,
    (s.ctx.complete = false → s.ctx.error = .none → loopTest s = s) ∧
    (s.ctx.complete = true ∨ s.ctx.error ≠ .none →
      loopTest s = { s with
        phase := if s.ctx.complete then .completed else .failed
        pins := { s.pins with mode := .highZ }
        trace := s.trace ++ trailer s })

/-- An error ends the session for good: the step that leaves one set has released the pins and failed, and
no later step reads a byte or runs a record (R313, R361; that an ended machine stays as it is, rather than
stopping, is log entry 10). -/
def Obligations.ErrorEndsTheSession : Prop :=
  ∀ s t : State, s.Inv → step s = .next t → t.ctx.error ≠ .none →
    t.phase = .failed ∧ t.pins.mode = .highZ ∧ t.trace.getLast? = some .release ∧ step t = .next t

/-- A completion ends the session for good, too: the step that leaves the completion flag set has released the
pins and completed with no error, and no later step reads a byte, runs a record or issues a clock (R357, R361;
that an ended machine stays as it is, rather than stopping, is log entry 10). -/
def Obligations.CompletionEndsTheSession : Prop :=
  ∀ s t : State, s.Inv → step s = .next t → t.ctx.complete = true →
    t.phase = .completed ∧ t.ctx.error = .none ∧ t.pins.mode = .highZ ∧
    t.trace.getLast? = some .release ∧ step t = .next t

/-- The status codes of the seven error kinds are distinct, and None has code 0 (R317). -/
def Obligations.StatusCodesDistinct : Prop :=
  Config.errCode .none = 0 ∧ ∀ k l : ErrorKind, Config.errCode k = Config.errCode l → k = l

/-! ## Stream (20_memory.md) -/

/-- `NextByte`: a refill where the buffer is exhausted, then the byte at the read cursor, which is
checksummed and counted (R74). -/
def Obligations.NextByteTakesOne : Prop :=
  ∀ s : State, CursorsOrdered s →
    let filledUp := if s.ctx.rd = s.ctx.wr then refill s else (true, s)
    if filledUp.1 then
      ∃ t, nextByte s = (some (filledUp.2.stage.get filledUp.2.ctx.rd.val), t) ∧
        t.ctx.rd.val = filledUp.2.ctx.rd.val + 1 ∧
        t.ctx.checksum = s.ctx.checksum +
          BitVec.ofNat Config.csumBits (filledUp.2.stage.get filledUp.2.ctx.rd.val).toNat ∧
        t.ctx.consumed = s.ctx.consumed + 1#32 ∧
        t = { filledUp.2 with ctx := { filledUp.2.ctx with
          rd := t.ctx.rd, checksum := t.ctx.checksum, consumed := t.ctx.consumed } }
    else nextByte s = (none, filledUp.2)

/-- A refill asks for 62 bytes and then either delivers nothing or puts the next `k` bytes of the host
stream at the front of the staging buffer; it delivers nothing only at the end of the host stream or where
the host need not be timely (R75). -/
def Obligations.RefillTakesTheNextBytes : Prop :=
  ∀ s : State, ∃ k, k ≤ 62 ∧
    (k = 0 → s.env.host.byte 0 = none ∨ Config.hostTimely = false) ∧
    (refill s).1 = decide (0 < k) ∧
    (refill s).2.ctx.rd.val = 0 ∧ (refill s).2.ctx.wr.val = k ∧
    (∀ i, i < k → s.env.host.byte i = some ((refill s).2.stage.get i)) ∧
    (∀ i, (refill s).2.env.host.byte i = s.env.host.byte (k + i)) ∧
    (refill s).2.trace = s.trace ++ [.reqMore 62] ∧
    (refill s).2.ctx = { s.ctx with rd := (refill s).2.ctx.rd, wr := (refill s).2.ctx.wr } ∧
    (refill s).2.bufs = s.bufs ∧ (refill s).2.tap = s.tap ∧ (refill s).2.pins = s.pins

/-- Every outcome R75 admits can occur: any count from 1 to 62 that the host stream has, and none at all
unless the host is timely. -/
def Obligations.RefillMayDeliverAnyCount : Prop :=
  ∀ (s : State) (k : Nat), 1 ≤ k → k ≤ 62 → s.env.host.byte (k - 1) ≠ none →
    (∃ polls, let r := refill { s with env := { s.env with polls := polls } }
      r.1 = true ∧ r.2.ctx.wr.val = k) ∧
    ∃ polls, (refill { s with env := { s.env with polls := polls } }).1 = Config.hostTimely

/-- Checksum determinism: the same bytes still to come, read to the same count, give the same bytes, the
same checksum and the same count of bytes, however the refills split them (R325, R71, R85). -/
def Obligations.ChecksumIgnoresRefills : Prop :=
  ∀ (s t : State) (n : Nat), (∀ i, pendingByte s i = pendingByte t i) →
    s.ctx.checksum = t.ctx.checksum → s.ctx.consumed = t.ctx.consumed →
    (readVector nextByte n s).1.length = n → (readVector nextByte n t).1.length = n →
    (∀ i, i < n → pendingByte s i = some ((readVector nextByte n s).1.getD i 0#8)) ∧
    (readVector nextByte n t).1 = (readVector nextByte n s).1 ∧
    (readVector nextByte n s).2.ctx.checksum = (readVector nextByte n t).2.ctx.checksum ∧
    (readVector nextByte n s).2.ctx.consumed = (readVector nextByte n t).2.ctx.consumed ∧
    (readVector nextByte n s).2.ctx.consumed = s.ctx.consumed + BitVec.ofNat 32 n

/-! ## Fetch and step (42_xsvf_decode_setup.md, section 1) -/

/-- Where the bytes the stream gives next decode to a record, a step is that record's meaning at the state
after those reads, its opcode counted, with the loop test after it (R191, R356). A comment from a host that
never stops takes one step for each byte instead, which `CommentFromEndlessHost` states (log entry 19). -/
def Obligations.StepRunsTheDecodedRecord : Prop :=
  ∀ (s t : State) (bytes : List Byte) (i : Instr), s.phase = .running → s.comment = none →
    (s.env.host.endless = none ∨ ∀ text, i ≠ .xcomment text) →
    readVector nextByte bytes.length s = (bytes, t) →
    decode s.ctx.drBytes.val bytes = .ok (i, []) →
    step s = afterRecord loopTest (exec i (countInstr t)) ∧
    t.ctx.consumed = s.ctx.consumed + BitVec.ofNat 32 (recordBytes s.ctx.drBytes.val i)

/-- An unassigned opcode is counted and raises UnimplementedInstruction; nothing after it is read (R132,
R205). -/
def Obligations.UnassignedOpcodeStep : Prop :=
  ∀ (s t : State) (op : Byte), s.phase = .running → s.comment = none → nextByte s = (some op, t) →
    decode s.ctx.drBytes.val [op] = .error (.unassigned op) →
    step s = .next (loopTest { t with ctx := { t.ctx with
      instrCount := t.ctx.instrCount + 1#32, error := .unimplementedInstruction } })

/-- Where the opcode read itself fails, IoExhausted is raised and nothing is counted (R191). -/
def Obligations.StarvedOpcodeStep : Prop :=
  ∀ s t : State, s.phase = .running → s.comment = none → nextByte s = (none, t) →
    step s = .next (loopTest { t with ctx := { t.ctx with error := .ioExhausted } })

/-- A stream that ends inside a record ends the session with IoExhausted: the record is counted, the bytes
read stay counted and checksummed, and no clock is issued (R84, R191, R310, R314). A comment from a host that
never stops is cut in the step that finds no byte (`CommentFromEndlessHost`, log entry 19). -/
def Obligations.CutRecordRaisesIoExhausted : Prop :=
  ∀ (s t : State) (bytes : List Byte), s.Inv → s.phase = .running → s.comment = none → bytes ≠ [] →
    (s.env.host.endless = none ∨ bytes.head? ≠ some 0x16#8) →
    readVector nextByte (bytes.length + 1) s = (bytes, t) →
    decode s.ctx.drBytes.val bytes = .error .truncated →
    ∃ u, step s = .next u ∧ u.phase = .failed ∧ u.ctx.error = .ioExhausted ∧
      u.ctx.instrCount = s.ctx.instrCount + 1#32 ∧
      u.ctx.consumed = s.ctx.consumed + BitVec.ofNat 32 bytes.length ∧
      u.ctx.checksum = checksumAfter s.ctx.checksum bytes ∧
      u.tap = s.tap ∧ u.pins.tdi = s.pins.tdi ∧
      clockCount u.trace = clockCount s.trace

/-- A comment from a host that never stops, byte by byte: the opcode counted, its text is empty; each step then
reads one byte, which is added to the text, or, where it is the NUL, surfaces the text; and where no byte
comes, IoExhausted is raised. So a comment that never meets its NUL is a run without end (R203, R362). -/
def Obligations.CommentFromEndlessHost : Prop :=
  ∀ s t : State, s.Inv → s.phase = .running → s.env.host.endless ≠ none →
    (s.comment = none → nextByte s = (some 0x16#8, t) →
      step s = step { countInstr t with comment := some [] }) ∧
    ∀ text, s.comment = some text →
      (∀ b, b ≠ 0#8 → nextByte s = (some b, t) → step s = .next { t with comment := some (text ++ [b]) }) ∧
      (nextByte s = (some 0#8, t) →
        step s = .next { t with comment := none, trace := t.trace ++ [.diag text] }) ∧
      (nextByte s = (none, t) →
        step s = .next (loopTest { t with
          comment := none, ctx := { t.ctx with error := .ioExhausted } }))

/-- A session with a host stream that ends comes to its end: each of its steps after which it still runs has
taken at least one of the bytes that are left (R362). -/
def Obligations.FiniteStreamEndsTheSession : Prop :=
  ∀ s t : State, s.Inv → s.phase = .running → s.env.host.endless = none → step s = .next t →
    t.env.host.endless = none ∧ (t.phase = .running → bytesLeft t < bytesLeft s)

/-! ## TAP (40_tap_controller.md) -/

/-- The transition table in its packed form, the next state on TMS 1 in the high nibble (R141). -/
def Obligations.PackedTransitionTable : Prop :=
  ∀ (s : TapState) (tms : Bool),
    tapCode (tapNext s tms) =
      ([0x01, 0x21, 0x93, 0x54, 0x54, 0x86, 0x76, 0x84, 0x21, 0x0A, 0xCB, 0xCB, 0xFD, 0xED, 0xFB, 0x21].getD
        (tapCode s) 0 >>> (4 * tms.toNat)) % 16

/-- The states that stay put on a clock, that five TMS-1 clocks reach TEST_LOGIC_RESET from every state, and
the six states from which it takes all five (R143). -/
def Obligations.SelfLoopsAndFiveOnes : Prop :=
  ∀ s : TapState,
    (tapNext s false = s ↔
      s ∈ [TapState.runTestIdle, .shiftDr, .pauseDr, .shiftIr, .pauseIr]) ∧
    (tapNext s true = s ↔ s = .testLogicReset) ∧
    tmsWalk s (List.replicate 5 true) = .testLogicReset ∧
    ((∀ k, k < 5 → tmsWalk s (List.replicate k true) ≠ .testLogicReset) ↔
      s ∈ [TapState.captureDr, .shiftDr, .pauseDr, .captureIr, .shiftIr, .pauseIr])

/-- One TCK pulse: the two levels are driven, TCK ends high, the TAP advances by the table, the sampled TDO
is the outside's next answer, and one `Clk` event is recorded; a `Step` drives the latch again (R146,
R147). -/
def Obligations.ClockPulse : Prop :=
  ∀ (s : State) (tms tdi : Bool),
    let r := clock tms tdi s
    r.2.pins = { mode := s.pins.mode, tms := tms, tdi := tdi, tck := true } ∧
    r.2.tap = tapNext s.tap tms ∧ r.2.trace = s.trace ++ [.clk tms tdi r.1] ∧
    (∀ (x : Bool) (q : List Bool), s.env.tdo = x :: q → r.1 = x ∧ r.2.env = { s.env with tdo := q }) ∧
    OnlyClocked s r.2 ∧ tapStep tms s = (clock tms s.pins.tdi s).2

/-- `Goto(TEST_LOGIC_RESET)` issues exactly five clocks with TMS 1 and the latch on TDI, from every state,
and ends in TEST_LOGIC_RESET (R148). -/
def Obligations.GotoResetIsFiveOnes : Prop :=
  ∀ s : State, OnlyClocked s (gotoTap .testLogicReset s) ∧
    (gotoTap .testLogicReset s).tap = .testLogicReset ∧
    ∃ tdos : List Bool, tdos.length = 5 ∧
      (gotoTap .testLogicReset s).trace = s.trace ++ tdos.map (Event.clk true s.pins.tdi)

/-- `Goto` of any other target walks the unique shortest TMS walk there, at most 8 clocks, with the latch on
TDI (R145, R149, R150). -/
def Obligations.GotoIsTheShortestWalk : Prop :=
  ∀ (s : State) (target : TapState), target ≠ .testLogicReset →
    OnlyClocked s (gotoTap target s) ∧ (gotoTap target s).tap = target ∧
    ∃ tms tdos : List Bool, tdos.length = tms.length ∧ tms.length ≤ 8 ∧
      (gotoTap target s).trace =
        s.trace ++ List.zipWith (fun m d => Event.clk m s.pins.tdi d) tms tdos ∧
      tmsWalk s.tap tms = target ∧
      ∀ other, tmsWalk s.tap other = target →
        tms.length ≤ other.length ∧ (other.length = tms.length → other = tms)

/-- `IdleWait`: nothing for 0; else the drawn number of clocks with TMS 0 and the latch on TDI, and then the
delay (R151). -/
def Obligations.IdleWaitPulsesThenDelays : Prop :=
  ∀ (s : State) (us : Word), idleWait 0#32 s = s ∧
    (us ≠ 0#32 →
      OnlyClocked s (idleWait us s) ∧
      (∀ (k : Nat) (q : List Nat), s.env.pulses = k :: q →
        ∃ tdos : List Bool, tdos.length = k ∧
          (idleWait us s).trace = s.trace ++ tdos.map (Event.clk false s.pins.tdi) ++ [.delay us] ∧
          (idleWait us s).tap = tmsWalk s.tap (List.replicate k false)) ∧
      ∃ tdos : List Bool,
        (idleWait us s).trace = s.trace ++ tdos.map (Event.clk false s.pins.tdi) ++ [.delay us] ∧
        (idleWait us s).tap = tmsWalk s.tap (List.replicate tdos.length false))

/-! ## Shift engine (41_shift_engine.md) -/

/-- The properties the source states of a shift: 16 bits without an end never leave a TMS-0 self-loop; 16
bits with an end leave SHIFT_DR for EXIT1_DR on the 16th clock; and with TDO looped back to TDI any shift
that fits reproduces its input, the padding cleared (R178). -/
def Obligations.ShiftStatedProperties : Prop :=
  (∀ s : State, tapNext s.tap false = s.tap → (shift .tdi .tdocap 16 false s).tap = s.tap) ∧
  (∀ s : State, s.tap = .shiftDr →
    (shift .tdi .tdocap 16 true s).tap = .exit1Dr ∧
    clockCount (shift .tdi .tdocap 16 true s).trace = clockCount s.trace + 16) ∧
  ∀ (s : State) (n : Nat) (mustEnd : Bool) (q : List Bool), n ≤ 1032 →
    s.env.tdo = (List.range n).map (chainBit s .tdi n) ++ q →
    ∀ j p, j < ceil8 n → p < 8 →
      (bufByte (shift .tdi .tdocap n mustEnd s) .tdocap j).getLsbD p =
        (decide (8 * (ceil8 n - 1 - j) + p < n) && (bufByte s .tdi j).getLsbD p)

/-- What a shift writes and what it leaves: the padding bits of the first captured byte are 0, the bytes
above the chain's length and every other buffer stay, and a shift of no bits reads and changes nothing
(R170, R175, R176). -/
def Obligations.ShiftPaddingAndFrame : Prop :=
  ∀ (s : State) (n : Nat) (mustEnd : Bool),
    let t := shift .tdi .tdocap n mustEnd s
    (∀ p, n % 8 ≠ 0 → n % 8 ≤ p → p < 8 → (bufByte t .tdocap 0).getLsbD p = false) ∧
    (∀ j, ceil8 n ≤ j → bufByte t .tdocap j = bufByte s .tdocap j) ∧
    (∀ b j, b ≠ .tdocap → bufByte t b j = bufByte s b j) ∧
    (n = 0 → t = s) ∧ clockCount t.trace = clockCount s.trace + n ∧ t.ctx = s.ctx ∧ t.stage = s.stage ∧
    t.phase = s.phase ∧ t.comment = s.comment ∧ t.env.host = s.env.host

/-! ## Setup records (42_xsvf_decode_setup.md, section 2) -/

/-- XCOMPLETE sets the completion flag and does nothing else (R193). -/
def Obligations.XcompleteSetsTheFlag : Prop :=
  ∀ s : State, exec .xcomplete s = .next { s with ctx := { s.ctx with complete := true } }

/-- XRUNTEST and XREPEAT load their field and do nothing else (R195, R197). -/
def Obligations.RuntestAndRepeatLoad : Prop :=
  ∀ (s : State) (us : Word) (n : Byte),
    exec (.xruntest us) s = .next { s with ctx := { s.ctx with runtest := us } } ∧
    exec (.xrepeat n) s = .next { s with ctx := { s.ctx with retries := n } }

/-- XSDRSIZE writes the size pair up to 1032 bits and raises ChainSizeExceeded above, leaving it (R196,
R198). -/
def Obligations.XsdrsizeChecksThenWrites : Prop :=
  ∀ (s : State) (bits : Word),
    (bits.toNat ≤ 1032 → ∃ t, exec (.xsdrsize bits) s = .next t ∧ t.ctx.drBits.toNat = bits.toNat ∧
      t.ctx.drBytes.val = ceil8 bits.toNat ∧
      t = { s with ctx := { s.ctx with drBits := t.ctx.drBits, drBytes := t.ctx.drBytes } }) ∧
    (1032 < bits.toNat →
      exec (.xsdrsize bits) s = .next { s with ctx := { s.ctx with error := .chainSizeExceeded } })

/-- XENDIR and XENDDR select RUN_TEST_IDLE for 0 and their pause state for 1, and raise InvalidEndState for
every other code, leaving the field (R129, R201, R202). -/
def Obligations.EndStateRecordsSelect : Prop :=
  ∀ (s : State) (code : Byte),
    (code = 0#8 →
      exec (.xendir code) s = .next { s with ctx := { s.ctx with endIr := .runTestIdle } } ∧
      exec (.xenddr code) s = .next { s with ctx := { s.ctx with endDr := .runTestIdle } }) ∧
    (code = 1#8 →
      exec (.xendir code) s = .next { s with ctx := { s.ctx with endIr := .pauseIr } } ∧
      exec (.xenddr code) s = .next { s with ctx := { s.ctx with endDr := .pauseDr } }) ∧
    (2 ≤ code.toNat →
      exec (.xendir code) s = .next { s with ctx := { s.ctx with error := .invalidEndState } } ∧
      exec (.xenddr code) s = .next { s with ctx := { s.ctx with error := .invalidEndState } })

/-- XCOMMENT surfaces its text and XTRST has no effect, whatever its mode (R203, R204). -/
def Obligations.CommentSurfacesAndTrstIgnores : Prop :=
  ∀ (s : State) (text : List Byte) (mode : Byte),
    exec (.xcomment text) s = .next { s with trace := s.trace ++ [.diag text] } ∧
    exec (.xtrst mode) s = .next s

/-- XTDOMASK, XSDRINC and XSETSDRMASKS put their vectors of `ctx.dr_bytes` bytes at the front of their
buffers; every other byte of every buffer and everything else stay (R194, R199, R200). -/
def Obligations.VectorSetupRecordsFill : Prop :=
  ∀ (s : State) (v w : List Byte), v.length = s.ctx.drBytes.val → w.length = s.ctx.drBytes.val →
    (∃ t, exec (.xtdomask v) s = .next t ∧ t = { s with bufs := t.bufs } ∧
      ∀ b j, bufByte t b j =
        if b = .tdomask ∧ j < s.ctx.drBytes.val then v.getD j 0#8 else bufByte s b j) ∧
    (∃ t, exec (.xsdrinc v) s = .next t ∧ t = { s with bufs := t.bufs } ∧
      ∀ b j, bufByte t b j =
        if b = .tdi ∧ j < s.ctx.drBytes.val then v.getD j 0#8 else bufByte s b j) ∧
    (∃ t, exec (.xsetsdrmasks v w) s = .next t ∧ t = { s with bufs := t.bufs } ∧
      ∀ b j, bufByte t b j =
        if b = .addrmask ∧ j < s.ctx.drBytes.val then v.getD j 0#8
        else if b = .datamask ∧ j < s.ctx.drBytes.val then w.getD j 0#8
        else bufByte s b j)

/-- The first vector of a setup or DR record, cut short by the stream, stays in its buffer as far as it was
read, and the record raises IoExhausted and changes nothing else (R79, R314). -/
def Obligations.CutVectorKeepsItsBytes : Prop :=
  ∀ (s : State) (i : Instr) (b : BufName) (v : List Byte), v.length < s.ctx.drBytes.val →
    (i = .xtdomask v ∧ b = .tdomask ∨ i = .xsetsdrmasks v [] ∧ b = .addrmask ∨
      b = .tdi ∧ i ∈ [Instr.xsdrinc v, .xsdr v, .xsdrb v, .xsdrc v, .xsdre v, .xsdrtdo v [], .xsdrtdob v [],
        .xsdrtdoc v [], .xsdrtdoe v []]) →
    ∃ t, exec i s = .next t ∧
      t = { s with bufs := t.bufs, ctx := { s.ctx with error := .ioExhausted } } ∧
      ∀ c j, bufByte t c j = if c = b ∧ j < v.length then v.getD j 0#8 else bufByte s c j

/-- Records cut short later than in their first vector: the first vector is whole in its buffer and the second
stays in its own as far as it was read; an IR record has written its size pair already, and its vector stays
as far as it was read. Each raises IoExhausted, issues no clock and changes nothing else (R79, R240, R241,
R264, R314). -/
def Obligations.CutRecordsKeepWhatWasWritten : Prop :=
  (∀ (s : State) (i : Instr) (b c : BufName) (v w : List Byte),
    v.length = s.ctx.drBytes.val → w.length < s.ctx.drBytes.val →
    (i = .xsetsdrmasks v w ∧ b = .addrmask ∧ c = .datamask ∨
      b = .tdi ∧ c = .tdoexp ∧
        i ∈ [Instr.xsdrtdo v w, .xsdrtdob v w, .xsdrtdoc v w, .xsdrtdoe v w]) →
    ∃ t, exec i s = .next t ∧
      t = { s with bufs := t.bufs, ctx := { s.ctx with error := .ioExhausted } } ∧
      ∀ d j, bufByte t d j =
        if d = b ∧ j < v.length then v.getD j 0#8
        else if d = c ∧ j < w.length then w.getD j 0#8
        else bufByte s d j) ∧
  ∀ (s : State) (i : Instr) (bits : Nat) (v : List Byte),
    ((∃ len : Byte, i = .xsir len v ∧ len.toNat = bits) ∨
      ∃ len : Half, i = .xsir2 len v ∧ len.toNat = bits) →
    bits ≤ 1032 → v.length < ceil8 bits →
    ∃ t, exec i s = .next t ∧ t.ctx.irBits.toNat = bits ∧ t.ctx.irBytes.val = ceil8 bits ∧
      t = { s with
        bufs := t.bufs
        ctx := { s.ctx with irBits := t.ctx.irBits, irBytes := t.ctx.irBytes, error := .ioExhausted } } ∧
      ∀ d j, bufByte t d j = if d = .tdi ∧ j < v.length then v.getD j 0#8 else bufByte s d j

/-! ## Scan records (43_xsvf_scan.md) -/

/-- XSIR and XSIR2 write the size pair and the TDI vector, make the shortest walk to SHIFT_IR, shift the vector
out and capture as many bits, and settle: without a run-test duration they walk to RUN_TEST_IDLE, with one to
the configured state, where they make the drawn number of TMS-0 pulses and then wait. The walks and the pulses
have the latch on TDI, and everything else stays (R240, R241, R242, R243). -/
def Obligations.IrRecordsScanAndSettle : Prop :=
  ∀ (s : State) (i : Instr) (bits : Nat) (tdi : List Byte),
    ((∃ len : Byte, i = .xsir len tdi ∧ len.toNat = bits) ∨
      ∃ len : Half, i = .xsir2 len tdi ∧ len.toNat = bits) →
    bits ≤ 1032 → tdi.length = ceil8 bits → EndStatesLegal s →
    let final := if s.ctx.runtest = 0#32 then .runTestIdle else s.ctx.endIr
    let settle := (if bits = 0 then [true] else []) ++ if final = .runTestIdle then [true, false] else [false]
    let latched : Bool → List Bool → List Bool → List Event :=
      fun latch => List.zipWith fun m d => Event.clk m latch d
    ∃ t, exec i s = .next t ∧
      t.ctx.irBits.toNat = bits ∧ t.ctx.irBytes.val = ceil8 bits ∧
      t.ctx = { s.ctx with irBits := t.ctx.irBits, irBytes := t.ctx.irBytes } ∧
      t.tap = final ∧
      (∀ j, bufByte t .tdi j = if j < ceil8 bits then tdi.getD j 0#8 else bufByte s .tdi j) ∧
      (∃ tms walk tdos down pulses : List Bool,
        walk.length = tms.length ∧ tdos.length = bits ∧ down.length = settle.length ∧
        t.trace = s.trace ++ latched s.pins.tdi tms walk ++ shiftEvents t .tdi bits true 0 tdos ++
          latched t.pins.tdi settle down ++ pulses.map (Event.clk false t.pins.tdi) ++
          (if s.ctx.runtest = 0#32 then [] else [.delay s.ctx.runtest]) ∧
        tmsWalk s.tap tms = .shiftIr ∧
        (∀ other, tmsWalk s.tap other = .shiftIr → tms.length ≤ other.length) ∧
        (s.ctx.runtest = 0#32 → pulses = []) ∧
        (∀ k q, s.ctx.runtest ≠ 0#32 → s.env.pulses = k :: q → pulses.length = k) ∧
        ∀ j p, j < ceil8 bits → p < 8 →
          (bufByte t .tdocap j).getLsbD p = tdos.getD (8 * (ceil8 bits - 1 - j) + p) false) ∧
      t.pins.tdi = (if bits = 0 then s.pins.tdi else chainBit t .tdi bits (bits - 1)) ∧
      (∀ j, ceil8 bits ≤ j → bufByte t .tdocap j = bufByte s .tdocap j) ∧
      (∀ b j, b ≠ .tdi → b ≠ .tdocap → bufByte t b j = bufByte s b j) ∧
      t.stage = s.stage ∧ t.phase = s.phase ∧ t.comment = s.comment ∧ t.pins.mode = s.pins.mode ∧
      t.env.host = s.env.host

/-- A DR record with its vectors whole succeeds on the first attempt that matches (on the very first if it
does not check), and settles if it must end (R250, R251, R252, R254). -/
def Obligations.DrRecordsSucceed : Prop :=
  ∀ (s : State) (i : Instr) (f : DrFlags) (tdi : List Byte) (exp : Option (List Byte)) (a : Nat),
    drOperands i = some (f, tdi, exp) → tdi.length = s.ctx.drBytes.val →
    (∀ e, exp = some e → e.length = s.ctx.drBytes.val) →
    a ≤ s.ctx.retries.toNat →
    (f.mustCheck = false → a = 0) →
    (f.mustCheck = true →
      captureMatches f.useMask (attemptState f.mustEnd a (drStart f tdi exp s)) = true ∧
      ∀ k, k < a → captureMatches f.useMask (attemptState f.mustEnd k (drStart f tdi exp s)) = false) →
    exec i s = .next (drDone f (attemptState f.mustEnd a (drStart f tdi exp s)))

/-- A checked DR record none of whose `repeat + 1` attempts matches raises VerificationFailed after the last
attempt, with no bounce and no settle after it (R252, R255). -/
def Obligations.DrRecordsFailWhenBudgetIsUsedUp : Prop :=
  ∀ (s : State) (i : Instr) (f : DrFlags) (tdi : List Byte) (exp : Option (List Byte)),
    drOperands i = some (f, tdi, exp) → tdi.length = s.ctx.drBytes.val →
    (∀ e, exp = some e → e.length = s.ctx.drBytes.val) →
    f.mustCheck = true →
    (∀ k, k ≤ s.ctx.retries.toNat →
      captureMatches f.useMask (attemptState f.mustEnd k (drStart f tdi exp s)) = false) →
    exec i s =
      .next (raise .verificationFailed (attemptState f.mustEnd s.ctx.retries.toNat (drStart f tdi exp s)))

/-- A record with an expected vector succeeds on its first attempt where, once it is in the state it begins
from, TDO answers with the expected bits, the last byte's lowest bit first, and the padding bits of the
expected vector are 0 (R171, R251, R256). -/
def Obligations.ExpectedTdoCompletes : Prop :=
  ∀ (s : State) (i : Instr) (f : DrFlags) (tdi exp : List Byte) (q : List Bool),
    SizesAgree s → drOperands i = some (f, tdi, some exp) →
    tdi.length = s.ctx.drBytes.val → exp.length = s.ctx.drBytes.val →
    (drStart f tdi (some exp) s).env.tdo = (List.range s.ctx.drBits.toNat).map
      (fun k => (exp.getD (s.ctx.drBytes.val - 1 - k / 8) 0#8).getLsbD (k % 8)) ++ q →
    (∀ p, s.ctx.drBits.toNat % 8 ≠ 0 → s.ctx.drBits.toNat % 8 ≤ p → p < 8 →
      (exp.getD 0 0#8).getLsbD p = false) →
    ∃ t, exec i s = .next t ∧ t.ctx = s.ctx ∧
      t = drDone f (attemptState f.mustEnd 0 (drStart f tdi (some exp) s)) ∧
      ∀ j, j < s.ctx.drBytes.val → bufByte t .tdocap j = exp.getD j 0#8

/-- Whatever becomes of a DR record with whole vectors, its TDI vector and its expected vector are in their
buffers, only the captured bytes of `TDOCAP` differ besides, and of the context only the error may (R43,
R251). -/
def Obligations.DrRecordsFrame : Prop :=
  ∀ (s : State) (i : Instr) (f : DrFlags) (tdi : List Byte) (exp : Option (List Byte)),
    SizesAgree s → drOperands i = some (f, tdi, exp) → tdi.length = s.ctx.drBytes.val →
    (∀ e, exp = some e → e.length = s.ctx.drBytes.val) →
    ∃ t, exec i s = .next t ∧
      (t.ctx = s.ctx ∨ f.mustCheck = true ∧ t.ctx = { s.ctx with error := .verificationFailed }) ∧
      (∀ j, bufByte t .tdi j = if j < s.ctx.drBytes.val then tdi.getD j 0#8 else bufByte s .tdi j) ∧
      (∀ j, bufByte t .tdoexp j = if j < s.ctx.drBytes.val
        then (match exp with | some e => e.getD j 0#8 | none => bufByte s .tdoexp j)
        else bufByte s .tdoexp j) ∧
      (∀ j, s.ctx.drBytes.val ≤ j → bufByte t .tdocap j = bufByte s .tdocap j) ∧
      (∀ b j, b = .tdomask ∨ b = .addrmask ∨ b = .datamask → bufByte t b j = bufByte s b j) ∧
      t.stage = s.stage ∧ t.phase = s.phase ∧ t.comment = s.comment ∧ t.pins.mode = s.pins.mode ∧
      t.env.host = s.env.host

/-- The records without a check complete, whatever TDO says: XSDRB ends in SHIFT_DR; XSDRC makes exactly one
clock for each bit, all with TMS 0, and no walk; XSDRE settles in the configured state, or in RUN_TEST_IDLE
when a run-test duration is set (R254, R261, R262, R263). -/
def Obligations.UncheckedScansComplete : Prop :=
  ∀ (s : State) (tdi : List Byte), tdi.length = s.ctx.drBytes.val →
    (∃ t, exec (.xsdrb tdi) s = .next t ∧ t.ctx = s.ctx ∧ t.tap = .shiftDr) ∧
    (∃ t, exec (.xsdrc tdi) s = .next t ∧ t.ctx = s.ctx ∧
      t.tap = tmsWalk s.tap (List.replicate s.ctx.drBits.toNat false) ∧
      ∃ tdos : List Bool, tdos.length = s.ctx.drBits.toNat ∧
        t.trace = s.trace ++ shiftEvents t .tdi s.ctx.drBits.toNat false 0 tdos) ∧
    ∃ t, exec (.xsdre tdi) s = .next t ∧ t.ctx = s.ctx ∧
      t.tap = if s.ctx.runtest = 0#32 then s.ctx.endDr else .runTestIdle

/-- An all-zero compare mask accepts every TDO: XSDR and XSDRTDO then succeed on their first attempt and
end in the settle state (R254, R256; the source's property 5). -/
def Obligations.ZeroMaskAcceptsEverything : Prop :=
  ∀ (s : State) (tdi exp : List Byte), tdi.length = s.ctx.drBytes.val → exp.length = s.ctx.drBytes.val →
    (∀ j, j < s.ctx.drBytes.val → bufByte s .tdomask j = 0#8) →
    ∀ i, i = .xsdr tdi ∨ i = .xsdrtdo tdi exp →
      ∃ t, exec i s = .next t ∧ t.ctx = s.ctx ∧
        t.tap = if s.ctx.runtest = 0#32 then s.ctx.endDr else .runTestIdle

/-- The compare is bytewise over the first `ctx.dr_bytes` bytes, each masked first where the mask is used:
a 1 in the mask means compare (R256, R257). -/
def Obligations.CompareIsMaskedBytewise : Prop :=
  ∀ (s : State) (useMask : Bool),
    captureMatches useMask s = true ↔
      ∀ j, j < s.ctx.drBytes.val → ∀ p, p < 8 →
        (useMask = true → (bufByte s .tdomask j).getLsbD p = true) →
        (bufByte s .tdocap j).getLsbD p = (bufByte s .tdoexp j).getLsbD p

/-- The clocks of `a + 1` attempts that begin in SHIFT_DR, of at least one bit each and with no run-test
duration: one for each bit of each attempt, and 9 for each bounce after an attempt with the exit or 10
after one without (R253, R268). -/
def Obligations.AttemptClockCount : Prop :=
  ∀ (s : State) (mustEnd : Bool) (a : Nat), s.tap = .shiftDr → s.ctx.drBits.toNat ≠ 0 →
    s.ctx.runtest = 0#32 →
    clockCount (attemptState mustEnd a s).trace =
      clockCount s.trace + (a + 1) * s.ctx.drBits.toNat + a * (if mustEnd then 9 else 10) ∧
    (attemptState mustEnd a s).tap = if mustEnd then .exit1Dr else .shiftDr

/-- The bounce between two attempts, from EXIT1_DR or SHIFT_DR: the TMS levels of its walks through PAUSE_DR
and SHIFT_DR to RUN_TEST_IDLE, the wait for the run-test duration if one is set, and the walk back to
SHIFT_DR, with the latch on TDI throughout and nothing else changed (R253). -/
def Obligations.RetryBounceWalksAndWaits : Prop :=
  ∀ s : State, s.tap = .exit1Dr ∨ s.tap = .shiftDr →
    let latched : List Bool → List Bool → List Event :=
      List.zipWith fun m d => Event.clk m s.pins.tdi d
    let out := (if s.tap = .exit1Dr then [false] else [true, false]) ++ [true, false, true, true, false]
    OnlyClocked s (retryBounce s) ∧ (retryBounce s).tap = .shiftDr ∧
    ∃ a w b : List Bool, a.length = out.length ∧ b.length = 3 ∧ (s.ctx.runtest = 0#32 → w = []) ∧
      (retryBounce s).trace = s.trace ++ latched out a ++ w.map (Event.clk false s.pins.tdi) ++
        (if s.ctx.runtest = 0#32 then [] else [.delay s.ctx.runtest]) ++ latched [true, false, false] b

/-- The two settle rules are mirror images: an IR scan uses its configured end state only with a run-test
duration set, a DR scan only without one (R242, R254, R376). -/
def Obligations.SettleRulesAreMirrored : Prop :=
  ∀ s : State,
    (s.ctx.runtest = 0#32 →
      irSettle s = gotoTap .runTestIdle s ∧ drSettle s = gotoTap s.ctx.endDr s) ∧
    (s.ctx.runtest ≠ 0#32 →
      irSettle s = idleWait s.ctx.runtest (gotoTap s.ctx.endIr s) ∧
      drSettle s = idleWait s.ctx.runtest (gotoTap .runTestIdle s))

/-! ## State and wait records (44_xsvf_state_wait.md) -/

/-- XSTATE records the named state and goes there (R290). -/
def Obligations.XstateGoesThere : Prop :=
  ∀ (s : State) (b : Byte), b.toNat ≤ 15 →
    ∃ t, exec (.xstate b) s = .next t ∧ tapCode t.tap = b.toNat ∧
      OnlyClocked { s with ctx := { s.ctx with xstate := t.tap } } t ∧
      t = gotoTap t.tap { s with ctx := { s.ctx with xstate := t.tap } }

/-- XWAIT and XWAITSTATE write the four wait parameters, walk to the wait state, make the fixed pulses and
the timed wait there, and end in the end state; nothing but the TAP, the pins and the trace changes besides
(R291, R292, R293). -/
def Obligations.WaitRecordsWalkAndWait : Prop :=
  ∀ (s : State) (start stop : Byte) (clocks us : Word), start.toNat ≤ 15 → stop.toNat ≤ 15 →
    ∀ i c, (i = .xwait start stop us ∧ c = 0#32) ∨ (i = .xwaitstate start stop clocks us ∧ c = clocks) →
    ∃ (t : State) (ts te : TapState), exec i s = .next t ∧
      tapCode ts = start.toNat ∧ tapCode te = stop.toNat ∧ t.tap = te ∧
      t.ctx = { s.ctx with waitStart := ts, waitEnd := te, waitClocks := c, waitUs := us } ∧
      t.bufs = s.bufs ∧ t.stage = s.stage ∧ t.phase = s.phase ∧ t.comment = s.comment ∧ t.pins.mode = s.pins.mode ∧
      t.pins.tdi = s.pins.tdi ∧ t.env.host = s.env.host ∧
      ∃ (walk there : List Event) (pulses more : List Bool), pulses.length = c.toNat ∧
        (us = 0#32 → more = []) ∧ walk.foldl tapAfter s.tap = ts ∧
        clockCount walk ≤ 8 ∧ clockCount there ≤ 8 ∧
        t.trace = s.trace ++ walk ++ pulses.map (Event.clk false s.pins.tdi) ++
          more.map (Event.clk false s.pins.tdi) ++ (if us = 0#32 then [] else [.delay us]) ++ there

/-- The fixed pulses are exact: a wait from a TMS-0 self-loop state to itself without a duration makes
exactly its clock count of pulses (R292). -/
def Obligations.FixedPulsesAreExact : Prop :=
  ∀ (s : State) (b : Byte) (clocks : Word), tapCode s.tap = b.toNat → tapNext s.tap false = s.tap →
    ∃ t, exec (.xwaitstate b b clocks 0#32) s = .next t ∧ t.tap = s.tap ∧
      ∃ tdos : List Bool, tdos.length = clocks.toNat ∧
        t.trace = s.trace ++ tdos.map (Event.clk false s.pins.tdi)

/-- A record stops with the spec's own fault exactly when a state byte of it is above 15, and no record is
refused (R289, R316). -/
def Obligations.OnlyStateBytesFault : Prop :=
  ∀ (i : Instr) (s : State),
    ((∃ r, exec i s = .fault r) ↔ badStateByte i = true) ∧ ∀ r, exec i s ≠ .refused r

/-! ## The whole machine -/

/-- The reset state satisfies the invariant. -/
def Obligations.ResetSatisfiesInvariant : Prop := State.reset.Inv

/-- Every step keeps the invariant: size pairs, legal end states, ordered cursors, canonical byte stores, flags,
pins and trace that agree with the phase, and a half-read comment only in a running session (R33, R37, R38,
R46, R48, R356, R359; the last, log entry 19). -/
def Obligations.StepKeepsInvariant : Prop :=
  ∀ s t : State, s.Inv → step s = .next t → t.Inv

/-- Only clocks move the TAP, and only clocks drive TDI: after any step of a running session the TAP state
and the latch are what the clocks in the trace make of those before. At a session's start the TAP is set to
TEST_LOGIC_RESET without a clock, and no other step of the Session Driver clocks at all (R32, R360). -/
def Obligations.OnlyClocksMoveTheTap : Prop :=
  ∀ s t : State, step s = .next t →
    ∃ es, t.trace = s.trace ++ es ∧
      (s.phase = .running →
        t.tap = es.foldl tapAfter s.tap ∧ t.pins.tdi = es.foldl latchAfter s.pins.tdi) ∧
      (s.phase ≠ .running → clockCount es = 0) ∧
      (s.phase = .idle → t.tap = .testLogicReset) ∧
      (s.phase ≠ .running → s.phase ≠ .idle → t.tap = s.tap)

/-- Who writes which context field: every record leaves every field that R33 does not let it write (the
fields of the stream reader and the instruction counter are written before a record executes, log
entry 8). -/
def Obligations.ContextWriters : Prop :=
  ∀ (i : Instr) (s t : State), exec i s = .next t →
    (t.ctx.irBits ≠ s.ctx.irBits ∨ t.ctx.irBytes ≠ s.ctx.irBytes →
      ∃ tdi, (∃ len, i = .xsir len tdi) ∨ ∃ len, i = .xsir2 len tdi) ∧
    (t.ctx.drBits ≠ s.ctx.drBits ∨ t.ctx.drBytes ≠ s.ctx.drBytes → ∃ bits, i = .xsdrsize bits) ∧
    (t.ctx.retries ≠ s.ctx.retries → ∃ n, i = .xrepeat n) ∧
    (t.ctx.xstate ≠ s.ctx.xstate → ∃ b, i = .xstate b) ∧
    (t.ctx.endIr ≠ s.ctx.endIr → ∃ c, i = .xendir c) ∧
    (t.ctx.endDr ≠ s.ctx.endDr → ∃ c, i = .xenddr c) ∧
    (t.ctx.runtest ≠ s.ctx.runtest → ∃ us, i = .xruntest us) ∧
    (t.ctx.waitStart ≠ s.ctx.waitStart ∨ t.ctx.waitEnd ≠ s.ctx.waitEnd ∨
        t.ctx.waitClocks ≠ s.ctx.waitClocks ∨ t.ctx.waitUs ≠ s.ctx.waitUs →
      ∃ a b us, i = .xwait a b us ∨ ∃ clocks, i = .xwaitstate a b clocks us) ∧
    (t.ctx.complete ≠ s.ctx.complete → i = .xcomplete) ∧
    (t.ctx.instrCount = s.ctx.instrCount ∧ t.ctx.checksum = s.ctx.checksum ∧
      t.ctx.consumed = s.ctx.consumed ∧ t.ctx.rd = s.ctx.rd ∧ t.ctx.wr = s.ctx.wr ∧ t.stage = s.stage ∧
      t.env.host = s.env.host ∧ t.phase = s.phase ∧ t.comment = s.comment ∧ t.pins.mode = s.pins.mode)

/-- Who raises which error: a record changes `ctx.error` only to a kind that R310 gives it. -/
def Obligations.ErrorsByRecord : Prop :=
  ∀ (i : Instr) (s t : State), exec i s = .next t → t.ctx.error ≠ s.ctx.error →
    mayRaise i t.ctx.error = true

/-- Who writes which scan buffer: a record changes only bytes of the buffers that R43 lets it write, and only
below its vector's length. -/
def Obligations.BufferWriters : Prop :=
  ∀ (i : Instr) (s t : State), SizesAgree s → exec i s = .next t →
    ∀ b j, bufByte t b j ≠ bufByte s b j → writesBuffer i b = true ∧ j < writtenBytes i s

/-- Each step of a running session counts exactly one instruction if it reads an opcode, and none if that read
fails or the step reads on in a comment (R191, R203, R325). -/
def Obligations.OneCountPerOpcode : Prop :=
  ∀ s t : State, s.phase = .running → step s = .next t →
    t.ctx.instrCount = s.ctx.instrCount +
      (if s.comment = none ∧ (nextByte s).1.isSome then 1#32 else 0#32)
end

