-- ==== Sys2Proof/Laws/State.lean ====
section
/-! SUPPORT. One lemma for each field and each update of the state: what the update leaves in the field. -/

namespace Sys2Proof.Machine

variable (s : State)

/-! ### emit -/

@[simp] theorem emit_ctx (ev : Event) : (emit ev s).ctx = s.ctx := rfl
@[simp] theorem emit_bufs (ev : Event) : (emit ev s).bufs = s.bufs := rfl
@[simp] theorem emit_stage (ev : Event) : (emit ev s).stage = s.stage := rfl
@[simp] theorem emit_tap (ev : Event) : (emit ev s).tap = s.tap := rfl
@[simp] theorem emit_pins (ev : Event) : (emit ev s).pins = s.pins := rfl
@[simp] theorem emit_phase (ev : Event) : (emit ev s).phase = s.phase := rfl
@[simp] theorem emit_comment (ev : Event) : (emit ev s).comment = s.comment := rfl
@[simp] theorem emit_trace (ev : Event) : (emit ev s).trace = s.trace ++ [ev] := rfl
@[simp] theorem emit_env (ev : Event) : (emit ev s).env = s.env := rfl

/-! ### raise -/

@[simp] theorem raise_bufs (e : ErrorKind) : (raise e s).bufs = s.bufs := rfl
@[simp] theorem raise_stage (e : ErrorKind) : (raise e s).stage = s.stage := rfl
@[simp] theorem raise_tap (e : ErrorKind) : (raise e s).tap = s.tap := rfl
@[simp] theorem raise_pins (e : ErrorKind) : (raise e s).pins = s.pins := rfl
@[simp] theorem raise_phase (e : ErrorKind) : (raise e s).phase = s.phase := rfl
@[simp] theorem raise_comment (e : ErrorKind) : (raise e s).comment = s.comment := rfl
@[simp] theorem raise_trace (e : ErrorKind) : (raise e s).trace = s.trace := rfl
@[simp] theorem raise_env (e : ErrorKind) : (raise e s).env = s.env := rfl

@[simp] theorem raise_ctx_irBits (e : ErrorKind) : (raise e s).ctx.irBits = s.ctx.irBits := rfl
@[simp] theorem raise_ctx_irBytes (e : ErrorKind) : (raise e s).ctx.irBytes = s.ctx.irBytes := rfl
@[simp] theorem raise_ctx_drBits (e : ErrorKind) : (raise e s).ctx.drBits = s.ctx.drBits := rfl
@[simp] theorem raise_ctx_drBytes (e : ErrorKind) : (raise e s).ctx.drBytes = s.ctx.drBytes := rfl
@[simp] theorem raise_ctx_retries (e : ErrorKind) : (raise e s).ctx.retries = s.ctx.retries := rfl
@[simp] theorem raise_ctx_xstate (e : ErrorKind) : (raise e s).ctx.xstate = s.ctx.xstate := rfl
@[simp] theorem raise_ctx_endIr (e : ErrorKind) : (raise e s).ctx.endIr = s.ctx.endIr := rfl
@[simp] theorem raise_ctx_endDr (e : ErrorKind) : (raise e s).ctx.endDr = s.ctx.endDr := rfl
@[simp] theorem raise_ctx_runtest (e : ErrorKind) : (raise e s).ctx.runtest = s.ctx.runtest := rfl
@[simp] theorem raise_ctx_waitStart (e : ErrorKind) : (raise e s).ctx.waitStart = s.ctx.waitStart := rfl
@[simp] theorem raise_ctx_waitEnd (e : ErrorKind) : (raise e s).ctx.waitEnd = s.ctx.waitEnd := rfl
@[simp] theorem raise_ctx_waitClocks (e : ErrorKind) : (raise e s).ctx.waitClocks = s.ctx.waitClocks := rfl
@[simp] theorem raise_ctx_waitUs (e : ErrorKind) : (raise e s).ctx.waitUs = s.ctx.waitUs := rfl
@[simp] theorem raise_ctx_instrCount (e : ErrorKind) : (raise e s).ctx.instrCount = s.ctx.instrCount := rfl
@[simp] theorem raise_ctx_error (e : ErrorKind) : (raise e s).ctx.error = e := rfl
@[simp] theorem raise_ctx_complete (e : ErrorKind) : (raise e s).ctx.complete = s.ctx.complete := rfl
@[simp] theorem raise_ctx_checksum (e : ErrorKind) : (raise e s).ctx.checksum = s.ctx.checksum := rfl
@[simp] theorem raise_ctx_consumed (e : ErrorKind) : (raise e s).ctx.consumed = s.ctx.consumed := rfl
@[simp] theorem raise_ctx_rd (e : ErrorKind) : (raise e s).ctx.rd = s.ctx.rd := rfl
@[simp] theorem raise_ctx_wr (e : ErrorKind) : (raise e s).ctx.wr = s.ctx.wr := rfl

/-! ### setBuf -/

@[simp] theorem setBuf_ctx (n : BufName) (m : Memory) : (setBuf n m s).ctx = s.ctx := rfl
@[simp] theorem setBuf_bufs (n : BufName) (m : Memory) : (setBuf n m s).bufs = s.bufs.set n m := rfl
@[simp] theorem setBuf_stage (n : BufName) (m : Memory) : (setBuf n m s).stage = s.stage := rfl
@[simp] theorem setBuf_tap (n : BufName) (m : Memory) : (setBuf n m s).tap = s.tap := rfl
@[simp] theorem setBuf_pins (n : BufName) (m : Memory) : (setBuf n m s).pins = s.pins := rfl
@[simp] theorem setBuf_phase (n : BufName) (m : Memory) : (setBuf n m s).phase = s.phase := rfl
@[simp] theorem setBuf_comment (n : BufName) (m : Memory) : (setBuf n m s).comment = s.comment := rfl
@[simp] theorem setBuf_trace (n : BufName) (m : Memory) : (setBuf n m s).trace = s.trace := rfl
@[simp] theorem setBuf_env (n : BufName) (m : Memory) : (setBuf n m s).env = s.env := rfl

/-! ### setComplete -/

@[simp] theorem setComplete_bufs : (setComplete s).bufs = s.bufs := rfl
@[simp] theorem setComplete_stage : (setComplete s).stage = s.stage := rfl
@[simp] theorem setComplete_tap : (setComplete s).tap = s.tap := rfl
@[simp] theorem setComplete_pins : (setComplete s).pins = s.pins := rfl
@[simp] theorem setComplete_phase : (setComplete s).phase = s.phase := rfl
@[simp] theorem setComplete_comment : (setComplete s).comment = s.comment := rfl
@[simp] theorem setComplete_trace : (setComplete s).trace = s.trace := rfl
@[simp] theorem setComplete_env : (setComplete s).env = s.env := rfl

@[simp] theorem setComplete_ctx_irBits : (setComplete s).ctx.irBits = s.ctx.irBits := rfl
@[simp] theorem setComplete_ctx_irBytes : (setComplete s).ctx.irBytes = s.ctx.irBytes := rfl
@[simp] theorem setComplete_ctx_drBits : (setComplete s).ctx.drBits = s.ctx.drBits := rfl
@[simp] theorem setComplete_ctx_drBytes : (setComplete s).ctx.drBytes = s.ctx.drBytes := rfl
@[simp] theorem setComplete_ctx_retries : (setComplete s).ctx.retries = s.ctx.retries := rfl
@[simp] theorem setComplete_ctx_xstate : (setComplete s).ctx.xstate = s.ctx.xstate := rfl
@[simp] theorem setComplete_ctx_endIr : (setComplete s).ctx.endIr = s.ctx.endIr := rfl
@[simp] theorem setComplete_ctx_endDr : (setComplete s).ctx.endDr = s.ctx.endDr := rfl
@[simp] theorem setComplete_ctx_runtest : (setComplete s).ctx.runtest = s.ctx.runtest := rfl
@[simp] theorem setComplete_ctx_waitStart : (setComplete s).ctx.waitStart = s.ctx.waitStart := rfl
@[simp] theorem setComplete_ctx_waitEnd : (setComplete s).ctx.waitEnd = s.ctx.waitEnd := rfl
@[simp] theorem setComplete_ctx_waitClocks : (setComplete s).ctx.waitClocks = s.ctx.waitClocks := rfl
@[simp] theorem setComplete_ctx_waitUs : (setComplete s).ctx.waitUs = s.ctx.waitUs := rfl
@[simp] theorem setComplete_ctx_instrCount : (setComplete s).ctx.instrCount = s.ctx.instrCount := rfl
@[simp] theorem setComplete_ctx_error : (setComplete s).ctx.error = s.ctx.error := rfl
@[simp] theorem setComplete_ctx_complete : (setComplete s).ctx.complete = true := rfl
@[simp] theorem setComplete_ctx_checksum : (setComplete s).ctx.checksum = s.ctx.checksum := rfl
@[simp] theorem setComplete_ctx_consumed : (setComplete s).ctx.consumed = s.ctx.consumed := rfl
@[simp] theorem setComplete_ctx_rd : (setComplete s).ctx.rd = s.ctx.rd := rfl
@[simp] theorem setComplete_ctx_wr : (setComplete s).ctx.wr = s.ctx.wr := rfl

/-! ### countInstr -/

@[simp] theorem countInstr_bufs : (countInstr s).bufs = s.bufs := rfl
@[simp] theorem countInstr_stage : (countInstr s).stage = s.stage := rfl
@[simp] theorem countInstr_tap : (countInstr s).tap = s.tap := rfl
@[simp] theorem countInstr_pins : (countInstr s).pins = s.pins := rfl
@[simp] theorem countInstr_phase : (countInstr s).phase = s.phase := rfl
@[simp] theorem countInstr_comment : (countInstr s).comment = s.comment := rfl
@[simp] theorem countInstr_trace : (countInstr s).trace = s.trace := rfl
@[simp] theorem countInstr_env : (countInstr s).env = s.env := rfl

@[simp] theorem countInstr_ctx_irBits : (countInstr s).ctx.irBits = s.ctx.irBits := rfl
@[simp] theorem countInstr_ctx_irBytes : (countInstr s).ctx.irBytes = s.ctx.irBytes := rfl
@[simp] theorem countInstr_ctx_drBits : (countInstr s).ctx.drBits = s.ctx.drBits := rfl
@[simp] theorem countInstr_ctx_drBytes : (countInstr s).ctx.drBytes = s.ctx.drBytes := rfl
@[simp] theorem countInstr_ctx_retries : (countInstr s).ctx.retries = s.ctx.retries := rfl
@[simp] theorem countInstr_ctx_xstate : (countInstr s).ctx.xstate = s.ctx.xstate := rfl
@[simp] theorem countInstr_ctx_endIr : (countInstr s).ctx.endIr = s.ctx.endIr := rfl
@[simp] theorem countInstr_ctx_endDr : (countInstr s).ctx.endDr = s.ctx.endDr := rfl
@[simp] theorem countInstr_ctx_runtest : (countInstr s).ctx.runtest = s.ctx.runtest := rfl
@[simp] theorem countInstr_ctx_waitStart : (countInstr s).ctx.waitStart = s.ctx.waitStart := rfl
@[simp] theorem countInstr_ctx_waitEnd : (countInstr s).ctx.waitEnd = s.ctx.waitEnd := rfl
@[simp] theorem countInstr_ctx_waitClocks : (countInstr s).ctx.waitClocks = s.ctx.waitClocks := rfl
@[simp] theorem countInstr_ctx_waitUs : (countInstr s).ctx.waitUs = s.ctx.waitUs := rfl
@[simp] theorem countInstr_ctx_instrCount : (countInstr s).ctx.instrCount = s.ctx.instrCount + 1#32 := rfl
@[simp] theorem countInstr_ctx_error : (countInstr s).ctx.error = s.ctx.error := rfl
@[simp] theorem countInstr_ctx_complete : (countInstr s).ctx.complete = s.ctx.complete := rfl
@[simp] theorem countInstr_ctx_checksum : (countInstr s).ctx.checksum = s.ctx.checksum := rfl
@[simp] theorem countInstr_ctx_consumed : (countInstr s).ctx.consumed = s.ctx.consumed := rfl
@[simp] theorem countInstr_ctx_rd : (countInstr s).ctx.rd = s.ctx.rd := rfl
@[simp] theorem countInstr_ctx_wr : (countInstr s).ctx.wr = s.ctx.wr := rfl

/-! ### setWait -/

@[simp] theorem setWait_bufs (ts te : TapState) (clocks us : Word) : (setWait ts te clocks us s).bufs = s.bufs := rfl
@[simp] theorem setWait_stage (ts te : TapState) (clocks us : Word) : (setWait ts te clocks us s).stage = s.stage := rfl
@[simp] theorem setWait_tap (ts te : TapState) (clocks us : Word) : (setWait ts te clocks us s).tap = s.tap := rfl
@[simp] theorem setWait_pins (ts te : TapState) (clocks us : Word) : (setWait ts te clocks us s).pins = s.pins := rfl
@[simp] theorem setWait_phase (ts te : TapState) (clocks us : Word) : (setWait ts te clocks us s).phase = s.phase := rfl
@[simp] theorem setWait_comment (ts te : TapState) (clocks us : Word) : (setWait ts te clocks us s).comment = s.comment := rfl
@[simp] theorem setWait_trace (ts te : TapState) (clocks us : Word) : (setWait ts te clocks us s).trace = s.trace := rfl
@[simp] theorem setWait_env (ts te : TapState) (clocks us : Word) : (setWait ts te clocks us s).env = s.env := rfl

@[simp] theorem setWait_ctx_irBits (ts te : TapState) (clocks us : Word) : (setWait ts te clocks us s).ctx.irBits = s.ctx.irBits := rfl
@[simp] theorem setWait_ctx_irBytes (ts te : TapState) (clocks us : Word) : (setWait ts te clocks us s).ctx.irBytes = s.ctx.irBytes := rfl
@[simp] theorem setWait_ctx_drBits (ts te : TapState) (clocks us : Word) : (setWait ts te clocks us s).ctx.drBits = s.ctx.drBits := rfl
@[simp] theorem setWait_ctx_drBytes (ts te : TapState) (clocks us : Word) : (setWait ts te clocks us s).ctx.drBytes = s.ctx.drBytes := rfl
@[simp] theorem setWait_ctx_retries (ts te : TapState) (clocks us : Word) : (setWait ts te clocks us s).ctx.retries = s.ctx.retries := rfl
@[simp] theorem setWait_ctx_xstate (ts te : TapState) (clocks us : Word) : (setWait ts te clocks us s).ctx.xstate = s.ctx.xstate := rfl
@[simp] theorem setWait_ctx_endIr (ts te : TapState) (clocks us : Word) : (setWait ts te clocks us s).ctx.endIr = s.ctx.endIr := rfl
@[simp] theorem setWait_ctx_endDr (ts te : TapState) (clocks us : Word) : (setWait ts te clocks us s).ctx.endDr = s.ctx.endDr := rfl
@[simp] theorem setWait_ctx_runtest (ts te : TapState) (clocks us : Word) : (setWait ts te clocks us s).ctx.runtest = s.ctx.runtest := rfl
@[simp] theorem setWait_ctx_waitStart (ts te : TapState) (clocks us : Word) : (setWait ts te clocks us s).ctx.waitStart = ts := rfl
@[simp] theorem setWait_ctx_waitEnd (ts te : TapState) (clocks us : Word) : (setWait ts te clocks us s).ctx.waitEnd = te := rfl
@[simp] theorem setWait_ctx_waitClocks (ts te : TapState) (clocks us : Word) : (setWait ts te clocks us s).ctx.waitClocks = clocks := rfl
@[simp] theorem setWait_ctx_waitUs (ts te : TapState) (clocks us : Word) : (setWait ts te clocks us s).ctx.waitUs = us := rfl
@[simp] theorem setWait_ctx_instrCount (ts te : TapState) (clocks us : Word) : (setWait ts te clocks us s).ctx.instrCount = s.ctx.instrCount := rfl
@[simp] theorem setWait_ctx_error (ts te : TapState) (clocks us : Word) : (setWait ts te clocks us s).ctx.error = s.ctx.error := rfl
@[simp] theorem setWait_ctx_complete (ts te : TapState) (clocks us : Word) : (setWait ts te clocks us s).ctx.complete = s.ctx.complete := rfl
@[simp] theorem setWait_ctx_checksum (ts te : TapState) (clocks us : Word) : (setWait ts te clocks us s).ctx.checksum = s.ctx.checksum := rfl
@[simp] theorem setWait_ctx_consumed (ts te : TapState) (clocks us : Word) : (setWait ts te clocks us s).ctx.consumed = s.ctx.consumed := rfl
@[simp] theorem setWait_ctx_rd (ts te : TapState) (clocks us : Word) : (setWait ts te clocks us s).ctx.rd = s.ctx.rd := rfl
@[simp] theorem setWait_ctx_wr (ts te : TapState) (clocks us : Word) : (setWait ts te clocks us s).ctx.wr = s.ctx.wr := rfl

/-! ### releasePins -/

@[simp] theorem releasePins_ctx : (releasePins s).ctx = s.ctx := rfl
@[simp] theorem releasePins_bufs : (releasePins s).bufs = s.bufs := rfl
@[simp] theorem releasePins_stage : (releasePins s).stage = s.stage := rfl
@[simp] theorem releasePins_tap : (releasePins s).tap = s.tap := rfl
@[simp] theorem releasePins_pins : (releasePins s).pins = { s.pins with mode := .highZ } := rfl
@[simp] theorem releasePins_phase : (releasePins s).phase = s.phase := rfl
@[simp] theorem releasePins_comment : (releasePins s).comment = s.comment := rfl
@[simp] theorem releasePins_trace : (releasePins s).trace = s.trace ++ [.release] := rfl
@[simp] theorem releasePins_env : (releasePins s).env = s.env := rfl

/-! ### resetContext -/

@[simp] theorem resetContext_ctx : (resetContext s).ctx = Context.initial := rfl
@[simp] theorem resetContext_bufs : (resetContext s).bufs = Buffers.initial := rfl
@[simp] theorem resetContext_stage : (resetContext s).stage = [] := rfl
@[simp] theorem resetContext_tap : (resetContext s).tap = .testLogicReset := rfl
@[simp] theorem resetContext_pins : (resetContext s).pins = s.pins := rfl
@[simp] theorem resetContext_phase : (resetContext s).phase = s.phase := rfl
@[simp] theorem resetContext_comment : (resetContext s).comment = none := rfl
@[simp] theorem resetContext_trace : (resetContext s).trace = s.trace := rfl
@[simp] theorem resetContext_env : (resetContext s).env = s.env := rfl

/-! ### signalReady -/

@[simp] theorem signalReady_ctx : (signalReady s).ctx = s.ctx := rfl
@[simp] theorem signalReady_bufs : (signalReady s).bufs = s.bufs := rfl
@[simp] theorem signalReady_stage : (signalReady s).stage = s.stage := rfl
@[simp] theorem signalReady_tap : (signalReady s).tap = s.tap := rfl
@[simp] theorem signalReady_pins : (signalReady s).pins = s.pins := rfl
@[simp] theorem signalReady_phase : (signalReady s).phase = .running := rfl
@[simp] theorem signalReady_comment : (signalReady s).comment = s.comment := rfl
@[simp] theorem signalReady_trace : (signalReady s).trace = s.trace ++ [.ready] := rfl
@[simp] theorem signalReady_env : (signalReady s).env = s.env := rfl

/-! ### clock -/

@[simp] theorem clock_ctx (tms tdi : Bool) : ((clock tms tdi s).2).ctx = s.ctx := rfl
@[simp] theorem clock_bufs (tms tdi : Bool) : ((clock tms tdi s).2).bufs = s.bufs := rfl
@[simp] theorem clock_stage (tms tdi : Bool) : ((clock tms tdi s).2).stage = s.stage := rfl
@[simp] theorem clock_tap (tms tdi : Bool) : ((clock tms tdi s).2).tap = tapNext s.tap tms := rfl
@[simp] theorem clock_pins (tms tdi : Bool) : ((clock tms tdi s).2).pins = { s.pins with tms := tms, tdi := tdi, tck := true } := rfl
@[simp] theorem clock_phase (tms tdi : Bool) : ((clock tms tdi s).2).phase = s.phase := rfl
@[simp] theorem clock_comment (tms tdi : Bool) : ((clock tms tdi s).2).comment = s.comment := rfl
@[simp] theorem clock_trace (tms tdi : Bool) : ((clock tms tdi s).2).trace = s.trace ++ [.clk tms tdi s.env.drawTdo.1] := rfl
@[simp] theorem clock_env (tms tdi : Bool) : ((clock tms tdi s).2).env = s.env.drawTdo.2 := rfl

/-! ### tapStep -/

@[simp] theorem tapStep_ctx (tms : Bool) : (tapStep tms s).ctx = s.ctx := rfl
@[simp] theorem tapStep_bufs (tms : Bool) : (tapStep tms s).bufs = s.bufs := rfl
@[simp] theorem tapStep_stage (tms : Bool) : (tapStep tms s).stage = s.stage := rfl
@[simp] theorem tapStep_tap (tms : Bool) : (tapStep tms s).tap = tapNext s.tap tms := rfl
@[simp] theorem tapStep_pins (tms : Bool) : (tapStep tms s).pins = { s.pins with tms := tms, tck := true } := rfl
@[simp] theorem tapStep_phase (tms : Bool) : (tapStep tms s).phase = s.phase := rfl
@[simp] theorem tapStep_comment (tms : Bool) : (tapStep tms s).comment = s.comment := rfl
@[simp] theorem tapStep_trace (tms : Bool) : (tapStep tms s).trace = s.trace ++ [.clk tms s.pins.tdi s.env.drawTdo.1] := rfl
@[simp] theorem tapStep_env (tms : Bool) : (tapStep tms s).env = s.env.drawTdo.2 := rfl

/-! ### Scan buffers -/

@[simp] theorem buffers_get_set_self (b : Buffers) (n : BufName) (m : Memory) :
    (b.set n m).get n = m := by cases n <;> rfl

@[simp] theorem buffers_get_set_ne (b : Buffers) {n k : BufName} (m : Memory) (h : k ≠ n) :
    (b.set n m).get k = b.get k := by cases n <;> cases k <;> first | rfl | exact absurd rfl h

@[simp] theorem bufByte_setBuf_self (n : BufName) (m : Memory) (i : Nat) :
    bufByte (setBuf n m s) n i = m.get i := by simp [bufByte]

@[simp] theorem bufByte_setBuf_ne {n k : BufName} (m : Memory) (i : Nat) (h : k ≠ n) :
    bufByte (setBuf n m s) k i = bufByte s k i := by simp [bufByte, h]

/-! ### Records -/

@[simp] theorem andThen_go (f : State → Flow) : (Flow.go s).andThen f = f s := rfl
@[simp] theorem andThen_raised (f : State → Flow) : (Flow.raised s).andThen f = .raised s := rfl
@[simp] theorem result_go : (Flow.go s).result = .next s := rfl
@[simp] theorem result_raised : (Flow.raised s).result = .next s := rfl
@[simp] theorem state_go : (Flow.go s).state = s := rfl
@[simp] theorem state_raised : (Flow.raised s).state = s := rfl
@[simp] theorem result_state (f : Flow) : f.result = .next f.state := rfl
@[simp] theorem afterRecord_next (f : State → State) : afterRecord f (.next s) = .next (f s) := rfl

/-! ### Draws leave the host stream alone -/

@[simp] theorem drawTdo_host (e : Env) : e.drawTdo.2.host = e.host := by
  unfold Env.drawTdo; split <;> rfl

/-- A clock draws no number of pulses. -/
@[simp] theorem drawTdo_pulses (e : Env) : e.drawTdo.2.pulses = e.pulses := by
  unfold Env.drawTdo; split <;> rfl

@[simp] theorem drawPulses_host (e : Env) : e.drawPulses.2.host = e.host := by
  unfold Env.drawPulses; split <;> rfl

@[simp] theorem drawPoll_host (e : Env) : e.drawPoll.2.host = e.host := by
  unfold Env.drawPoll; split <;> rfl

@[simp] theorem drawVref_host (e : Env) : e.drawVref.2.host = e.host := by
  unfold Env.drawVref; split <;> rfl

@[simp] theorem drawLevel_host (e : Env) : e.drawLevel.2.host = e.host := by
  unfold Env.drawLevel; split <;> rfl

end Sys2Proof.Machine
end

