-- ==== Sys2Proof/Laws/Memory.lean ====
section
/-! SUPPORT. The byte stores: reading after writing, and the canonical form every operation keeps. -/

namespace Sys2Proof.Machine

/-! ## Reading after writing -/

theorem get_erase_self (m : Memory) (i : Nat) : (m.erase i).get i = Memory.unlisted := by
  induction m with
  | nil => rfl
  | cons c m ih =>
    obtain ⟨a, v⟩ := c
    by_cases h : a = i
    · simpa [Memory.erase, h] using ih
    · simpa [Memory.erase, Memory.get, h] using ih

theorem get_erase_ne (m : Memory) {i j : Nat} (h : i ≠ j) : (m.erase i).get j = m.get j := by
  induction m with
  | nil => rfl
  | cons c m ih =>
    obtain ⟨a, v⟩ := c
    by_cases hi : a = i
    · simp [Memory.erase, Memory.get, hi, h, ih]
    · simp [Memory.erase, Memory.get, hi, ih]

theorem get_insert_self (m : Memory) (i : Nat) (b : Byte) : (m.insert i b).get i = b := by
  induction m with
  | nil => simp [Memory.insert, Memory.get]
  | cons c m ih =>
    obtain ⟨a, v⟩ := c
    by_cases h : a < i
    · have : a ≠ i := by omega
      simpa [Memory.insert, Memory.get, h, this] using ih
    · by_cases h' : a = i
      · simp [Memory.insert, Memory.get, h']
      · simp [Memory.insert, Memory.get, h, h']

theorem get_insert_ne (m : Memory) {i j : Nat} (b : Byte) (h : i ≠ j) :
    (m.insert i b).get j = m.get j := by
  induction m with
  | nil => simp [Memory.insert, Memory.get, h]
  | cons c m ih =>
    obtain ⟨a, v⟩ := c
    by_cases h1 : a < i
    · simp [Memory.insert, Memory.get, h1, ih]
    · by_cases h2 : a = i
      · have : a ≠ j := by omega
        simp [Memory.insert, Memory.get, h2, h]
      · simp [Memory.insert, Memory.get, h1, h2, h]

@[simp] theorem get_set_self (m : Memory) (i : Nat) (b : Byte) : (m.set i b).get i = b := by
  unfold Memory.set
  split
  · next h => rw [get_erase_self, h]
  · exact get_insert_self m i b

@[simp] theorem get_set_ne (m : Memory) {i j : Nat} (b : Byte) (h : i ≠ j) :
    (m.set i b).get j = m.get j := by
  unfold Memory.set
  split
  · exact get_erase_ne m h
  · exact get_insert_ne m b h

theorem get_set (m : Memory) (i j : Nat) (b : Byte) :
    (m.set i b).get j = if i = j then b else m.get j := by
  split
  · next h => rw [← h, get_set_self]
  · next h => exact get_set_ne m b h

/-- A byte stored by `store`, or one it left alone. -/
theorem get_store (bs : List Byte) (m : Memory) (i j : Nat) :
    (m.store i bs).get j = if i ≤ j ∧ j < i + bs.length then bs.getD (j - i) 0#8 else m.get j := by
  induction bs generalizing m i with
  | nil => simp [Memory.store]
  | cons b bs ih =>
    rw [Memory.store, ih, get_set]
    by_cases h : i = j
    · subst h; simp
    · by_cases h2 : i + 1 ≤ j ∧ j < i + 1 + bs.length
      · have h3 : i ≤ j ∧ j < i + (b :: bs).length := by simp; omega
        rw [if_pos h2, if_pos h3]
        obtain ⟨k, rfl⟩ : ∃ k, j = i + 1 + k := ⟨j - (i + 1), by omega⟩
        simp [show i + 1 + k - i = k + 1 by omega]
      · have h3 : ¬ (i ≤ j ∧ j < i + (b :: bs).length) := by simp; omega
        rw [if_neg h2, if_neg h3, if_neg h]

/-- Below the end of the bytes stored from 0 on, the byte of the list. -/
theorem get_store_zero (bs : List Byte) (m : Memory) (j : Nat) (h : j < bs.length) :
    (m.store 0 bs).get j = bs.getD j 0#8 := by rw [get_store, if_pos (by omega)]; simp

/-- From the end of the bytes stored from 0 on, the byte as it was. -/
theorem get_store_zero_ge (bs : List Byte) (m : Memory) (j : Nat) (h : bs.length ≤ j) :
    (m.store 0 bs).get j = m.get j := by rw [get_store, if_neg (by omega)]

/-! ## The canonical form -/

theorem wfFrom_mono {size lo lo' : Nat} {m : Memory} (h : lo' ≤ lo) (hm : m.wfFrom size lo = true) :
    m.wfFrom size lo' = true := by
  cases m with
  | nil => rfl
  | cons c m =>
    obtain ⟨a, v⟩ := c
    simp only [Memory.wfFrom, Bool.and_eq_true, decide_eq_true_eq] at hm ⊢
    exact ⟨⟨⟨by omega, hm.1.1.2⟩, hm.1.2⟩, hm.2⟩

theorem wfFrom_erase {size : Nat} (i : Nat) {m : Memory} {lo : Nat} (hm : m.wfFrom size lo = true) :
    (m.erase i).wfFrom size lo = true := by
  induction m generalizing lo with
  | nil => rfl
  | cons c m ih =>
    obtain ⟨a, v⟩ := c
    simp only [Memory.wfFrom, Bool.and_eq_true, decide_eq_true_eq] at hm
    by_cases h : a = i
    · simpa [Memory.erase, h] using wfFrom_mono (by omega) (ih hm.2)
    · simp only [Memory.erase, h, if_false, Memory.wfFrom, Bool.and_eq_true, decide_eq_true_eq]
      exact ⟨hm.1, ih hm.2⟩

theorem wfFrom_insert {size i : Nat} {b : Byte} (hi : i < size) (hb : b ≠ Memory.unlisted)
    {m : Memory} {lo : Nat} (hlo : lo ≤ i) (hm : m.wfFrom size lo = true) :
    (m.insert i b).wfFrom size lo = true := by
  induction m generalizing lo with
  | nil => simp [Memory.insert, Memory.wfFrom, hi, hb, hlo]
  | cons c m ih =>
    obtain ⟨a, v⟩ := c
    simp only [Memory.wfFrom, Bool.and_eq_true, decide_eq_true_eq, bne_iff_ne] at hm
    by_cases h1 : a < i
    · simp only [Memory.insert, h1, if_true, Memory.wfFrom, Bool.and_eq_true, decide_eq_true_eq,
        bne_iff_ne]
      exact ⟨hm.1, ih (by omega) hm.2⟩
    · by_cases h2 : a = i
      · subst h2
        simp only [Memory.insert, h1, if_false, if_true, Memory.wfFrom, Bool.and_eq_true,
          decide_eq_true_eq, bne_iff_ne]
        exact ⟨⟨⟨hlo, hi⟩, hb⟩, hm.2⟩
      · simp only [Memory.insert, h1, h2, if_false, Memory.wfFrom, Bool.and_eq_true,
          decide_eq_true_eq, bne_iff_ne]
        exact ⟨⟨⟨hlo, hi⟩, hb⟩, ⟨⟨by omega, hm.1.1.2⟩, hm.1.2⟩, hm.2⟩

/-- Writing a byte inside the store keeps its canonical form. -/
theorem wf_set {size i : Nat} {b : Byte} {m : Memory} (hi : i < size) (hm : m.wf size = true) :
    (m.set i b).wf size = true := by
  unfold Memory.set
  split
  · exact wfFrom_erase i hm
  · next h => exact wfFrom_insert hi h (Nat.zero_le i) hm

/-- Writing bytes inside the store keeps its canonical form. -/
theorem wf_store {size : Nat} (bs : List Byte) {i : Nat} {m : Memory} (hi : i + bs.length ≤ size)
    (hm : m.wf size = true) : (m.store i bs).wf size = true := by
  induction bs generalizing m i with
  | nil => exact hm
  | cons b bs ih =>
    simp only [List.length_cons] at hi
    exact ih (by omega) (wf_set (by omega) hm)

/-- The six scan buffers are canonical. -/
def Buffers.Canonical (b : Buffers) : Prop := ∀ n : BufName, (b.get n).wf Config.maxChainBytes = true

theorem storesCanonical_iff (s : State) :
    StoresCanonical s ↔ s.bufs.Canonical ∧ s.stage.wf Config.stageCap = true := by
  constructor
  · rintro ⟨⟨h1, h2, h3, h4, h5, h6⟩, h7⟩
    exact ⟨fun n => by cases n <;> assumption, h7⟩
  · rintro ⟨h, h7⟩
    exact ⟨⟨h .tdi, h .tdocap, h .tdoexp, h .tdomask, h .addrmask, h .datamask⟩, h7⟩

theorem canonical_set {b : Buffers} (h : b.Canonical) (n : BufName) {m : Memory}
    (hm : m.wf Config.maxChainBytes = true) : (b.set n m).Canonical := by
  intro k
  by_cases hk : k = n
  · subst hk; simpa using hm
  · simpa [hk] using h k

/-- The stores of the reset state are canonical. -/
theorem reset_canonical : StoresCanonical State.reset := by decide

/-- Two canonical stores that read the same are the same data. -/
theorem wf_ext {size : Nat} {m m' : Memory} {lo : Nat} (h : m.wfFrom size lo = true)
    (h' : m'.wfFrom size lo = true) (hg : ∀ i, m.get i = m'.get i) : m = m' := by
  have low : ∀ (m : Memory) (lo i : Nat), m.wfFrom size lo = true → i < lo → m.get i = Memory.unlisted := by
    intro m
    induction m with
    | nil => intros; rfl
    | cons c m ih =>
      obtain ⟨a, v⟩ := c
      intro lo i hm hi
      simp only [Memory.wfFrom, Bool.and_eq_true, decide_eq_true_eq] at hm
      have : a ≠ i := by omega
      simpa [Memory.get, this] using ih (a + 1) i hm.2 (by omega)
  induction m generalizing m' lo with
  | nil =>
    cases m' with
    | nil => rfl
    | cons c m' =>
      obtain ⟨a, v⟩ := c
      simp only [Memory.wfFrom, Bool.and_eq_true, bne_iff_ne] at h'
      exact absurd (by simpa [Memory.get] using (hg a).symm) h'.1.2
  | cons c m ih =>
    obtain ⟨a, v⟩ := c
    simp only [Memory.wfFrom, Bool.and_eq_true, decide_eq_true_eq, bne_iff_ne] at h
    cases m' with
    | nil => exact absurd (by simpa [Memory.get] using hg a) h.1.2
    | cons c' m' =>
      obtain ⟨a', v'⟩ := c'
      simp only [Memory.wfFrom, Bool.and_eq_true, decide_eq_true_eq, bne_iff_ne] at h'
      have ha : a = a' := by
        rcases Nat.lt_trichotomy a a' with lt | eq | gt
        · have := hg a
          rw [Memory.get, if_pos rfl, Memory.get, if_neg (by omega), low m' (a' + 1) a h'.2 (by omega)] at this
          exact absurd this h.1.2
        · exact eq
        · have := hg a'
          rw [Memory.get, if_neg (by omega), low m (a + 1) a' h.2 (by omega), Memory.get, if_pos rfl] at this
          exact absurd this.symm h'.1.2
      subst ha
      have hv : v = v' := by simpa [Memory.get] using hg a
      subst hv
      have ht : m = m' := by
        refine ih h.2 h'.2 fun i => ?_
        by_cases hi : a = i
        · subst hi; rw [low m (a + 1) a h.2 (by omega), low m' (a + 1) a h'.2 (by omega)]
        · simpa [Memory.get, hi] using hg i
      rw [ht]

end Sys2Proof.Machine
end

