-- ==== Sys2Proof/Laws/Tap.lean ====
section
/-! SUPPORT. The TAP primitives: each is a sequence of clocks, said once as `stepAll`, and touches nothing
but the TAP, the pins, the trace and the outside's answers. -/

namespace Sys2Proof.Machine

/-! ## What clocks leave alone -/

theorem OnlyClocked.refl (s : State) : OnlyClocked s s := ⟨rfl, rfl, rfl, rfl, rfl, rfl, rfl⟩

theorem OnlyClocked.trans {s t u : State} (h : OnlyClocked s t) (k : OnlyClocked t u) : OnlyClocked s u :=
  ⟨k.ctx.trans h.ctx, k.bufs.trans h.bufs, k.stage.trans h.stage, k.phase.trans h.phase,
    k.comment.trans h.comment, k.mode.trans h.mode, k.host.trans h.host⟩

theorem Clocked.refl (s : State) : Clocked s s [] := ⟨by simp, rfl, rfl⟩

theorem Clocked.trans {s t u : State} {es fs : List Event} (h : Clocked s t es) (k : Clocked t u fs) :
    Clocked s u (es ++ fs) :=
  ⟨by rw [k.trace, h.trace, List.append_assoc], by rw [k.tap, h.tap, List.foldl_append],
    by rw [k.latch, h.latch, List.foldl_append]⟩

theorem clock_onlyClocked (tms tdi : Bool) (s : State) : OnlyClocked s (clock tms tdi s).2 :=
  ⟨rfl, rfl, rfl, rfl, rfl, rfl, by simp⟩

theorem clock_clocked (tms tdi : Bool) (s : State) :
    Clocked s (clock tms tdi s).2 [.clk tms tdi (clock tms tdi s).1] := ⟨rfl, rfl, rfl⟩

theorem tapStep_onlyClocked (tms : Bool) (s : State) : OnlyClocked s (tapStep tms s) :=
  clock_onlyClocked tms s.pins.tdi s

theorem tapStep_clocked (tms : Bool) (s : State) :
    Clocked s (tapStep tms s) [.clk tms s.pins.tdi s.env.drawTdo.1] := clock_clocked tms s.pins.tdi s

/-! ## Sequences of steps -/

/-- Step with each TMS level in turn. -/
def stepAll (tms : List Bool) (s : State) : State := tms.foldl (fun s m => tapStep m s) s

@[simp] theorem stepAll_nil (s : State) : stepAll [] s = s := rfl
@[simp] theorem stepAll_cons (m : Bool) (tms : List Bool) (s : State) :
    stepAll (m :: tms) s = stepAll tms (tapStep m s) := rfl

theorem stepAll_append (a b : List Bool) (s : State) : stepAll (a ++ b) s = stepAll b (stepAll a s) := by
  simp [stepAll]

@[simp] theorem stepAll_tap (tms : List Bool) (s : State) : (stepAll tms s).tap = tmsWalk s.tap tms := by
  induction tms generalizing s with
  | nil => rfl
  | cons m tms ih => rw [stepAll_cons, ih]; rfl

@[simp] theorem stepAll_latch (tms : List Bool) (s : State) : (stepAll tms s).pins.tdi = s.pins.tdi := by
  induction tms generalizing s with
  | nil => rfl
  | cons m tms ih => rw [stepAll_cons, ih]; rfl

@[simp] theorem stepAll_pulses (tms : List Bool) (s : State) : (stepAll tms s).env.pulses = s.env.pulses := by
  induction tms generalizing s with
  | nil => rfl
  | cons m tms ih => rw [stepAll_cons, ih]; simp

theorem stepAll_onlyClocked (tms : List Bool) (s : State) : OnlyClocked s (stepAll tms s) := by
  induction tms generalizing s with
  | nil => exact .refl s
  | cons m tms ih => exact (tapStep_onlyClocked m s).trans (ih _)

/-- The events of a sequence of steps: its TMS levels, the latch, and some TDO levels. -/
theorem stepAll_trace (tms : List Bool) (s : State) :
    ∃ tdos : List Bool, tdos.length = tms.length ∧
      (stepAll tms s).trace = s.trace ++ List.zipWith (fun m d => .clk m s.pins.tdi d) tms tdos := by
  induction tms generalizing s with
  | nil => exact ⟨[], rfl, by simp⟩
  | cons m tms ih =>
    obtain ⟨tdos, hl, ht⟩ := ih (tapStep m s)
    exact ⟨s.env.drawTdo.1 :: tdos, by simp [hl], by simp [ht]⟩

theorem foldl_tapAfter_zipWith (l : Bool) (tms tdos : List Bool) (h : tdos.length = tms.length)
    (t : TapState) :
    (List.zipWith (fun m d => Event.clk m l d) tms tdos).foldl tapAfter t = tmsWalk t tms := by
  induction tms generalizing tdos t with
  | nil => simp [tmsWalk]
  | cons m tms ih =>
    cases tdos with
    | nil => simp at h
    | cons d tdos => simpa [tmsWalk, tapAfter] using ih tdos (by simpa using h) (tapNext t m)

theorem foldl_latchAfter_zipWith (l : Bool) (tms tdos : List Bool) :
    (List.zipWith (fun m d => Event.clk m l d) tms tdos).foldl latchAfter l = l := by
  induction tms generalizing tdos with
  | nil => simp
  | cons m tms ih =>
    cases tdos with
    | nil => simp
    | cons d tdos => simpa [latchAfter] using ih tdos

theorem stepAll_clocked (tms : List Bool) (s : State) : ∃ es, Clocked s (stepAll tms s) es := by
  obtain ⟨tdos, hl, ht⟩ := stepAll_trace tms s
  refine ⟨_, ht, ?_, ?_⟩
  · rw [foldl_tapAfter_zipWith _ _ _ hl, stepAll_tap]
  · rw [foldl_latchAfter_zipWith, stepAll_latch]

/-! ## Pulses -/

theorem tapSteps_eq_stepAll (tms : Bool) (n : Nat) (s : State) :
    tapSteps tms n s = stepAll (List.replicate n tms) s := by
  induction n generalizing s with
  | zero => rfl
  | succ n ih => rw [List.replicate_succ, stepAll_cons, ← ih]; rfl

/-- In a state that a clock with this TMS does not leave, pulses do not leave it either (R143). -/
theorem tmsWalk_replicate (t : TapState) (tms : Bool) (h : tapNext t tms = t) (n : Nat) :
    tmsWalk t (List.replicate n tms) = t := by
  induction n with
  | zero => rfl
  | succ n ih => simpa [List.replicate_succ, tmsWalk, h] using ih

/-! ## Goto -/

/-- The TMS levels of R149's walk, at most `fuel` of them. -/
def walkTms : Nat → TapState → TapState → List Bool
  | 0, _, _ => []
  | fuel + 1, t, s => if s = t then [] else pathBit s t :: walkTms fuel t (tapNext s (pathBit s t))

theorem walk_eq_stepAll (fuel : Nat) (t : TapState) (s : State) :
    walk fuel t s = stepAll (walkTms fuel t s.tap) s := by
  induction fuel generalizing s with
  | zero => rfl
  | succ fuel ih =>
    rw [walk, walkTms]
    split
    · rfl
    · rw [ih, stepAll_cons]; rfl

/-- The TMS levels `Goto(t)` issues from `s` (R148, R149). -/
def gotoTms (t s : TapState) : List Bool :=
  if t = .testLogicReset then List.replicate 5 true else walkTms 8 t s

theorem gotoTap_eq_stepAll (t : TapState) (s : State) : gotoTap t s = stepAll (gotoTms t s.tap) s := by
  unfold gotoTap gotoTms
  split
  · rw [tapSteps_eq_stepAll]; rfl
  · rw [walk_eq_stepAll]

/-- `Goto` arrives, from every state at every target (R149). -/
theorem tmsWalk_gotoTms (t s : TapState) : tmsWalk s (gotoTms t s) = t := by
  cases t <;> cases s <;> rfl

@[simp] theorem gotoTap_tap (t : TapState) (s : State) : (gotoTap t s).tap = t := by
  rw [gotoTap_eq_stepAll, stepAll_tap, tmsWalk_gotoTms]

@[simp] theorem gotoTap_latch (t : TapState) (s : State) : (gotoTap t s).pins.tdi = s.pins.tdi := by
  rw [gotoTap_eq_stepAll, stepAll_latch]

@[simp] theorem gotoTap_pulses (t : TapState) (s : State) : (gotoTap t s).env.pulses = s.env.pulses := by
  rw [gotoTap_eq_stepAll, stepAll_pulses]

theorem gotoTap_onlyClocked (t : TapState) (s : State) : OnlyClocked s (gotoTap t s) := by
  rw [gotoTap_eq_stepAll]; exact stepAll_onlyClocked _ s

theorem gotoTap_clocked (t : TapState) (s : State) : ∃ es, Clocked s (gotoTap t s) es := by
  rw [gotoTap_eq_stepAll]; exact stepAll_clocked _ s

/-- A walk has at most 8 clocks (R145). -/
theorem gotoTms_length_le (t s : TapState) : (gotoTms t s).length ≤ 8 := by
  cases t <;> cases s <;> decide

theorem clockCount_zipWith (l : Bool) (tms tdos : List Bool) (h : tdos.length = tms.length) :
    clockCount (List.zipWith (fun m d => .clk m l d) tms tdos) = tms.length := by
  unfold clockCount
  induction tms generalizing tdos with
  | nil => rfl
  | cons m tms ih =>
    cases tdos with
    | nil => simp at h
    | cons d tdos =>
      rw [List.zipWith_cons_cons, List.countP_cons, ih tdos (by simpa using h)]
      rfl

/-- The events of `Goto(t)`: they lead to `t`, and are as many as its TMS levels. -/
theorem gotoTap_trace (t : TapState) (s : State) :
    ∃ w : List Event, (gotoTap t s).trace = s.trace ++ w ∧ w.foldl tapAfter s.tap = t ∧
      clockCount w = (gotoTms t s.tap).length := by
  rw [gotoTap_eq_stepAll]
  obtain ⟨tdos, hl, ht⟩ := stepAll_trace (gotoTms t s.tap) s
  exact ⟨_, ht, by rw [foldl_tapAfter_zipWith _ _ _ hl, tmsWalk_gotoTms], clockCount_zipWith _ _ _ hl⟩

/-! ## IdleWait -/

/-- `IdleWait` makes some number of TMS-0 pulses and then records its delay, or does nothing for 0. -/
theorem idleWait_cases (us : Word) (s : State) :
    (us = 0#32 ∧ idleWait us s = s) ∨
    (us ≠ 0#32 ∧ idleWait us s = emit (.delay us)
      (stepAll (List.replicate s.env.drawPulses.1 false) { s with env := s.env.drawPulses.2 })) := by
  by_cases h : us = 0#32
  · exact .inl ⟨h, by simp [idleWait, h]⟩
  · exact .inr ⟨h, by simp [idleWait, h, tapSteps_eq_stepAll]⟩

theorem emit_delay_clocked (us : Word) (s : State) : Clocked s (emit (.delay us) s) [.delay us] :=
  ⟨rfl, rfl, rfl⟩

theorem idleWait_onlyClocked (us : Word) (s : State) : OnlyClocked s (idleWait us s) := by
  obtain ⟨_, h⟩ | ⟨_, h⟩ := idleWait_cases us s
  · rw [h]; exact .refl s
  · rw [h]
    have h1 : OnlyClocked s { s with env := s.env.drawPulses.2 } :=
      ⟨rfl, rfl, rfl, rfl, rfl, rfl, by simp⟩
    have h2 := h1.trans (stepAll_onlyClocked (List.replicate s.env.drawPulses.1 false) _)
    exact ⟨h2.ctx, h2.bufs, h2.stage, h2.phase, h2.comment, h2.mode, h2.host⟩

theorem idleWait_clocked (us : Word) (s : State) : ∃ es, Clocked s (idleWait us s) es := by
  obtain ⟨_, h⟩ | ⟨_, h⟩ := idleWait_cases us s
  · rw [h]; exact ⟨[], .refl s⟩
  · rw [h]
    obtain ⟨es, he⟩ := stepAll_clocked (List.replicate s.env.drawPulses.1 false)
      { s with env := s.env.drawPulses.2 }
    have before : Clocked s { s with env := s.env.drawPulses.2 } [] := ⟨by simp, rfl, rfl⟩
    exact ⟨_, (before.trans he).trans (emit_delay_clocked us _)⟩

@[simp] theorem idleWait_latch (us : Word) (s : State) : (idleWait us s).pins.tdi = s.pins.tdi := by
  obtain ⟨_, h⟩ | ⟨_, h⟩ := idleWait_cases us s <;> rw [h]
  simp

/-- A wait in a state that TMS 0 does not leave stays there (R143, R151). -/
theorem idleWait_tap (us : Word) (s : State) (h : tapNext s.tap false = s.tap) :
    (idleWait us s).tap = s.tap := by
  obtain ⟨_, he⟩ | ⟨_, he⟩ := idleWait_cases us s <;> rw [he]
  simpa using tmsWalk_replicate s.tap false h _

end Sys2Proof.Machine
end

