-- ==== Sys2Proof/Laws/Shift.lean ====
section
/-! SUPPORT. The shift engine: what one shift captures, which clocks it makes, and what it leaves alone. -/

namespace Sys2Proof.Machine

theorem bitAt_getLsbD (bit : Bool) {q p : Nat} (hq : q < 8) (hp : p < 8) :
    (bitAt bit q).getLsbD p = (decide (p = q) && bit) := by
  cases bit
  · simp [bitAt]
  · obtain ⟨q, rfl⟩ : ∃ k : Fin 8, q = k.val := ⟨⟨q, hq⟩, rfl⟩
    obtain ⟨p, rfl⟩ : ∃ k : Fin 8, p = k.val := ⟨⟨p, hp⟩, rfl⟩
    revert q p; decide

/-- What a shift leaves alone: everything but the TAP, the pins, the trace, the outside's answers and the
output buffer. -/
structure OnlyShifted (out : BufName) (s t : State) : Prop where
  ctx : t.ctx = s.ctx
  stage : t.stage = s.stage
  phase : t.phase = s.phase
  comment : t.comment = s.comment
  mode : t.pins.mode = s.pins.mode
  host : t.env.host = s.env.host
  bufs : ∀ k, k ≠ out → t.bufs.get k = s.bufs.get k

theorem OnlyShifted.refl (out : BufName) (s : State) : OnlyShifted out s s :=
  ⟨rfl, rfl, rfl, rfl, rfl, rfl, fun _ _ => rfl⟩

theorem OnlyShifted.trans {out : BufName} {s t u : State} (h : OnlyShifted out s t)
    (k : OnlyShifted out t u) : OnlyShifted out s u :=
  ⟨k.ctx.trans h.ctx, k.stage.trans h.stage, k.phase.trans h.phase, k.comment.trans h.comment,
    k.mode.trans h.mode, k.host.trans h.host, fun b hb => (k.bufs b hb).trans (h.bufs b hb)⟩

theorem OnlyClocked.onlyShifted {s t : State} (h : OnlyClocked s t) (out : BufName) : OnlyShifted out s t :=
  ⟨h.ctx, h.stage, h.phase, h.comment, h.mode, h.host, fun _ _ => by rw [h.bufs]⟩

theorem setBuf_onlyShifted (out : BufName) (m : Memory) (s : State) : OnlyShifted out s (setBuf out m s) :=
  ⟨rfl, rfl, rfl, rfl, rfl, rfl, fun _ hk => buffers_get_set_ne _ _ hk⟩

/-! ## One clock -/

theorem shiftBit_onlyShifted (inp out : BufName) (n : Nat) (e : Bool) (i : Nat) (s : State) :
    OnlyShifted out s (shiftBit inp out n e i s) :=
  ((clock_onlyClocked _ _ s).onlyShifted out).trans (setBuf_onlyShifted out _ _)

theorem shiftBit_trace (inp out : BufName) (n : Nat) (e : Bool) (i : Nat) (s : State) :
    (shiftBit inp out n e i s).trace =
      s.trace ++ [.clk (e && i + 1 == n) (chainBit s inp n i) s.env.drawTdo.1] := rfl

theorem shiftBit_tap (inp out : BufName) (n : Nat) (e : Bool) (i : Nat) (s : State) :
    (shiftBit inp out n e i s).tap = tapNext s.tap (e && i + 1 == n) := rfl

theorem shiftBit_latch (inp out : BufName) (n : Nat) (e : Bool) (i : Nat) (s : State) :
    (shiftBit inp out n e i s).pins.tdi = chainBit s inp n i := rfl

theorem shiftBit_bit (inp out : BufName) (n : Nat) (e : Bool) (i : Nat) (s : State) (j p : Nat)
    (hp : p < 8) :
    (bufByte (shiftBit inp out n e i s) out j).getLsbD p =
      ((bufByte s out j).getLsbD p ||
        (decide (j = wireByte n i ∧ p = i % 8) && s.env.drawTdo.1)) := by
  have hq : i % 8 < 8 := Nat.mod_lt _ (by decide)
  unfold shiftBit
  rw [bufByte_setBuf_self, get_set]
  by_cases h : wireByte n i = j
  · subst h
    simp only [if_true, BitVec.getLsbD_or, bitAt_getLsbD _ hq hp, true_and]
    rfl
  · simp only [if_neg h, show ¬ (j = wireByte n i ∧ p = i % 8) from fun k => h k.1.symm,
      decide_false, Bool.false_and, Bool.or_false]
    rfl

/-! ## All clocks -/

theorem chainBit_congr {s t : State} {b : BufName} (h : t.bufs.get b = s.bufs.get b) (n i : Nat) :
    chainBit t b n i = chainBit s b n i := by simp [chainBit, bufByte, h]

theorem shiftEvents_congr {s t : State} {b : BufName} (h : t.bufs.get b = s.bufs.get b) (n : Nat) (e : Bool)
    (i : Nat) (tdos : List Bool) : shiftEvents t b n e i tdos = shiftEvents s b n e i tdos := by
  induction tdos generalizing i with
  | nil => rfl
  | cons d tdos ih => simp [shiftEvents, chainBit_congr h, ih]

theorem shiftEvents_length (s : State) (inp : BufName) (n : Nat) (e : Bool) (i : Nat) (tdos : List Bool) :
    (shiftEvents s inp n e i tdos).length = tdos.length := by
  induction tdos generalizing i with
  | nil => rfl
  | cons d tdos ih => simp [shiftEvents, ih]

/-- Each bit of a shift is one clock. -/
theorem shiftEvents_clockCount (s : State) (inp : BufName) (n : Nat) (e : Bool) (i : Nat) (tdos : List Bool) :
    clockCount (shiftEvents s inp n e i tdos) = tdos.length := by
  induction tdos generalizing i with
  | nil => rfl
  | cons d tdos ih =>
    unfold clockCount at ih ⊢
    rw [shiftEvents, List.countP_cons, ih]
    rfl

/-- The clocks of a shift tell its TDO levels. -/
theorem shiftEvents_inj (s : State) (inp : BufName) (n : Nat) (e : Bool) {i : Nat} {a b : List Bool}
    (h : shiftEvents s inp n e i a = shiftEvents s inp n e i b) : a = b := by
  induction a generalizing i b with
  | nil => cases b with
    | nil => rfl
    | cons d b => simp [shiftEvents] at h
  | cons c a ih => cases b with
    | nil => simp [shiftEvents] at h
    | cons d b =>
      simp only [shiftEvents, List.cons.injEq, Event.clk.injEq, true_and] at h
      rw [h.1, ih h.2]

/-- The wire position of bit `p` of byte `j`. -/
theorem wirePos_eq_iff {n i j p : Nat} (hi : i < n) (hj : j < ceil8 n) (hp : p < 8) :
    8 * (ceil8 n - 1 - j) + p = i ↔ j = wireByte n i ∧ p = i % 8 := by
  unfold wireByte ceil8 at *; omega

theorem wireByte_lt {n i : Nat} (hi : i < n) : wireByte n i < ceil8 n := by
  unfold wireByte ceil8; omega

theorem shiftFrom_spec (inp out : BufName) (hne : inp ≠ out) (n : Nat) (e : Bool) (left i : Nat) (s : State)
    (hn : i + left = n) :
    OnlyShifted out s (shiftFrom inp out n e left i s) ∧
    ∃ tdos : List Bool, tdos.length = left ∧
      Clocked s (shiftFrom inp out n e left i s) (shiftEvents s inp n e i tdos) ∧
      ∀ j p, p < 8 →
        (bufByte (shiftFrom inp out n e left i s) out j).getLsbD p =
          ((bufByte s out j).getLsbD p ||
            (decide (j < ceil8 n ∧ i ≤ 8 * (ceil8 n - 1 - j) + p) &&
              tdos.getD (8 * (ceil8 n - 1 - j) + p - i) false)) := by
  induction left generalizing i s with
  | zero => exact ⟨.refl out s, [], rfl, .refl s, fun j p _ => by simp [shiftFrom]⟩
  | succ left ih =>
    obtain ⟨hs, tdos, hl, hc, hb⟩ := ih (i + 1) (shiftBit inp out n e i s) (by omega)
    have one := shiftBit_onlyShifted inp out n e i s
    refine ⟨one.trans hs, s.env.drawTdo.1 :: tdos, by simp [hl], ?_, ?_⟩
    · have first : Clocked s (shiftBit inp out n e i s)
          [.clk (e && i + 1 == n) (chainBit s inp n i) s.env.drawTdo.1] := ⟨rfl, rfl, rfl⟩
      rw [shiftEvents_congr (one.bufs inp hne)] at hc
      exact first.trans hc
    · intro j p hp
      rw [show shiftFrom inp out n e (left + 1) i s =
        shiftFrom inp out n e left (i + 1) (shiftBit inp out n e i s) from rfl, hb j p hp,
        shiftBit_bit _ _ _ _ _ _ _ _ hp, Bool.or_assoc]
      congr 1
      by_cases hj : j < ceil8 n
      · have hpos := wirePos_eq_iff (i := i) (by omega) hj hp
        generalize 8 * (ceil8 n - 1 - j) + p = q at hpos ⊢
        rcases Nat.lt_trichotomy q i with lt | eq | gt
        · simp [hj, show ¬ (i ≤ q) by omega, show ¬ (i + 1 ≤ q) by omega,
            show ¬ (j = wireByte n i ∧ p = i % 8) from fun h => by omega]
        · subst eq
          simp [hpos.mp rfl, wireByte_lt (n := n) (i := q) (by omega)]
        · obtain ⟨r, rfl⟩ : ∃ r, q = i + 1 + r := ⟨q - (i + 1), by omega⟩
          simp [hj, show i ≤ i + 1 + r by omega, show i + 1 + r - i = r + 1 by omega,
            show ¬ (j = wireByte n i ∧ p = i % 8) from fun h => by omega]
      · have : ¬ (j = wireByte n i ∧ p = i % 8) := by
          have := wireByte_lt (n := n) (i := i) (by omega)
          omega
        simp [hj, this]

theorem clearOut_onlyShifted (out : BufName) (n : Nat) (s : State) : OnlyShifted out s (clearOut out n s) :=
  setBuf_onlyShifted out _ s

theorem clearOut_byte (out : BufName) (n : Nat) (s : State) (j : Nat) :
    bufByte (clearOut out n s) out j = if j < ceil8 n then 0#8 else bufByte s out j := by
  unfold clearOut
  rw [bufByte_setBuf_self]
  split
  · next h =>
    rw [get_store_zero _ _ _ (by simpa using h)]
    simp [List.getD_eq_getElem?_getD, h]
  · next h => rw [get_store_zero_ge _ _ _ (by simpa using h)]; rfl

/-- Everything a shift does (R170 to R176): the clocks, the captured bits (0 in the padding), and that it
changes nothing else but the TAP, the pins and the outside's answers. -/
theorem shift_spec (inp out : BufName) (hne : inp ≠ out) (n : Nat) (e : Bool) (s : State) :
    OnlyShifted out s (shift inp out n e s) ∧
    ∃ tdos : List Bool, tdos.length = n ∧
      Clocked s (shift inp out n e s) (shiftEvents s inp n e 0 tdos) ∧
      (∀ j p, j < ceil8 n → p < 8 →
        (bufByte (shift inp out n e s) out j).getLsbD p = tdos.getD (8 * (ceil8 n - 1 - j) + p) false) ∧
      ∀ j, ceil8 n ≤ j → bufByte (shift inp out n e s) out j = bufByte s out j := by
  obtain ⟨hs, tdos, hl, hc, hb⟩ := shiftFrom_spec inp out hne n e n 0 (clearOut out n s) (by omega)
  have cl := clearOut_onlyShifted out n s
  refine ⟨cl.trans hs, tdos, hl, ?_, ?_, ?_⟩
  · rw [shiftEvents_congr (cl.bufs inp hne)] at hc
    exact ⟨hc.trace, hc.tap, hc.latch⟩
  · intro j p hj hp
    have := hb j p hp
    rw [clearOut_byte, if_pos hj] at this
    simpa [shift, hj] using this
  · intro j hj
    apply BitVec.eq_of_getLsbD_eq
    intro p hp
    have := hb j p hp
    rw [clearOut_byte, if_neg (by omega)] at this
    simpa [shift, show ¬ j < ceil8 n by omega] using this

/-- Where the outside has the TDO levels ready, they are the ones the shift samples. -/
theorem shiftFrom_fed (inp out : BufName) (hne : inp ≠ out) (n : Nat) (e : Bool) (l q : List Bool) (i : Nat)
    (s : State) (h : s.env.tdo = l ++ q) :
    (shiftFrom inp out n e l.length i s).trace = s.trace ++ shiftEvents s inp n e i l ∧
    (shiftFrom inp out n e l.length i s).env.tdo = q := by
  induction l generalizing i s with
  | nil => simpa [shiftFrom, shiftEvents] using h
  | cons d l ih =>
    have draw : s.env.drawTdo = (d, { s.env with tdo := l ++ q }) := by simp [Env.drawTdo, h]
    have one : (shiftBit inp out n e i s).env.tdo = l ++ q := by
      show s.env.drawTdo.2.tdo = l ++ q
      rw [draw]
    obtain ⟨h1, h2⟩ := ih (i + 1) _ one
    refine ⟨?_, h2⟩
    rw [List.length_cons, shiftFrom, h1, shiftBit_trace, draw,
      shiftEvents_congr ((shiftBit_onlyShifted inp out n e i s).bufs inp hne), List.append_assoc]
    rfl

theorem shift_fed (inp out : BufName) (hne : inp ≠ out) (e : Bool) (l q : List Bool) (s : State)
    (h : s.env.tdo = l ++ q) :
    (shift inp out l.length e s).trace = s.trace ++ shiftEvents s inp l.length e 0 l := by
  have := (shiftFrom_fed inp out hne l.length e l q 0 (clearOut out l.length s) h).1
  rw [shiftEvents_congr ((clearOut_onlyShifted out l.length s).bufs inp hne)] at this
  exact this

theorem shiftFrom_pulses (inp out : BufName) (n : Nat) (e : Bool) (left i : Nat) (s : State) :
    (shiftFrom inp out n e left i s).env.pulses = s.env.pulses := by
  induction left generalizing i s with
  | zero => rfl
  | succ left ih => rw [shiftFrom, ih]; exact drawTdo_pulses s.env

@[simp] theorem shift_pulses (inp out : BufName) (n : Nat) (e : Bool) (s : State) :
    (shift inp out n e s).env.pulses = s.env.pulses := shiftFrom_pulses ..

/-! ## Where a shift leaves the TAP -/

theorem shiftEvents_tap (s : State) (inp : BufName) (n : Nat) (e : Bool) (t : TapState)
    (ht : tapNext t false = t) (i : Nat) (tdos : List Bool) (hn : i + tdos.length = n)
    (hlen : tdos ≠ []) :
    (shiftEvents s inp n e i tdos).foldl tapAfter t = tapNext t e := by
  induction tdos generalizing i with
  | nil => exact absurd rfl hlen
  | cons d tdos ih =>
    by_cases h : tdos = []
    · subst h
      have : i + 1 = n := by simpa using hn
      simp [shiftEvents, tapAfter, this]
    · have hpos : tdos.length ≠ 0 := by simpa using h
      have : (i + 1 == n) = false := by simp at hn ⊢; omega
      simp only [shiftEvents, List.foldl_cons, tapAfter, this, Bool.and_false, ht]
      exact ih (i + 1) (by simp at hn; omega) h

/-- From a state that TMS 0 does not leave, a shift of at least one bit ends where its last TMS leads
(R174). -/
theorem shift_tap (inp out : BufName) (hne : inp ≠ out) (n : Nat) (hn : n ≠ 0) (e : Bool) (s : State)
    (h : tapNext s.tap false = s.tap) : (shift inp out n e s).tap = tapNext s.tap e := by
  obtain ⟨-, tdos, hl, hc, -⟩ := shift_spec inp out hne n e s
  rw [hc.tap]
  exact shiftEvents_tap s inp n e s.tap h 0 tdos (by omega) (by rintro rfl; simp at hl; omega)

/-- A shift of no bits clocks nothing (R176). -/
theorem shift_zero (inp out : BufName) (e : Bool) (s : State) :
    shift inp out 0 e s = setBuf out (s.bufs.get out) s := rfl

/-! ## The canonical form -/

theorem shiftBit_canonical (inp out : BufName) (n : Nat) (e : Bool) (i : Nat) (s : State)
    (hi : wireByte n i < Config.maxChainBytes) (h : s.bufs.Canonical) :
    (shiftBit inp out n e i s).bufs.Canonical :=
  canonical_set (b := (clock (e && i + 1 == n)
    ((bufByte s inp (wireByte n i)).getLsbD (i % 8)) s).2.bufs) h out (wf_set hi (h out))

theorem shiftFrom_canonical (inp out : BufName) (n : Nat) (e : Bool) (left i : Nat) (s : State)
    (hn : i + left = n) (hb : ceil8 n ≤ Config.maxChainBytes) (h : s.bufs.Canonical) :
    (shiftFrom inp out n e left i s).bufs.Canonical := by
  induction left generalizing i s with
  | zero => exact h
  | succ left ih =>
    exact ih (i + 1) _ (by omega)
      (shiftBit_canonical inp out n e i s (Nat.lt_of_lt_of_le (wireByte_lt (by omega)) hb) h)

/-- A shift of at most `MAX_CHAIN_BITS` bits keeps the scan buffers canonical. -/
theorem shift_canonical (inp out : BufName) (n : Nat) (e : Bool) (s : State)
    (hb : ceil8 n ≤ Config.maxChainBytes) (h : s.bufs.Canonical) :
    (shift inp out n e s).bufs.Canonical := by
  refine shiftFrom_canonical inp out n e n 0 _ (by omega) hb ?_
  exact canonical_set h out (wf_store _ (by simpa using hb) (h out))

end Sys2Proof.Machine
end

