-- ==== Sys2Proof/Laws/Operands.lean ====
section
/-! SUPPORT. The operand forms: vectors, sizes, state bytes and end-state codes. -/

namespace Sys2Proof.Machine

/-! ## Vectors -/

/-- The state a vector of `n` bytes leaves: the bytes the stream gave, at the indices from 0 on. -/
def filled (b : BufName) (bytes : List Byte) (n : Nat) (s : State) : State :=
  setBuf b ((s.bufs.get b).store 0 (bytes.take n)) s

theorem fill_whole (b : BufName) (bytes : List Byte) {n : Nat} (s : State) (h : n ≤ bytes.length) :
    fill b bytes n s = .go (filled b bytes n s) := by simp [fill, filled, h]

theorem fill_short (b : BufName) (bytes : List Byte) {n : Nat} (s : State) (h : bytes.length < n) :
    fill b bytes n s = .raised (raise .ioExhausted (filled b bytes n s)) := by
  simp [fill, filled, Nat.not_le.mpr h]

/-- Either the vector was whole, or the read after its last byte raised IoExhausted (R79). -/
theorem fill_cases (b : BufName) (bytes : List Byte) (n : Nat) (s : State) :
    (n ≤ bytes.length ∧ fill b bytes n s = .go (filled b bytes n s)) ∨
    (bytes.length < n ∧ fill b bytes n s = .raised (raise .ioExhausted (filled b bytes n s))) := by
  rcases Nat.lt_or_ge bytes.length n with h | h
  · exact .inr ⟨h, fill_short b bytes s h⟩
  · exact .inl ⟨h, fill_whole b bytes s h⟩

theorem filled_byte (b : BufName) (bytes : List Byte) (n : Nat) (s : State) (j : Nat) :
    bufByte (filled b bytes n s) b j =
      if j < n ∧ j < bytes.length then bytes.getD j 0#8 else bufByte s b j := by
  unfold filled
  rw [bufByte_setBuf_self]
  split
  · next h =>
    rw [get_store_zero _ _ _ (by simp; omega)]
    simp [List.getD_eq_getElem?_getD, h.1]
  · next h => rw [get_store_zero_ge _ _ _ (by simp; omega)]; rfl

theorem filled_onlyShifted (b : BufName) (bytes : List Byte) (n : Nat) (s : State) :
    OnlyShifted b s (filled b bytes n s) := setBuf_onlyShifted b _ s

@[simp] theorem filled_tap (b : BufName) (bytes : List Byte) (n : Nat) (s : State) :
    (filled b bytes n s).tap = s.tap := rfl
@[simp] theorem filled_ctx (b : BufName) (bytes : List Byte) (n : Nat) (s : State) :
    (filled b bytes n s).ctx = s.ctx := rfl
@[simp] theorem filled_trace (b : BufName) (bytes : List Byte) (n : Nat) (s : State) :
    (filled b bytes n s).trace = s.trace := rfl
@[simp] theorem filled_pins (b : BufName) (bytes : List Byte) (n : Nat) (s : State) :
    (filled b bytes n s).pins = s.pins := rfl
@[simp] theorem filled_env (b : BufName) (bytes : List Byte) (n : Nat) (s : State) :
    (filled b bytes n s).env = s.env := rfl
@[simp] theorem filled_phase (b : BufName) (bytes : List Byte) (n : Nat) (s : State) :
    (filled b bytes n s).phase = s.phase := rfl
@[simp] theorem filled_comment (b : BufName) (bytes : List Byte) (n : Nat) (s : State) :
    (filled b bytes n s).comment = s.comment := rfl
@[simp] theorem filled_stage (b : BufName) (bytes : List Byte) (n : Nat) (s : State) :
    (filled b bytes n s).stage = s.stage := rfl

theorem filled_canonical (b : BufName) (bytes : List Byte) (n : Fin 130) (s : State)
    (h : s.bufs.Canonical) : (filled b bytes n.val s).bufs.Canonical :=
  canonical_set h b (wf_store _ (by simp [Config.maxChainBytes]; omega) (h b))

/-! ## Sizes -/

theorem ceil8_le_iff (bits : Nat) : ceil8 bits ≤ Config.maxChainBytes ↔ bits ≤ 1032 := by
  unfold ceil8 Config.maxChainBytes; omega

/-- The size check passes exactly up to `MAX_CHAIN_BITS` (R196). -/
theorem sizeCheck_cases (bits : Nat) (s : State) :
    (bits ≤ 1032 ∧ sizeCheck bits s = .go s) ∨
    (1032 < bits ∧ sizeCheck bits s = .raised (raise .chainSizeExceeded s)) := by
  by_cases h : bits ≤ 1032
  · exact .inl ⟨h, by simp [sizeCheck, Nat.not_lt.mpr ((ceil8_le_iff bits).mpr h)]⟩
  · refine .inr ⟨by omega, ?_⟩
    have : Config.maxChainBytes < ceil8 bits := by
      rw [← Nat.not_le, ceil8_le_iff]; exact h
    simp [sizeCheck, this]

/-- The IR size pair, written. -/
def irSized (bits : Nat) (s : State) : State :=
  { s with ctx := { s.ctx with irBits := BitVec.ofNat 16 bits, irBytes := Fin.ofNat 130 (ceil8 bits) } }

/-- The DR size pair, written. -/
def drSized (bits : Nat) (s : State) : State :=
  { s with ctx := { s.ctx with drBits := BitVec.ofNat 32 bits, drBytes := Fin.ofNat 130 (ceil8 bits) } }

theorem setIrSize_cases (bits : Nat) (s : State) :
    (bits ≤ 1032 ∧ setIrSize bits s = .go (irSized bits s)) ∨
    (1032 < bits ∧ setIrSize bits s = .raised (raise .chainSizeExceeded s)) := by
  obtain ⟨h, e⟩ | ⟨h, e⟩ := sizeCheck_cases bits s
  · exact .inl ⟨h, by rw [setIrSize, e]; rfl⟩
  · exact .inr ⟨h, by rw [setIrSize, e]; rfl⟩

theorem setDrSize_cases (bits : Nat) (s : State) :
    (bits ≤ 1032 ∧ setDrSize bits s = .go (drSized bits s)) ∨
    (1032 < bits ∧ setDrSize bits s = .raised (raise .chainSizeExceeded s)) := by
  obtain ⟨h, e⟩ | ⟨h, e⟩ := sizeCheck_cases bits s
  · exact .inl ⟨h, by rw [setDrSize, e]; rfl⟩
  · exact .inr ⟨h, by rw [setDrSize, e]; rfl⟩

theorem ofNat_irBits {bits : Nat} (h : bits ≤ 1032) : (BitVec.ofNat 16 bits).toNat = bits := by
  rw [BitVec.toNat_ofNat]; omega

theorem ofNat_drBits {bits : Nat} (h : bits ≤ 1032) : (BitVec.ofNat 32 bits).toNat = bits := by
  rw [BitVec.toNat_ofNat]; omega

theorem ofNat_bytes {bits : Nat} (h : bits ≤ 1032) : (Fin.ofNat 130 (ceil8 bits)).val = ceil8 bits :=
  Nat.mod_eq_of_lt (by unfold ceil8; omega)

theorem irSized_agree {bits : Nat} {s : State} (h : bits ≤ 1032) (hs : SizesAgree s) :
    SizesAgree (irSized bits s) :=
  ⟨(ofNat_bytes h).trans (congrArg ceil8 (ofNat_irBits h).symm), hs.2⟩

theorem drSized_agree {bits : Nat} {s : State} (h : bits ≤ 1032) (hs : SizesAgree s) :
    SizesAgree (drSized bits s) :=
  ⟨hs.1, (ofNat_bytes h).trans (congrArg ceil8 (ofNat_drBits h).symm)⟩

/-- Where the sizes agree, the bit lengths are at most `MAX_CHAIN_BITS` (R37). -/
theorem irBits_bounded {s : State} (h : SizesAgree s) : ceil8 s.ctx.irBits.toNat ≤ Config.maxChainBytes := by
  rw [← h.1, Config.maxChainBytes]; omega

theorem drBits_bounded {s : State} (h : SizesAgree s) : ceil8 s.ctx.drBits.toNat ≤ Config.maxChainBytes := by
  rw [← h.2, Config.maxChainBytes]; omega

/-! ## State bytes and end-state codes -/

theorem tapOfCode_tapCode (t : TapState) : tapOfCode (tapCode t) = some t := by cases t <;> rfl

theorem tapCode_tapOfCode {n : Nat} {t : TapState} (h : tapOfCode n = some t) : tapCode t = n := by
  unfold tapOfCode at h
  split at h <;> simp_all [tapCode] <;> (subst h; rfl)

/-- A state byte names a TAP state, or is above 15 and faults (R289). -/
theorem stateArg_cases (b : Byte) :
    (∃ t, tapCode t = b.toNat ∧ stateArg b = .ok t) ∨
    (15 < b.toNat ∧ stateArg b = .error (.undefinedStateByte b)) := by
  unfold stateArg
  rcases h : tapOfCode b.toNat with _ | t
  · refine .inr ⟨?_, rfl⟩
    unfold tapOfCode at h
    split at h <;> simp_all
    omega
  · exact .inl ⟨t, tapCode_tapOfCode h, rfl⟩

theorem endState_cases (pause : TapState) (code : Byte) :
    (code = 0#8 ∧ endState pause code = some .runTestIdle) ∨
    (code = 1#8 ∧ endState pause code = some pause) ∨
    (code ≠ 0#8 ∧ code ≠ 1#8 ∧ endState pause code = none) := by
  unfold endState
  split
  · next h => exact .inl ⟨h, rfl⟩
  · next h =>
    split
    · next h' => exact .inr (.inl ⟨h', rfl⟩)
    · next h' => exact .inr (.inr ⟨h, h', rfl⟩)

end Sys2Proof.Machine
end

