-- ==== Sys2Proof/Laws/Scan.lean ====
section
/-! SUPPORT. The scans and the wait walks: what each sequence of clocks leaves alone, and the cases of each
record once, for the whole-machine claims to be derived from. -/

namespace Sys2Proof.Machine

/-- A scan clocks, and changes at most `TDOCAP` among the scan buffers. -/
structure Scanned (s t : State) : Prop where
  only : OnlyShifted .tdocap s t
  clocked : ∃ es, Clocked s t es
  canonical : SizesAgree s → s.bufs.Canonical → t.bufs.Canonical

theorem Scanned.refl (s : State) : Scanned s s := ⟨.refl _ s, ⟨[], .refl s⟩, fun _ h => h⟩

theorem Scanned.trans {s t u : State} (h : Scanned s t) (k : Scanned t u) : Scanned s u := by
  obtain ⟨es, he⟩ := h.clocked
  obtain ⟨fs, hf⟩ := k.clocked
  refine ⟨h.only.trans k.only, ⟨_, he.trans hf⟩, fun hs hc => k.canonical ?_ (h.canonical hs hc)⟩
  rw [SizesAgree, h.only.ctx]; exact hs

theorem gotoTap_scanned (t : TapState) (s : State) : Scanned s (gotoTap t s) :=
  ⟨(gotoTap_onlyClocked t s).onlyShifted _, gotoTap_clocked t s,
    fun _ h => by rw [(gotoTap_onlyClocked t s).bufs]; exact h⟩

theorem idleWait_scanned (us : Word) (s : State) : Scanned s (idleWait us s) :=
  ⟨(idleWait_onlyClocked us s).onlyShifted _, idleWait_clocked us s,
    fun _ h => by rw [(idleWait_onlyClocked us s).bufs]; exact h⟩

theorem shift_scanned {n : Nat} (e : Bool) {s : State}
    (hn : SizesAgree s → ceil8 n ≤ Config.maxChainBytes) : Scanned s (shift .tdi .tdocap n e s) := by
  obtain ⟨ho, tdos, -, hc, -⟩ := shift_spec .tdi .tdocap (by decide) n e s
  exact ⟨ho, ⟨_, hc⟩, fun hs => shift_canonical _ _ _ _ _ (hn hs)⟩

theorem irSettle_scanned (s : State) : Scanned s (irSettle s) := by
  unfold irSettle
  split
  · exact gotoTap_scanned _ s
  · exact (gotoTap_scanned _ s).trans (idleWait_scanned _ _)

theorem irScan_scanned (s : State) : Scanned s (irScan s) :=
  ((gotoTap_scanned .shiftIr s).trans (shift_scanned _ fun h => by
    rw [← (gotoTap_onlyClocked .shiftIr s).ctx]; exact irBits_bounded h)).trans (irSettle_scanned _)

theorem drShift_scanned (e : Bool) (s : State) : Scanned s (drShift e s) :=
  shift_scanned e drBits_bounded

theorem retryBounce_scanned (s : State) : Scanned s (retryBounce s) :=
  ((((gotoTap_scanned _ s).trans (gotoTap_scanned _ _)).trans (gotoTap_scanned _ _)).trans
    (idleWait_scanned _ _)).trans (gotoTap_scanned _ _)

theorem drSettle_scanned (s : State) : Scanned s (drSettle s) := by
  unfold drSettle
  split
  · exact gotoTap_scanned _ s
  · exact (gotoTap_scanned _ s).trans (idleWait_scanned _ _)

/-- The loop ends in a scanned state, matched or with the budget used up, and only a checked scan raises
(R251, R255). -/
theorem drAttempts_cases (f : DrFlags) (n : Nat) (s : State) :
    ∃ t, Scanned s t ∧
      (drAttempts f n s = .go t ∨
        (f.mustCheck = true ∧ drAttempts f n s = .raised (raise .verificationFailed t))) := by
  induction n generalizing s with
  | zero =>
    refine ⟨_, drShift_scanned f.mustEnd s, ?_⟩
    simp only [drAttempts]
    split
    · exact .inl rfl
    · next h => exact .inr ⟨by simp at h; exact h.1, rfl⟩
  | succ n ih =>
    simp only [drAttempts]
    split
    · exact ⟨_, drShift_scanned f.mustEnd s, .inl rfl⟩
    · obtain ⟨t, ht, hc⟩ := ih (retryBounce (drShift f.mustEnd s))
      exact ⟨t, ((drShift_scanned f.mustEnd s).trans (retryBounce_scanned _)).trans ht, hc⟩

/-- A DR scan ends in a scanned state; only a checked one raises, and only VerificationFailed. -/
theorem drScan_cases (f : DrFlags) (s : State) :
    ∃ t, Scanned s t ∧
      (drScan f s = .go t ∨
        (f.mustCheck = true ∧ drScan f s = .raised (raise .verificationFailed t))) := by
  have hb : Scanned s (if f.mustBegin then gotoTap .shiftDr s else s) := by
    split
    · exact gotoTap_scanned _ s
    · exact .refl s
  simp only [drScan]
  generalize (if f.mustBegin then gotoTap .shiftDr s else s) = u at hb ⊢
  obtain ⟨t, ht, h | ⟨hc, h⟩⟩ := drAttempts_cases f u.ctx.retries.toNat u
  · refine ⟨if f.mustEnd then drSettle t else t, (hb.trans ht).trans ?_, .inl (by rw [h]; rfl)⟩
    split
    · exact drSettle_scanned t
    · exact .refl t
  · exact ⟨t, hb.trans ht, .inr ⟨hc, by rw [h]; rfl⟩⟩

/-- What an IR record comes to (R240, R241). -/
theorem irRecord_cases (bits : Nat) (tdi : List Byte) (s : State) :
    let sized := irSized bits s
    let n := sized.ctx.irBytes.val
    (1032 < bits ∧ irRecord bits tdi s = .raised (raise .chainSizeExceeded s)) ∨
    (bits ≤ 1032 ∧ tdi.length < n ∧
      irRecord bits tdi s = .raised (raise .ioExhausted (filled .tdi tdi n sized))) ∨
    (bits ≤ 1032 ∧ n ≤ tdi.length ∧ irRecord bits tdi s = .go (irScan (filled .tdi tdi n sized))) := by
  obtain ⟨h, e⟩ | ⟨h, e⟩ := setIrSize_cases bits s
  · obtain ⟨h', e'⟩ | ⟨h', e'⟩ := fill_cases .tdi tdi (irSized bits s).ctx.irBytes.val (irSized bits s)
    · exact .inr (.inr ⟨h, h', by rw [irRecord, e]; simp [e']⟩)
    · exact .inr (.inl ⟨h, h', by rw [irRecord, e]; simp [e']⟩)
  · exact .inl ⟨h, by rw [irRecord, e]; rfl⟩

/-- What a DR record with one vector comes to (R260 to R263). -/
theorem drRecord_cases (f : DrFlags) (tdi : List Byte) (s : State) :
    (tdi.length < s.ctx.drBytes.val ∧
      drRecord f tdi s = .raised (raise .ioExhausted (filled .tdi tdi s.ctx.drBytes.val s))) ∨
    (s.ctx.drBytes.val ≤ tdi.length ∧
      drRecord f tdi s = drScan f (filled .tdi tdi s.ctx.drBytes.val s)) := by
  obtain ⟨h, e⟩ | ⟨h, e⟩ := fill_cases .tdi tdi s.ctx.drBytes.val s
  · exact .inr ⟨h, by rw [drRecord, e]; rfl⟩
  · exact .inl ⟨h, by rw [drRecord, e]; rfl⟩

/-- What a DR record with two vectors comes to (R264 to R267). -/
theorem drRecordExp_cases (f : DrFlags) (tdi exp : List Byte) (s : State) :
    let n := s.ctx.drBytes.val
    let one := filled .tdi tdi n s
    (tdi.length < n ∧ drRecordExp f tdi exp s = .raised (raise .ioExhausted one)) ∨
    (n ≤ tdi.length ∧ exp.length < n ∧
      drRecordExp f tdi exp s = .raised (raise .ioExhausted (filled .tdoexp exp n one))) ∨
    (n ≤ tdi.length ∧ n ≤ exp.length ∧
      drRecordExp f tdi exp s = drScan f (filled .tdoexp exp n one)) := by
  obtain ⟨h, e⟩ | ⟨h, e⟩ := fill_cases .tdi tdi s.ctx.drBytes.val s
  · obtain ⟨h', e'⟩ | ⟨h', e'⟩ :=
      fill_cases .tdoexp exp s.ctx.drBytes.val (filled .tdi tdi s.ctx.drBytes.val s)
    · exact .inr (.inr ⟨h, h', by rw [drRecordExp, e]; simp [e']⟩)
    · exact .inr (.inl ⟨h, h', by rw [drRecordExp, e]; simp [e']⟩)
  · exact .inl ⟨h, by rw [drRecordExp, e]; rfl⟩

/-- What XSETSDRMASKS comes to (R199). -/
theorem setsdrmasks_cases (addr data : List Byte) (s : State) :
    let n := s.ctx.drBytes.val
    let one := filled .addrmask addr n s
    (addr.length < n ∧ execXsetsdrmasks addr data s = .next (raise .ioExhausted one)) ∨
    (n ≤ addr.length ∧ data.length < n ∧
      execXsetsdrmasks addr data s = .next (raise .ioExhausted (filled .datamask data n one))) ∨
    (n ≤ addr.length ∧ n ≤ data.length ∧
      execXsetsdrmasks addr data s = .next (filled .datamask data n one)) := by
  obtain ⟨h, e⟩ | ⟨h, e⟩ := fill_cases .addrmask addr s.ctx.drBytes.val s
  · obtain ⟨h', e'⟩ | ⟨h', e'⟩ :=
      fill_cases .datamask data s.ctx.drBytes.val (filled .addrmask addr s.ctx.drBytes.val s)
    · exact .inr (.inr ⟨h, h', by rw [execXsetsdrmasks, e]; simp [e']⟩)
    · exact .inr (.inl ⟨h, h', by rw [execXsetsdrmasks, e]; simp [e']⟩)
  · exact .inl ⟨h, by rw [execXsetsdrmasks, e]; rfl⟩

theorem waitWalk_scanned (ts te : TapState) (clocks us : Word) (s : State) :
    Scanned s (waitWalk ts te clocks us s) := by
  have pulses (u : State) : Scanned u (tapSteps false clocks.toNat u) := by
    rw [tapSteps_eq_stepAll]
    exact ⟨(stepAll_onlyClocked _ u).onlyShifted _, stepAll_clocked _ u,
      fun _ h => by rw [(stepAll_onlyClocked _ u).bufs]; exact h⟩
  exact (((gotoTap_scanned ts s).trans (pulses _)).trans (idleWait_scanned us _)).trans
    (gotoTap_scanned te _)

theorem waitWalk_onlyClocked (ts te : TapState) (clocks us : Word) (s : State) :
    OnlyClocked s (waitWalk ts te clocks us s) := by
  have pulses (u : State) : OnlyClocked u (tapSteps false clocks.toNat u) := by
    rw [tapSteps_eq_stepAll]; exact stepAll_onlyClocked _ u
  exact (((gotoTap_onlyClocked ts s).trans (pulses _)).trans (idleWait_onlyClocked us _)).trans
    (gotoTap_onlyClocked te _)

/-- What a wait record comes to (R291, R292). -/
theorem waitRecord_cases (start stop : Byte) (clocks us : Word) (s : State) :
    (∃ b, 15 < b.toNat ∧ waitRecord start stop clocks us s = .fault (.undefinedStateByte b)) ∨
    (∃ ts te, tapCode ts = start.toNat ∧ tapCode te = stop.toNat ∧
      waitRecord start stop clocks us s =
        .next (waitWalk ts te clocks us (setWait ts te clocks us s))) := by
  unfold waitRecord waitArgs
  obtain ⟨ts, hs, es⟩ | ⟨hs, es⟩ := stateArg_cases start
  · obtain ⟨te, he, ee⟩ | ⟨he, ee⟩ := stateArg_cases stop
    · exact .inr ⟨ts, te, hs, he, by simp [es, ee]⟩
    · exact .inl ⟨stop, he, by simp [es, ee]⟩
  · exact .inl ⟨start, hs, by simp [es]⟩

end Sys2Proof.Machine
end

