-- ==== Sys2Proof/Laws/Exec.lean ====
section
/-! SUPPORT. What any record can do at all, said once: what it leaves alone (`exec_framed`) and what it may do
to the context (`exec_recordCtx`). The whole-machine claims are derived from these. -/

namespace Sys2Proof.Machine

/-- What the context keeps through every record: the stream reader's fields and the counter. -/
structure CtxKept (c d : Context) : Prop where
  instrCount : d.instrCount = c.instrCount
  checksum : d.checksum = c.checksum
  consumed : d.consumed = c.consumed
  rd : d.rd = c.rd
  wr : d.wr = c.wr

/-- What a record leaves alone, whatever it is: the staging buffer, the phase, the half-read comment,
the pins' mode, the host stream and the stream reader's fields; what it keeps: the agreement of the sizes, and with
it canonical scan buffers; and that the TAP and the latch follow the clocks it adds to the trace. -/
structure Framed (s t : State) : Prop where
  kept : CtxKept s.ctx t.ctx
  stage : t.stage = s.stage
  phase : t.phase = s.phase
  comment : t.comment = s.comment
  mode : t.pins.mode = s.pins.mode
  host : t.env.host = s.env.host
  clocked : ∃ es, Clocked s t es
  sizes : SizesAgree s → SizesAgree t
  canonical : SizesAgree s → s.bufs.Canonical → t.bufs.Canonical

theorem CtxKept.refl (c : Context) : CtxKept c c := ⟨rfl, rfl, rfl, rfl, rfl⟩

theorem Framed.refl (s : State) : Framed s s :=
  ⟨.refl _, rfl, rfl, rfl, rfl, rfl, ⟨[], .refl s⟩, id, fun _ h => h⟩

theorem Framed.trans {s t u : State} (h : Framed s t) (k : Framed t u) : Framed s u := by
  obtain ⟨es, he⟩ := h.clocked
  obtain ⟨fs, hf⟩ := k.clocked
  exact ⟨⟨k.kept.instrCount.trans h.kept.instrCount, k.kept.checksum.trans h.kept.checksum,
      k.kept.consumed.trans h.kept.consumed, k.kept.rd.trans h.kept.rd, k.kept.wr.trans h.kept.wr⟩,
    k.stage.trans h.stage, k.phase.trans h.phase, k.comment.trans h.comment, k.mode.trans h.mode,
    k.host.trans h.host, ⟨_, he.trans hf⟩, k.sizes ∘ h.sizes,
    fun hs hc => k.canonical (h.sizes hs) (h.canonical hs hc)⟩

/-- A change of the context alone that keeps the stream reader's fields and the agreement of the sizes. -/
theorem framed_ctx {s : State} {c : Context} (h : CtxKept s.ctx c)
    (hs : SizesAgree s → SizesAgree { s with ctx := c }) : Framed s { s with ctx := c } :=
  ⟨h, rfl, rfl, rfl, rfl, rfl, ⟨[], by simp, rfl, rfl⟩, hs, fun _ hc => hc⟩

theorem framed_raise (e : ErrorKind) (s : State) : Framed s (raise e s) :=
  framed_ctx ⟨rfl, rfl, rfl, rfl, rfl⟩ id

theorem Scanned.framed {s t : State} (h : Scanned s t) : Framed s t :=
  ⟨by rw [h.only.ctx]; exact .refl _, h.only.stage, h.only.phase, h.only.comment, h.only.mode,
    h.only.host, h.clocked, fun hs => by rw [SizesAgree, h.only.ctx]; exact hs, h.canonical⟩

theorem framed_filled (b : BufName) (bytes : List Byte) (n : Fin 130) (s : State) :
    Framed s (filled b bytes n.val s) :=
  ⟨.refl _, rfl, rfl, rfl, rfl, rfl, ⟨[], by simp, rfl, rfl⟩, id, fun _ => filled_canonical b bytes n s⟩

theorem framed_fill (b : BufName) (bytes : List Byte) (n : Fin 130) (s : State) :
    Framed s (fill b bytes n.val s).state := by
  obtain ⟨-, e⟩ | ⟨-, e⟩ := fill_cases b bytes n.val s <;> rw [e]
  · exact framed_filled b bytes n s
  · exact (framed_filled b bytes n s).trans (framed_raise _ _)

theorem framed_drScan (f : DrFlags) (s : State) : Framed s (drScan f s).state := by
  obtain ⟨t, ht, e | ⟨-, e⟩⟩ := drScan_cases f s <;> rw [e]
  · exact ht.framed
  · exact ht.framed.trans (framed_raise _ _)

/-- A statement after another keeps the frame if both do. -/
theorem framed_andThen {s : State} {x : Flow} {f : State → Flow} (h : Framed s x.state)
    (k : ∀ u, Framed u (f u).state) : Framed s (x.andThen f).state := by
  cases x with
  | go u => exact h.trans (k u)
  | raised u => exact h

theorem framed_drRecord (f : DrFlags) (tdi : List Byte) (s : State) : Framed s (drRecord f tdi s).state :=
  framed_andThen (framed_fill _ _ _ s) (framed_drScan f)

theorem framed_drRecordExp (f : DrFlags) (tdi exp : List Byte) (s : State) :
    Framed s (drRecordExp f tdi exp s).state :=
  framed_andThen (framed_fill _ _ _ s) fun u => framed_andThen (framed_fill _ _ _ u) (framed_drScan f)

theorem framed_irRecord (bits : Nat) (tdi : List Byte) (s : State) :
    Framed s (irRecord bits tdi s).state := by
  have sized (h : bits ≤ 1032) : Framed s (irSized bits s) :=
    framed_ctx ⟨rfl, rfl, rfl, rfl, rfl⟩ (irSized_agree h)
  obtain ⟨-, e⟩ | ⟨h, -, e⟩ | ⟨h, -, e⟩ := irRecord_cases bits tdi s <;> rw [e]
  · exact framed_raise _ _
  · exact ((sized h).trans (framed_filled _ _ _ _)).trans (framed_raise _ _)
  · exact ((sized h).trans (framed_filled _ _ _ _)).trans (irScan_scanned _).framed

theorem framed_waitRecord {start stop : Byte} {clocks us : Word} {s t : State}
    (h : waitRecord start stop clocks us s = .next t) : Framed s t := by
  obtain ⟨b, -, e⟩ | ⟨ts, te, -, -, e⟩ := waitRecord_cases start stop clocks us s <;> rw [e] at h
  · simp at h
  · obtain rfl := by simpa using h.symm
    have set : Framed s (setWait ts te clocks us s) := framed_ctx ⟨rfl, rfl, rfl, rfl, rfl⟩ id
    exact set.trans (waitWalk_scanned _ _ _ _ _).framed

/-- What every record leaves alone and keeps. -/
theorem exec_framed {i : Instr} {s t : State} (h : exec i s = .next t) : Framed s t := by
  cases i <;> simp only [exec] at h
  case xcomplete =>
    obtain rfl := by simpa [execXcomplete] using h.symm
    exact framed_ctx ⟨rfl, rfl, rfl, rfl, rfl⟩ id
  case xtdomask v =>
    obtain rfl := by simpa [execXtdomask] using h.symm
    exact framed_fill _ _ _ s
  case xsir len v =>
    obtain rfl := by simpa [execXsir] using h.symm
    exact framed_irRecord _ _ s
  case xsdr v =>
    obtain rfl := by simpa [execXsdr] using h.symm
    exact framed_drRecord _ _ s
  case xruntest us =>
    obtain rfl := by simpa [execXruntest] using h.symm
    exact framed_ctx ⟨rfl, rfl, rfl, rfl, rfl⟩ id
  case xrepeat n =>
    obtain rfl := by simpa [execXrepeat] using h.symm
    exact framed_ctx ⟨rfl, rfl, rfl, rfl, rfl⟩ id
  case xsdrsize bits =>
    obtain rfl := by simpa [execXsdrsize] using h.symm
    obtain ⟨h, e⟩ | ⟨-, e⟩ := setDrSize_cases bits.toNat s <;> rw [e]
    · exact framed_ctx ⟨rfl, rfl, rfl, rfl, rfl⟩ (drSized_agree h)
    · exact framed_raise _ _
  case xsdrtdo v w =>
    obtain rfl := by simpa [execXsdrtdo] using h.symm
    exact framed_drRecordExp _ _ _ s
  case xsetsdrmasks v w =>
    obtain rfl := by simpa [execXsetsdrmasks] using h.symm
    exact framed_andThen (framed_fill _ _ _ s) fun u => framed_fill _ _ _ u
  case xsdrinc v =>
    obtain rfl := by simpa [execXsdrinc] using h.symm
    exact framed_fill _ _ _ s
  case xsdrb v =>
    obtain rfl := by simpa [execXsdrb] using h.symm
    exact framed_drRecord _ _ s
  case xsdrc v =>
    obtain rfl := by simpa [execXsdrc] using h.symm
    exact framed_drRecord _ _ s
  case xsdre v =>
    obtain rfl := by simpa [execXsdre] using h.symm
    exact framed_drRecord _ _ s
  case xsdrtdob v w =>
    obtain rfl := by simpa [execXsdrtdob] using h.symm
    exact framed_drRecordExp _ _ _ s
  case xsdrtdoc v w =>
    obtain rfl := by simpa [execXsdrtdoc] using h.symm
    exact framed_drRecordExp _ _ _ s
  case xsdrtdoe v w =>
    obtain rfl := by simpa [execXsdrtdoe] using h.symm
    exact framed_drRecordExp _ _ _ s
  case xstate b =>
    unfold execXstate at h
    split at h
    · simp at h
    · obtain rfl := by simpa using h.symm
      refine Framed.trans (framed_ctx ?_ ?_) (gotoTap_scanned _ _).framed
      · exact ⟨rfl, rfl, rfl, rfl, rfl⟩
      · exact id
  case xendir code =>
    unfold execXendir at h
    split at h
    · obtain rfl := by simpa using h.symm
      exact framed_ctx ⟨rfl, rfl, rfl, rfl, rfl⟩ id
    · obtain rfl := by simpa using h.symm
      exact framed_raise _ _
  case xenddr code =>
    unfold execXenddr at h
    split at h
    · obtain rfl := by simpa using h.symm
      exact framed_ctx ⟨rfl, rfl, rfl, rfl, rfl⟩ id
    · obtain rfl := by simpa using h.symm
      exact framed_raise _ _
  case xsir2 len v =>
    obtain rfl := by simpa [execXsir2] using h.symm
    exact framed_irRecord _ _ s
  case xcomment text =>
    obtain rfl := by simpa [execXcomment] using h.symm
    exact ⟨.refl _, rfl, rfl, rfl, rfl, rfl, ⟨[.diag text], rfl, rfl, rfl⟩, id, fun _ hc => hc⟩
  case xwait a b us => exact framed_waitRecord h
  case xwaitstate a b c us => exact framed_waitRecord h
  case xtrst mode =>
    obtain rfl := by simpa [execXtrst] using h.symm
    exact .refl _

/-! ## The context

`RecordCtx i c d`: the record `i` may take the context `c` to `d`. -/

/-- Every change a record can make to the context, one constructor for each kind (R33, R310). -/
inductive RecordCtx : Instr → Context → Context → Prop where
  | same (i : Instr) (c : Context) : RecordCtx i c c
  | error (i : Instr) (c : Context) (e : ErrorKind) :
    mayRaise i e = true → RecordCtx i c { c with error := e }
  | irSize (i : Instr) (c : Context) (bits : Nat) (tdi : List Byte) :
    bits ≤ 1032 → ((∃ len, i = .xsir len tdi) ∨ ∃ len, i = .xsir2 len tdi) →
    RecordCtx i c { c with irBits := BitVec.ofNat 16 bits, irBytes := Fin.ofNat 130 (ceil8 bits) }
  | irSizeCut (i : Instr) (c : Context) (bits : Nat) (tdi : List Byte) :
    bits ≤ 1032 → ((∃ len, i = .xsir len tdi) ∨ ∃ len, i = .xsir2 len tdi) →
    RecordCtx i c { c with
      irBits := BitVec.ofNat 16 bits, irBytes := Fin.ofNat 130 (ceil8 bits), error := .ioExhausted }
  | drSize (c : Context) (bits : Word) : bits.toNat ≤ 1032 →
    RecordCtx (.xsdrsize bits) c { c with
      drBits := BitVec.ofNat 32 bits.toNat, drBytes := Fin.ofNat 130 (ceil8 bits.toNat) }
  | retries (c : Context) (n : Byte) : RecordCtx (.xrepeat n) c { c with retries := n }
  | runtest (c : Context) (us : Word) : RecordCtx (.xruntest us) c { c with runtest := us }
  | complete (c : Context) : RecordCtx .xcomplete c { c with complete := true }
  | xstate (c : Context) (b : Byte) (t : TapState) : RecordCtx (.xstate b) c { c with xstate := t }
  | endIr (c : Context) (code : Byte) (t : TapState) :
    (t = .runTestIdle ∨ t = .pauseIr) → RecordCtx (.xendir code) c { c with endIr := t }
  | endDr (c : Context) (code : Byte) (t : TapState) :
    (t = .runTestIdle ∨ t = .pauseDr) → RecordCtx (.xenddr code) c { c with endDr := t }
  | wait (c : Context) (a b : Byte) (us : Word) (ts te : TapState) :
    RecordCtx (.xwait a b us) c { c with
      waitStart := ts, waitEnd := te, waitClocks := 0#32, waitUs := us }
  | waitState (c : Context) (a b : Byte) (clocks us : Word) (ts te : TapState) :
    RecordCtx (.xwaitstate a b clocks us) c { c with
      waitStart := ts, waitEnd := te, waitClocks := clocks, waitUs := us }

theorem drScan_ctx (f : DrFlags) (s : State) :
    (drScan f s).state.ctx = s.ctx ∨
    (f.mustCheck = true ∧ (drScan f s).state.ctx = { s.ctx with error := .verificationFailed }) := by
  obtain ⟨t, ht, e | ⟨hc, e⟩⟩ := drScan_cases f s <;> rw [e]
  · exact .inl ht.only.ctx
  · exact .inr ⟨hc, by rw [state_raised, raise, ht.only.ctx]⟩

/-- A DR record raises IoExhausted, or VerificationFailed if it checks; both must be its to raise. -/
theorem recordCtx_dr {i : Instr} {f : DrFlags} {tdi : List Byte} {s : State}
    (h : ∀ e, (e = .ioExhausted ∨ f.mustCheck = true ∧ e = .verificationFailed) → mayRaise i e = true) :
    RecordCtx i s.ctx (drRecord f tdi s).state.ctx := by
  obtain ⟨-, e⟩ | ⟨-, e⟩ := drRecord_cases f tdi s <;> rw [e]
  · exact .error _ _ _ (h _ (.inl rfl))
  · obtain e | ⟨hc, e⟩ := drScan_ctx f (filled .tdi tdi s.ctx.drBytes.val s) <;> rw [e]
    · exact .same _ _
    · exact .error _ _ _ (h _ (.inr ⟨hc, rfl⟩))

theorem recordCtx_drExp {i : Instr} {f : DrFlags} {tdi exp : List Byte} {s : State}
    (h : ∀ e, (e = .ioExhausted ∨ f.mustCheck = true ∧ e = .verificationFailed) → mayRaise i e = true) :
    RecordCtx i s.ctx (drRecordExp f tdi exp s).state.ctx := by
  obtain ⟨-, e⟩ | ⟨-, -, e⟩ | ⟨-, -, e⟩ := drRecordExp_cases f tdi exp s <;> rw [e]
  · exact .error _ _ _ (h _ (.inl rfl))
  · exact .error _ _ _ (h _ (.inl rfl))
  · obtain e | ⟨hc, e⟩ := drScan_ctx f (filled .tdoexp exp s.ctx.drBytes.val
      (filled .tdi tdi s.ctx.drBytes.val s)) <;> rw [e]
    · exact .same _ _
    · exact .error _ _ _ (h _ (.inr ⟨hc, rfl⟩))

theorem recordCtx_ir {i : Instr} {bits : Nat} {tdi : List Byte} {s : State}
    (hi : (∃ len, i = .xsir len tdi ∧ bits = len.toNat) ∨ ∃ len, i = .xsir2 len tdi ∧ bits = len.toNat) :
    RecordCtx i s.ctx (irRecord bits tdi s).state.ctx := by
  have hi' : (∃ len, i = .xsir len tdi) ∨ ∃ len, i = .xsir2 len tdi := by
    rcases hi with ⟨l, h, -⟩ | ⟨l, h, -⟩ <;> simp [h]
  obtain ⟨hb, e⟩ | ⟨hb, -, e⟩ | ⟨hb, -, e⟩ := irRecord_cases bits tdi s <;> rw [e]
  · refine .error _ _ _ ?_
    rcases hi with ⟨l, h, h2⟩ | ⟨l, h, h2⟩
    · have := l.isLt; omega
    · simp [h, mayRaise]
  · exact .irSizeCut _ _ _ tdi hb hi'
  · rw [state_go, (irScan_scanned _).only.ctx]
    exact .irSize _ _ _ tdi hb hi'

theorem recordCtx_fill {i : Instr} {b : BufName} {v : List Byte} {n : Nat} {s : State}
    (h : mayRaise i .ioExhausted = true) : RecordCtx i s.ctx (fill b v n s).state.ctx := by
  obtain ⟨-, e⟩ | ⟨-, e⟩ := fill_cases b v n s <;> rw [e]
  · exact .same _ _
  · exact .error _ _ _ h

/-- What every record does to the context. -/
theorem exec_recordCtx {i : Instr} {s t : State} (h : exec i s = .next t) : RecordCtx i s.ctx t.ctx := by
  cases i <;> simp only [exec] at h
  case xcomplete =>
    obtain rfl := by simpa [execXcomplete] using h.symm
    exact .complete _
  case xtdomask v =>
    obtain rfl := by simpa [execXtdomask] using h.symm
    exact recordCtx_fill rfl
  case xsdrinc v =>
    obtain rfl := by simpa [execXsdrinc] using h.symm
    exact recordCtx_fill rfl
  case xsetsdrmasks v w =>
    obtain ⟨-, e⟩ | ⟨-, -, e⟩ | ⟨-, -, e⟩ := setsdrmasks_cases v w s <;>
      rw [e] at h <;> obtain rfl := by simpa using h.symm
    · exact .error _ _ _ rfl
    · exact .error _ _ _ rfl
    · exact .same _ _
  case xsir len v =>
    obtain rfl := by simpa [execXsir] using h.symm
    exact recordCtx_ir (.inl ⟨_, rfl, rfl⟩)
  case xsir2 len v =>
    obtain rfl := by simpa [execXsir2] using h.symm
    exact recordCtx_ir (.inr ⟨_, rfl, rfl⟩)
  case xruntest us =>
    obtain rfl := by simpa [execXruntest] using h.symm
    exact .runtest _ _
  case xrepeat us =>
    obtain rfl := by simpa [execXrepeat] using h.symm
    exact .retries _ _
  case xsdrsize bits =>
    obtain rfl := by simpa [execXsdrsize] using h.symm
    obtain ⟨hb, e⟩ | ⟨-, e⟩ := setDrSize_cases bits.toNat s <;> rw [e]
    · exact .drSize _ _ hb
    · exact .error _ _ _ rfl
  case xsdr v =>
    obtain rfl := by simpa [execXsdr] using h.symm
    exact recordCtx_dr (by rintro e (rfl | ⟨h, rfl⟩) <;> simp_all [mayRaise, flagsXsdr])
  case xsdrb v =>
    obtain rfl := by simpa [execXsdrb] using h.symm
    exact recordCtx_dr (by rintro e (rfl | ⟨h, rfl⟩) <;> simp_all [mayRaise, flagsXsdrb])
  case xsdrc v =>
    obtain rfl := by simpa [execXsdrc] using h.symm
    exact recordCtx_dr (by rintro e (rfl | ⟨h, rfl⟩) <;> simp_all [mayRaise, flagsXsdrc])
  case xsdre v =>
    obtain rfl := by simpa [execXsdre] using h.symm
    exact recordCtx_dr (by rintro e (rfl | ⟨h, rfl⟩) <;> simp_all [mayRaise, flagsXsdre])
  case xsdrtdo v w =>
    obtain rfl := by simpa [execXsdrtdo] using h.symm
    exact recordCtx_drExp (by rintro e (rfl | ⟨h, rfl⟩) <;> simp_all [mayRaise])
  case xsdrtdob v w =>
    obtain rfl := by simpa [execXsdrtdob] using h.symm
    exact recordCtx_drExp (by rintro e (rfl | ⟨h, rfl⟩) <;> simp_all [mayRaise])
  case xsdrtdoc v w =>
    obtain rfl := by simpa [execXsdrtdoc] using h.symm
    exact recordCtx_drExp (by rintro e (rfl | ⟨h, rfl⟩) <;> simp_all [mayRaise])
  case xsdrtdoe v w =>
    obtain rfl := by simpa [execXsdrtdoe] using h.symm
    exact recordCtx_drExp (by rintro e (rfl | ⟨h, rfl⟩) <;> simp_all [mayRaise])
  case xstate b =>
    unfold execXstate at h
    split at h
    · simp at h
    · obtain rfl := by simpa using h.symm
      rw [(gotoTap_onlyClocked _ _).ctx]
      exact .xstate _ _ _
  case xendir code =>
    unfold execXendir at h
    obtain ⟨-, e⟩ | ⟨-, e⟩ | ⟨-, -, e⟩ := endState_cases .pauseIr code <;>
      rw [e] at h <;> obtain rfl := by simpa using h.symm
    · exact .endIr _ _ _ (.inl rfl)
    · exact .endIr _ _ _ (.inr rfl)
    · exact .error _ _ _ rfl
  case xenddr code =>
    unfold execXenddr at h
    obtain ⟨-, e⟩ | ⟨-, e⟩ | ⟨-, -, e⟩ := endState_cases .pauseDr code <;>
      rw [e] at h <;> obtain rfl := by simpa using h.symm
    · exact .endDr _ _ _ (.inl rfl)
    · exact .endDr _ _ _ (.inr rfl)
    · exact .error _ _ _ rfl
  case xcomment text =>
    obtain rfl := by simpa [execXcomment] using h.symm
    exact .same _ _
  case xwait a b us =>
    unfold execXwait at h
    obtain ⟨b, -, e⟩ | ⟨ts, te, -, -, e⟩ := waitRecord_cases a b 0#32 us s <;> rw [e] at h
    · simp at h
    · obtain rfl := by simpa using h.symm
      rw [(waitWalk_onlyClocked _ _ _ _ _).ctx]
      exact .wait _ _ _ _ _ _
  case xwaitstate a b c us =>
    unfold execXwaitstate at h
    obtain ⟨b, -, e⟩ | ⟨ts, te, -, -, e⟩ := waitRecord_cases a b c us s <;> rw [e] at h
    · simp at h
    · obtain rfl := by simpa using h.symm
      rw [(waitWalk_onlyClocked _ _ _ _ _).ctx]
      exact .waitState _ _ _ _ _ _ _
  case xtrst mode =>
    obtain rfl := by simpa [execXtrst] using h.symm
    exact .same _ _

end Sys2Proof.Machine
end

