-- ==== Sys2Proof/Laws/Buffers.lean ====
section
/-! SUPPORT. Which bytes of which scan buffers the pieces of a record can change. -/

namespace Sys2Proof.Machine

theorem filled_ne (b : BufName) (v : List Byte) (n : Nat) (s : State) {c : BufName} (j : Nat) (h : c ≠ b) :
    bufByte (filled b v n s) c j = bufByte s c j := bufByte_setBuf_ne s _ _ h

/-- A vector changes only its buffer, and only below its length. -/
theorem filled_changes {b c : BufName} {v : List Byte} {n j : Nat} {s : State}
    (h : bufByte (filled b v n s) c j ≠ bufByte s c j) : c = b ∧ j < n := by
  by_cases hc : c = b
  · subst hc
    rw [filled_byte] at h
    split at h
    · next h' => exact ⟨rfl, h'.1⟩
    · contradiction
  · exact absurd (filled_ne _ _ _ _ _ hc) h

theorem fill_changes {b c : BufName} {v : List Byte} {n j : Nat} {s : State}
    (h : bufByte (fill b v n s).state c j ≠ bufByte s c j) : c = b ∧ j < n := by
  obtain ⟨-, e⟩ | ⟨-, e⟩ := fill_cases b v n s <;> rw [e] at h <;> exact filled_changes h

/-- A shift leaves the captured bytes above the chain's length. -/
theorem shift_above (n : Nat) (e : Bool) (s : State) {j : Nat} (h : ceil8 n ≤ j) :
    bufByte (shift .tdi .tdocap n e s) .tdocap j = bufByte s .tdocap j := by
  obtain ⟨_, _, _, _, _, above⟩ := shift_spec .tdi .tdocap (by decide) n e s
  exact above j h

theorem retryBounce_bufs (s : State) : (retryBounce s).bufs = s.bufs := by
  unfold retryBounce
  simp only [(gotoTap_onlyClocked _ _).bufs, (idleWait_onlyClocked _ _).bufs]

theorem drSettle_bufs (s : State) : (drSettle s).bufs = s.bufs := by
  unfold drSettle
  split <;> simp only [(gotoTap_onlyClocked _ _).bufs, (idleWait_onlyClocked _ _).bufs]

theorem irSettle_bufs (s : State) : (irSettle s).bufs = s.bufs := by
  unfold irSettle
  split <;> simp only [(gotoTap_onlyClocked _ _).bufs, (idleWait_onlyClocked _ _).bufs]

theorem drAttempts_above (f : DrFlags) (n : Nat) (s : State) {j : Nat} (h : ceil8 s.ctx.drBits.toNat ≤ j) :
    bufByte (drAttempts f n s).state .tdocap j = bufByte s .tdocap j := by
  induction n generalizing s with
  | zero =>
    simp only [drAttempts]
    split <;> exact shift_above _ _ _ h
  | succ n ih =>
    simp only [drAttempts]
    split
    · exact shift_above _ _ _ h
    · rw [ih, bufByte, retryBounce_bufs]
      · exact shift_above _ _ _ h
      · rw [((drShift_scanned f.mustEnd s).trans (retryBounce_scanned _)).only.ctx]; exact h

/-- A DR scan leaves the captured bytes above the chain's length. -/
theorem drScan_above (f : DrFlags) (s : State) {j : Nat} (h : ceil8 s.ctx.drBits.toNat ≤ j) :
    bufByte (drScan f s).state .tdocap j = bufByte s .tdocap j := by
  have begun : ∀ u : State, OnlyClocked u (if f.mustBegin then gotoTap .shiftDr u else u) := by
    intro u
    split
    · exact gotoTap_onlyClocked _ u
    · exact .refl u
  unfold drScan
  dsimp only
  have hs := begun s
  generalize (if f.mustBegin then gotoTap .shiftDr s else s) = u at hs ⊢
  have k := drAttempts_above f u.ctx.retries.toNat u (j := j) (by rw [hs.ctx]; exact h)
  rw [show bufByte u .tdocap j = bufByte s .tdocap j by rw [bufByte, hs.bufs]; rfl] at k
  rcases e : drAttempts f u.ctx.retries.toNat u with v | v <;> rw [e] at k
  · rw [andThen_go, state_go]
    split
    · rw [bufByte, drSettle_bufs]; exact k
    · exact k
  · exact k

/-- A DR scan changes only captured bytes below the chain's length. -/
theorem drScan_changes {f : DrFlags} {s : State} {b : BufName} {j : Nat} (hs : SizesAgree s)
    (h : bufByte (drScan f s).state b j ≠ bufByte s b j) : b = .tdocap ∧ j < s.ctx.drBytes.val := by
  by_cases hb : b = .tdocap
  · refine ⟨hb, ?_⟩
    rw [hs.2]
    by_contra hc
    subst hb
    exact h (drScan_above f s (by omega))
  · refine absurd ?_ h
    obtain ⟨t, ht, e | ⟨-, e⟩⟩ := drScan_cases f s <;> rw [e]
    · exact congrArg (Memory.get · j) (ht.only.bufs b hb)
    · exact congrArg (Memory.get · j) (ht.only.bufs b hb)

theorem drRecord_changes {f : DrFlags} {tdi : List Byte} {s : State} {b : BufName} {j : Nat}
    (hs : SizesAgree s) (h : bufByte (drRecord f tdi s).state b j ≠ bufByte s b j) :
    (b = .tdi ∨ b = .tdocap) ∧ j < s.ctx.drBytes.val := by
  have one := @filled_changes .tdi b tdi s.ctx.drBytes.val j s
  obtain ⟨-, e⟩ | ⟨-, e⟩ := drRecord_cases f tdi s <;> rw [e] at h
  · exact ⟨.inl (one h).1, (one h).2⟩
  · by_cases h' : bufByte (filled .tdi tdi s.ctx.drBytes.val s) b j = bufByte s b j
    · rw [← h'] at h
      have := drScan_changes (by exact hs) h
      exact ⟨.inr this.1, this.2⟩
    · exact ⟨.inl (one h').1, (one h').2⟩

theorem drRecordExp_changes {f : DrFlags} {tdi exp : List Byte} {s : State} {b : BufName} {j : Nat}
    (hs : SizesAgree s) (h : bufByte (drRecordExp f tdi exp s).state b j ≠ bufByte s b j) :
    (b = .tdi ∨ b = .tdocap ∨ b = .tdoexp) ∧ j < s.ctx.drBytes.val := by
  have one := @filled_changes .tdi b tdi s.ctx.drBytes.val j s
  by_cases h1 : bufByte (filled .tdi tdi s.ctx.drBytes.val s) b j = bufByte s b j
  · have two := @filled_changes .tdoexp b exp s.ctx.drBytes.val j (filled .tdi tdi s.ctx.drBytes.val s)
    obtain ⟨-, e⟩ | ⟨-, -, e⟩ | ⟨-, -, e⟩ := drRecordExp_cases f tdi exp s <;> rw [e, ← h1] at h
    · exact absurd rfl h
    · exact ⟨.inr (.inr (two h).1), (two h).2⟩
    · by_cases h2 : bufByte (filled .tdoexp exp s.ctx.drBytes.val (filled .tdi tdi s.ctx.drBytes.val s)) b j =
          bufByte (filled .tdi tdi s.ctx.drBytes.val s) b j
      · rw [← h2] at h
        have := drScan_changes (by exact hs) h
        exact ⟨.inr (.inl this.1), this.2⟩
      · exact ⟨.inr (.inr (two h2).1), (two h2).2⟩
  · exact ⟨.inl (one h1).1, (one h1).2⟩

theorem irVectorBytes_of_le {bits : Nat} (h : bits ≤ 1032) : irVectorBytes bits = ceil8 bits := by
  unfold irVectorBytes; rw [if_pos ((ceil8_le_iff _).mpr h)]

theorem irRecord_changes {bits : Nat} {tdi : List Byte} {s : State} {b : BufName} {j : Nat}
    (h : bufByte (irRecord bits tdi s).state b j ≠ bufByte s b j) :
    (b = .tdi ∨ b = .tdocap) ∧ j < irVectorBytes bits := by
  have one := @filled_changes .tdi b tdi (irSized bits s).ctx.irBytes.val j (irSized bits s)
  have sized (h0 : bits ≤ 1032) : (irSized bits s).ctx.irBytes.val = irVectorBytes bits := by
    rw [irVectorBytes_of_le h0]; exact ofNat_bytes h0
  obtain ⟨-, e⟩ | ⟨h0, -, e⟩ | ⟨h0, -, e⟩ := irRecord_cases bits tdi s <;> rw [e] at h
  · exact absurd rfl h
  · exact ⟨.inl (one h).1, sized h0 ▸ (one h).2⟩
  · by_cases h1 : bufByte (filled .tdi tdi (irSized bits s).ctx.irBytes.val (irSized bits s)) b j =
        bufByte (irSized bits s) b j
    · refine ⟨.inr ?_, ?_⟩ <;> by_contra hc
      · exact h ((congrArg (Memory.get · j) ((irScan_scanned _).only.bufs b hc)).trans h1)
      · refine h (Eq.trans ?_ h1)
        by_cases hb : b = .tdocap
        · subst hb
          rw [state_go, irScan, bufByte, irSettle_bufs]
          refine (shift_above _ true _ (j := j) ?_).trans ?_
          · rw [show (filled .tdi tdi (irSized bits s).ctx.irBytes.val (irSized bits s)).ctx.irBits.toNat =
              bits from ofNat_irBits h0, ← irVectorBytes_of_le h0]
            omega
          · rw [bufByte, (gotoTap_onlyClocked _ _).bufs]; rfl
        · exact congrArg (Memory.get · j) ((irScan_scanned _).only.bufs b hb)
    · exact ⟨.inl (one h1).1, sized h0 ▸ (one h1).2⟩

end Sys2Proof.Machine
end

