-- ==== Sys2Proof/Laws/Decode.lean ====
section
/-! SUPPORT. The decoder's fields over a list of bytes, and that composing and splitting a big-endian number
are inverse. -/

namespace Sys2Proof

@[simp] theorem listReader_cons (b : Byte) (rest : List Byte) : listReader (b :: rest) = (some b, rest) := rfl
@[simp] theorem listReader_nil : listReader [] = (none, []) := rfl

@[simp] theorem parseByte_cons (b : Byte) (rest : List Byte) (k : Byte → List Byte → Parsed (List Byte)) :
    parseByte listReader (b :: rest) k = k b rest := rfl

/-- The first `n` bytes of a list, or all of a shorter one. -/
theorem readVector_list (n : Nat) (bytes : List Byte) :
    readVector listReader n bytes = (bytes.take n, bytes.drop n) := by
  induction n generalizing bytes with
  | zero => simp [readVector]
  | succ n ih =>
    cases bytes with
    | nil => simp [readVector]
    | cons b bytes => simp [readVector, ih]

theorem parseVector_append (n : Nat) (mk : List Byte → Instr) (v rest : List Byte) (h : v.length = n) :
    parseVector listReader n mk (v ++ rest) = .whole (mk v) rest := by
  subst h; simp [parseVector, readVector_list]

theorem parseVectors_append (n : Nat) (mk : List Byte → List Byte → Instr) (v w rest : List Byte)
    (h : v.length = n) (h' : w.length = n) :
    parseVectors listReader n mk (v ++ w ++ rest) = .whole (mk v w) rest := by
  subst h
  rw [List.append_assoc]
  simpa [parseVectors, readVector_list] using parseVector_append _ (mk v) w rest h'

theorem parseText_append (fuel : Nat) (pre text rest : List Byte) (h : ∀ b ∈ text, b ≠ 0#8)
    (hf : text.length < fuel) :
    parseText listReader fuel pre (text ++ 0#8 :: rest) = .whole (.xcomment (pre ++ text)) rest := by
  induction text generalizing fuel pre with
  | nil =>
    obtain ⟨f, rfl⟩ : ∃ f, fuel = f + 1 := ⟨fuel - 1, by simp at hf; omega⟩
    simp [parseText]
  | cons b text ih =>
    obtain ⟨f, rfl⟩ : ∃ f, fuel = f + 1 := ⟨fuel - 1, by simp at hf; omega⟩
    have hb := h b (by simp)
    simp only [List.cons_append, parseText, listReader_cons, hb, if_false]
    rw [ih f _ (fun c hc => h c (by simp [hc])) (by simpa using hf)]
    simp

/-- A record whose parameters were read whole. -/
theorem decode_of_whole {d : Nat} {op : Byte} {rest after : List Byte} {i : Instr}
    (h : parseBody listReader d (rest.length + 1) op rest = .whole i after) :
    decode d (op :: rest) = .ok (i, after) := by simp only [decode, h]

/-- What a decoded record says of its parameters. -/
theorem decode_ok {d : Nat} {bytes after : List Byte} {i : Instr} (h : decode d bytes = .ok (i, after)) :
    ∃ op rest, bytes = op :: rest ∧
      parseBody listReader d (rest.length + 1) op rest = .whole i after := by
  cases bytes with
  | nil => simp [decode] at h
  | cons op rest =>
    refine ⟨op, rest, rfl, ?_⟩
    simp only [decode] at h
    split at h <;> simp_all

theorem be16_bytes16 (w : Half) : be16 (w.extractLsb' 8 8) (w.extractLsb' 0 8) = w := by
  apply BitVec.eq_of_getLsbD_eq
  intro i hi
  simp only [be16, BitVec.getLsbD_append, BitVec.getLsbD_extractLsb']
  split
  · simp; omega
  · rw [show 8 + (i - 8) = i by omega]; simp; omega

theorem be32_bytes32 (w : Word) : be32 (w.extractLsb' 24 8) (w.extractLsb' 16 8) (w.extractLsb' 8 8)
    (w.extractLsb' 0 8) = w := by
  apply BitVec.eq_of_getLsbD_eq
  intro i hi
  simp only [be32, BitVec.getLsbD_append, BitVec.getLsbD_extractLsb']
  repeat' split
  · simp; omega
  · rw [show 8 + (i - 8) = i by omega]; simp; omega
  · rw [show 16 + (i - 8 - 8) = i by omega]; simp; omega
  · rw [show 24 + (i - 8 - 8 - 8) = i by omega]; simp; omega

theorem parseLong_bytes32 (w : Word) (rest : List Byte) (k : Word → List Byte → Parsed (List Byte)) :
    parseLong listReader (bytes32 w ++ rest) k = k w rest := by
  simp [parseLong, bytes32, be32_bytes32]

theorem bytes16_be16 (b1 b0 : Byte) : bytes16 (be16 b1 b0) = [b1, b0] := by
  simp only [bytes16, be16, List.cons.injEq, and_true]
  constructor
  all_goals
    apply BitVec.eq_of_getLsbD_eq
    intro i hi
    simp only [BitVec.getLsbD_extractLsb', BitVec.getLsbD_append]
    simp [hi, Nat.not_lt.mpr (Nat.le_add_right 8 i)]

theorem bytes32_be32 (b3 b2 b1 b0 : Byte) : bytes32 (be32 b3 b2 b1 b0) = [b3, b2, b1, b0] := by
  simp only [bytes32, be32, List.cons.injEq, and_true]
  refine ⟨?_, ?_, ?_, ?_⟩
  all_goals
    apply BitVec.eq_of_getLsbD_eq
    intro i hi
    simp only [BitVec.getLsbD_extractLsb', BitVec.getLsbD_append]
  · simp [hi, show ¬ 24 + i < 8 by omega, show ¬ 24 + i - 8 < 8 by omega,
      show ¬ 24 + i - 8 - 8 < 8 by omega, show 24 + i - 8 - 8 - 8 = i by omega]
  · simp [hi, show ¬ 16 + i < 8 by omega, show ¬ 16 + i - 8 < 8 by omega,
      show 16 + i - 8 - 8 = i by omega]
  · simp [hi, show ¬ 8 + i < 8 by omega, show 8 + i - 8 = i by omega]
  · simp [hi]

/-! ## What a record read whole says of the bytes -/

theorem parseByte_whole {l after : List Byte} {i : Instr} {k : Byte → List Byte → Parsed (List Byte)}
    (h : parseByte listReader l k = .whole i after) : ∃ b rest, l = b :: rest ∧ k b rest = .whole i after := by
  cases l with
  | nil => simp [parseByte] at h
  | cons b rest => exact ⟨b, rest, rfl, h⟩

theorem parseLong_whole {l after : List Byte} {i : Instr} {k : Word → List Byte → Parsed (List Byte)}
    (h : parseLong listReader l k = .whole i after) :
    ∃ w rest, l = bytes32 w ++ rest ∧ k w rest = .whole i after := by
  unfold parseLong at h
  obtain ⟨b3, l3, rfl, h3⟩ := parseByte_whole h
  obtain ⟨b2, l2, rfl, h2⟩ := parseByte_whole h3
  obtain ⟨b1, l1, rfl, h1⟩ := parseByte_whole h2
  obtain ⟨b0, l0, rfl, h0⟩ := parseByte_whole h1
  exact ⟨_, l0, by rw [bytes32_be32]; rfl, h0⟩

theorem parseVector_whole {n : Nat} {mk : List Byte → Instr} {l after : List Byte} {i : Instr}
    (h : parseVector listReader n mk l = .whole i after) :
    ∃ v, v.length = n ∧ l = v ++ after ∧ i = mk v := by
  simp only [parseVector, readVector_list] at h
  split at h
  · next hl =>
    simp only [Parsed.whole.injEq] at h
    exact ⟨l.take n, hl, by rw [← h.2, List.take_append_drop], h.1.symm⟩
  · simp at h

theorem parseVectors_whole {n : Nat} {mk : List Byte → List Byte → Instr} {l after : List Byte} {i : Instr}
    (h : parseVectors listReader n mk l = .whole i after) :
    ∃ v w, v.length = n ∧ w.length = n ∧ l = v ++ (w ++ after) ∧ i = mk v w := by
  simp only [parseVectors, readVector_list] at h
  split at h
  · next hl =>
    obtain ⟨w, hw, he, rfl⟩ := parseVector_whole h
    exact ⟨l.take n, w, hl, hw, by rw [← he, List.take_append_drop], rfl⟩
  · simp at h

theorem parseText_whole {fuel : Nat} {pre l after : List Byte} {i : Instr}
    (h : parseText listReader fuel pre l = .whole i after) :
    ∃ text, (∀ b ∈ text, b ≠ 0#8) ∧ l = text ++ 0#8 :: after ∧ i = .xcomment (pre ++ text) := by
  induction fuel generalizing pre l with
  | zero => simp [parseText] at h
  | succ fuel ih =>
    cases l with
    | nil => simp [parseText] at h
    | cons b l =>
      simp only [parseText, listReader_cons] at h
      split at h
      · next hb =>
        simp only [Parsed.whole.injEq] at h
        exact ⟨[], by simp, by simp [h.2, hb], by simp [h.1]⟩
      · next hb =>
        obtain ⟨text, h1, h2, h3⟩ := ih h
        exact ⟨b :: text, by simpa [hb] using h1, by simp [h2], by simp [h3]⟩

end Sys2Proof
end

