-- ==== Sys2Proof/Laws/PerInstr.lean ====
section
/-! SUPPORT. Statements about every record as syntax, proved record by record. -/

namespace Sys2Proof.Laws.RecordLength

/-- A whole record is exactly as long as R102's length column says. -/
def Statement (i : Instr) : Prop := ∀ d, WellFormed d i → (encode i).length = recordBytes d i

theorem xcomplete : Statement .xcomplete := fun _ _ => rfl
theorem xtdomask (mask : List Byte) : Statement (.xtdomask mask) := fun d h => by
  simp [WellFormed, Instr.wellFormed] at h; simp [encode, recordBytes]; omega
theorem xsir (len : Byte) (tdi : List Byte) : Statement (.xsir len tdi) := fun d h => by
  simp [WellFormed, Instr.wellFormed] at h; simp [encode, recordBytes]; omega
theorem xsdr (tdi : List Byte) : Statement (.xsdr tdi) := fun d h => by
  simp [WellFormed, Instr.wellFormed] at h; simp [encode, recordBytes]; omega
theorem xruntest (us : Word) : Statement (.xruntest us) := fun _ _ => rfl
theorem xrepeat (n : Byte) : Statement (.xrepeat n) := fun _ _ => rfl
theorem xsdrsize (bits : Word) : Statement (.xsdrsize bits) := fun _ _ => rfl
theorem xsdrtdo (tdi exp : List Byte) : Statement (.xsdrtdo tdi exp) := fun d h => by
  simp [WellFormed, Instr.wellFormed] at h; simp [encode, recordBytes]; omega
theorem xsetsdrmasks (addr data : List Byte) : Statement (.xsetsdrmasks addr data) := fun d h => by
  simp [WellFormed, Instr.wellFormed] at h; simp [encode, recordBytes]; omega
theorem xsdrinc (tdi : List Byte) : Statement (.xsdrinc tdi) := fun d h => by
  simp [WellFormed, Instr.wellFormed] at h; simp [encode, recordBytes]; omega
theorem xsdrb (tdi : List Byte) : Statement (.xsdrb tdi) := fun d h => by
  simp [WellFormed, Instr.wellFormed] at h; simp [encode, recordBytes]; omega
theorem xsdrc (tdi : List Byte) : Statement (.xsdrc tdi) := fun d h => by
  simp [WellFormed, Instr.wellFormed] at h; simp [encode, recordBytes]; omega
theorem xsdre (tdi : List Byte) : Statement (.xsdre tdi) := fun d h => by
  simp [WellFormed, Instr.wellFormed] at h; simp [encode, recordBytes]; omega
theorem xsdrtdob (tdi exp : List Byte) : Statement (.xsdrtdob tdi exp) := fun d h => by
  simp [WellFormed, Instr.wellFormed] at h; simp [encode, recordBytes]; omega
theorem xsdrtdoc (tdi exp : List Byte) : Statement (.xsdrtdoc tdi exp) := fun d h => by
  simp [WellFormed, Instr.wellFormed] at h; simp [encode, recordBytes]; omega
theorem xsdrtdoe (tdi exp : List Byte) : Statement (.xsdrtdoe tdi exp) := fun d h => by
  simp [WellFormed, Instr.wellFormed] at h; simp [encode, recordBytes]; omega
theorem xstate (state : Byte) : Statement (.xstate state) := fun _ _ => rfl
theorem xendir (code : Byte) : Statement (.xendir code) := fun _ _ => rfl
theorem xenddr (code : Byte) : Statement (.xenddr code) := fun _ _ => rfl
theorem xsir2 (len : Half) (tdi : List Byte) : Statement (.xsir2 len tdi) := fun d h => by
  simp [WellFormed, Instr.wellFormed] at h; simp [encode, recordBytes, bytes16]; omega
theorem xcomment (text : List Byte) : Statement (.xcomment text) := fun _ _ => by
  simp [encode, recordBytes]; omega
theorem xwait (start stop : Byte) (us : Word) : Statement (.xwait start stop us) := fun _ _ => rfl
theorem xwaitstate (start stop : Byte) (clocks us : Word) :
    Statement (.xwaitstate start stop clocks us) := fun _ _ => rfl
theorem xtrst (mode : Byte) : Statement (.xtrst mode) := fun _ _ => rfl

end Sys2Proof.Laws.RecordLength
end

