-- ==== Sys2Proof/Laws/Session.lean ====
section
/-! SUPPORT. The end of a session: what it writes, and when the loop test comes to it. -/

namespace Sys2Proof.Machine

/-- The end of a session as one update. -/
theorem endSession_eq (s : State) : endSession s = { s with
    phase := if s.ctx.complete then .completed else .failed
    pins := { s.pins with mode := .highZ }
    trace := s.trace ++ trailer s } := by
  simp [endSession, releasePins, reportStatus, checksumLine, trailer, emit]

/-- The loop test goes on, or ends the session (R356). -/
theorem loopTest_cases (s : State) :
    (s.ctx.complete = false ∧ s.ctx.error = .none ∧ loopTest s = s) ∨
    ((s.ctx.complete = true ∨ s.ctx.error ≠ .none) ∧ loopTest s = endSession s) := by
  by_cases h1 : s.ctx.complete = true
  · exact .inr ⟨.inl h1, by simp [loopTest, sessionOver, h1]⟩
  · by_cases h2 : s.ctx.error = .none
    · exact .inl ⟨by simpa using h1, h2, by simp at h1; simp [loopTest, sessionOver, h1, h2]⟩
    · exact .inr ⟨.inr h2, by simp at h1; simp [loopTest, sessionOver, h1, h2]⟩

/-- The last event of a session's end is the release. -/
theorem trailer_getLast? (s : State) : (trailer s).getLast? = some .release := by
  rw [trailer]
  exact List.getLast?_concat

/-- No event of a session's end is a clock. -/
theorem trailer_tap (s : State) (t : TapState) : (trailer s).foldl tapAfter t = t := by
  unfold trailer
  by_cases h : Config.csumEnabled = true <;> simp [h, tapAfter]

theorem trailer_latch (s : State) (l : Bool) : (trailer s).foldl latchAfter l = l := by
  unfold trailer
  by_cases h : Config.csumEnabled = true <;> simp [h, latchAfter]

theorem trailer_clockCount (s : State) : clockCount (trailer s) = 0 := by
  unfold trailer clockCount
  by_cases h : Config.csumEnabled = true <;> simp [h, isClk]

end Sys2Proof.Machine
end

