-- ==== Sys2Proof/Laws/Stream.lean ====
section
/-! SUPPORT. The stream reader: what a refill and a byte read do to the bytes still to come, what they leave
alone, and that reading a record from the stream is reading it from the list of its bytes. -/

namespace Sys2Proof.Machine

/-! ## Polls -/

theorem pollLoop_le (polls room left : Nat) (e : Env) :
    (pollLoop polls room left e).1 ≤ room ∧ (pollLoop polls room left e).1 ≤ left := by
  induction polls generalizing room left e with
  | zero => simp [pollLoop]
  | succ polls ih =>
    rw [pollLoop]
    split
    · simp
    · have := ih (room - min e.drawPoll.1 (min room left)) (left - min e.drawPoll.1 (min room left))
        e.drawPoll.2
      dsimp only; omega

theorem refillCount_le {delivered left room : Nat} (h : delivered ≤ room ∧ delivered ≤ left)
    (hr : 0 < room) : refillCount delivered left ≤ room ∧ refillCount delivered left ≤ left := by
  unfold refillCount
  repeat' split
  all_goals omega

/-! ## The host stream -/

@[simp] theorem ending_byte (bytes : List Byte) (i : Nat) : (HostStream.ending bytes).byte i = bytes[i]? := by
  by_cases h : i < bytes.length <;> simp [HostStream.byte, HostStream.ending, h]

theorem byte_of_lt_offer {h : HostStream} {i : Nat} (hi : i < h.offer) :
    h.byte i = some ((h.byte i).getD 0#8) := by
  unfold HostStream.byte
  unfold HostStream.offer at hi
  split
  · rfl
  · cases he : h.endless with
    | none => simp [he] at hi; omega
    | some k => rfl

/-- A stream offers nothing exactly where it has come to its end. -/
theorem offer_eq_zero {h : HostStream} : h.offer = 0 ↔ h.byte 0 = none := by
  cases he : h.endless with
  | none => cases hl : h.listed <;> simp [HostStream.offer, HostStream.byte, he, hl]
  | some k => cases hl : h.listed <;> simp [HostStream.offer, HostStream.byte, he, hl, Config.stageCap]

@[simp] theorem take_length (h : HostStream) (n : Nat) : (h.take n).length = n := by simp [HostStream.take]

theorem take_getD (h : HostStream) {n i : Nat} (hi : i < n) :
    (h.take n).getD i 0#8 = (h.byte i).getD 0#8 := by
  simp [HostStream.take, List.getD_eq_getElem?_getD, hi]

theorem byte_drop (h : HostStream) (n i : Nat) : (h.drop n).byte i = h.byte (n + i) := by
  unfold HostStream.byte HostStream.drop
  dsimp only
  by_cases hi : n + i < h.listed.length
  · rw [if_pos (by simp; omega), if_pos hi]
    simp [List.getD_eq_getElem?_getD]
  · rw [if_neg (by simp; omega), if_neg hi, Option.map_map]
    congr 1
    funext k
    simp only [Function.comp, List.length_drop]
    congr 1; omega

theorem drop_endless (h : HostStream) (n : Nat) : (h.drop n).endless = none ↔ h.endless = none := by
  simp [HostStream.drop]

/-! ## Refill -/

/-- The bytes a refill delivers. -/
def refillBytes (s : State) : Nat :=
  refillCount (pollLoop Config.pollRetries Config.stageCap s.env.host.offer s.env).1 s.env.host.offer

theorem refillBytes_le (s : State) : refillBytes s ≤ 62 ∧ refillBytes s ≤ s.env.host.offer :=
  refillCount_le (pollLoop_le _ _ _ _) (by decide)

/-- A refill delivers nothing only at the end of the host stream, or where the host need not be timely. -/
theorem refillBytes_zero {s : State} (h : refillBytes s = 0) :
    s.env.host.byte 0 = none ∨ Config.hostTimely = false := by
  rw [← offer_eq_zero]
  unfold refillBytes refillCount at h
  split at h
  · split at h
    · next h0 => exact .inl h0
    · split at h
      · simp at h
      · next ht => exact .inr (by simpa using ht)
  · contradiction

theorem refill_fst (s : State) : (refill s).1 = (refillBytes s != 0) := rfl
theorem refill_stage (s : State) :
    (refill s).2.stage = s.stage.store 0 (s.env.host.take (refillBytes s)) := rfl
theorem refill_host (s : State) : (refill s).2.env.host = s.env.host.drop (refillBytes s) := rfl
theorem refill_ctx (s : State) :
    (refill s).2.ctx = { s.ctx with rd := 0, wr := Fin.ofNat 63 (refillBytes s) } := rfl
theorem refill_trace (s : State) :
    (refill s).2.trace = s.trace ++ [.reqMore Config.stageCap] := rfl

theorem refill_wr (s : State) : (refill s).2.ctx.wr.val = refillBytes s := by
  have := (refillBytes_le s).1
  rw [refill_ctx]
  exact Nat.mod_eq_of_lt (by omega)

/-- The bytes a refill puts at the front of the staging buffer are the next ones of the host stream. -/
theorem refill_staged {s : State} {i : Nat} (h : i < refillBytes s) :
    s.env.host.byte i = some ((refill s).2.stage.get i) := by
  rw [refill_stage, get_store_zero _ _ _ (by simpa using h), take_getD _ h]
  exact byte_of_lt_offer (Nat.lt_of_lt_of_le h (refillBytes_le s).2)

/-! ## What is still to come -/

theorem takeByte_rd {s : State} (h : s.ctx.rd < s.ctx.wr) :
    (takeByte s).2.ctx.rd.val = s.ctx.rd.val + 1 := by
  have hlt : s.ctx.rd.val < s.ctx.wr.val := h
  exact Nat.mod_eq_of_lt (by omega)

theorem takeByte_pending {s : State} (h : s.ctx.rd < s.ctx.wr) :
    pendingByte s 0 = some (takeByte s).1 ∧ ∀ i, pendingByte (takeByte s).2 i = pendingByte s (i + 1) := by
  have hlt : s.ctx.rd.val < s.ctx.wr.val := h
  refine ⟨by simp [pendingByte, takeByte, hlt], fun i => ?_⟩
  unfold pendingByte
  rw [takeByte_rd h]
  show (if i < s.ctx.wr.val - (s.ctx.rd.val + 1) then some (s.stage.get (s.ctx.rd.val + 1 + i))
    else s.env.host.byte (i - (s.ctx.wr.val - (s.ctx.rd.val + 1)))) = _
  by_cases hi : i + 1 < s.ctx.wr.val - s.ctx.rd.val
  · rw [if_pos (by omega), if_pos hi]
    congr 2; omega
  · rw [if_neg (by omega), if_neg hi]
    congr 1; omega

theorem refill_pending (s : State) (i : Nat) : pendingByte (refill s).2 i = s.env.host.byte i := by
  unfold pendingByte
  rw [refill_wr, show (refill s).2.ctx.rd.val = 0 from rfl, refill_host]
  simp only [Nat.sub_zero, Nat.zero_add]
  split
  · next h => exact (refill_staged h).symm
  · rw [byte_drop]; congr 1; omega

theorem pendingByte_exhausted {s : State} (h : ¬ s.ctx.rd < s.ctx.wr) (i : Nat) :
    pendingByte s i = s.env.host.byte i := by
  have : ¬ s.ctx.rd.val < s.ctx.wr.val := h
  simp [pendingByte, show s.ctx.wr.val - s.ctx.rd.val = 0 by omega]

/-! ## How many bytes are left -/

theorem takeByte_bytesLeft {s : State} (h : s.ctx.rd < s.ctx.wr) :
    bytesLeft s = bytesLeft (takeByte s).2 + 1 := by
  have hlt : s.ctx.rd.val < s.ctx.wr.val := h
  unfold bytesLeft
  rw [takeByte_rd h]
  show _ = s.ctx.wr.val - (s.ctx.rd.val + 1) + s.env.host.listed.length + 1
  omega

theorem refill_bytesLeft {s : State} (h : ¬ s.ctx.rd < s.ctx.wr) (he : s.env.host.endless = none) :
    bytesLeft (refill s).2 = bytesLeft s := by
  have h' : ¬ s.ctx.rd.val < s.ctx.wr.val := h
  have hk := (refillBytes_le s).2
  rw [HostStream.offer, if_pos he] at hk
  unfold bytesLeft
  rw [refill_wr, show (refill s).2.ctx.rd.val = 0 from rfl, refill_host, HostStream.drop]
  simp only [List.length_drop]
  omega

/-! ## Reads leave the rest alone -/

theorem OnlyRead.refl (s : State) : OnlyRead s s := ⟨rfl, rfl, rfl, rfl, rfl, rfl, 0, by simp⟩

theorem OnlyRead.trans {s t u : State} (h : OnlyRead s t) (k : OnlyRead t u) : OnlyRead s u := by
  obtain ⟨n, hn⟩ := h.trace
  obtain ⟨m, hm⟩ := k.trace
  refine ⟨by rw [k.ctx, h.ctx], k.bufs.trans h.bufs, k.tap.trans h.tap, k.pins.trans h.pins,
    k.phase.trans h.phase, k.comment.trans h.comment, n + m, ?_⟩
  rw [hm, hn, List.append_assoc, List.replicate_append_replicate]

theorem takeByte_onlyRead (s : State) : OnlyRead s (takeByte s).2 :=
  ⟨rfl, rfl, rfl, rfl, rfl, rfl, 0, by simp [takeByte]⟩

theorem refill_onlyRead (s : State) : OnlyRead s (refill s).2 :=
  ⟨rfl, rfl, rfl, rfl, rfl, rfl, 1, rfl⟩

/-! ## NextByte -/

/-- Everything `NextByte` can do (R74). -/
theorem nextByte_cases (s : State) :
    (s.ctx.rd < s.ctx.wr ∧ nextByte s = (some (takeByte s).1, (takeByte s).2)) ∨
    (¬ s.ctx.rd < s.ctx.wr ∧ (refill s).1 = true ∧ (refill s).2.ctx.rd < (refill s).2.ctx.wr ∧
      nextByte s = (some (takeByte (refill s).2).1, (takeByte (refill s).2).2)) ∨
    (¬ s.ctx.rd < s.ctx.wr ∧ (refill s).1 = false ∧ nextByte s = (none, (refill s).2)) := by
  by_cases h : s.ctx.rd < s.ctx.wr
  · exact .inl ⟨h, by simp [nextByte, h]⟩
  · by_cases h2 : (refill s).1 = true
    · refine .inr (.inl ⟨h, h2, ?_, by simp [nextByte, h, h2]⟩)
      rw [refill_fst, bne_iff_ne] at h2
      show (refill s).2.ctx.rd.val < (refill s).2.ctx.wr.val
      rw [refill_wr, refill_ctx]
      show 0 < _
      omega
    · exact .inr (.inr ⟨h, by simpa using h2, by simp [nextByte, h, h2]⟩)

theorem pollLoop_idle (n room left : Nat) {e : Env} (h : e.polls = List.replicate n 0) :
    (pollLoop n room left e).1 = 0 := by
  induction n generalizing e with
  | zero => rfl
  | succ n ih =>
    rw [pollLoop]
    split
    · rfl
    · have draw : e.drawPoll = (0, { e with polls := List.replicate n 0 }) := by
        simp [Env.drawPoll, h, List.replicate_succ]
      simp [draw, ih]

/-- Where no poll of a refill finds a byte, a host that need not be timely fails the read. -/
theorem nextByte_late {s : State} (h : s.env.polls = List.replicate Config.pollRetries 0)
    (hc : ¬ s.ctx.rd < s.ctx.wr) (ht : Config.hostTimely = false) : ∃ t, nextByte s = (none, t) := by
  have idle : (refill s).1 = false := by
    rw [refill_fst, refillBytes, pollLoop_idle _ _ _ h, refillCount]
    simp [ht]
  exact ⟨(refill s).2, by simp [nextByte, hc, idle]⟩

/-- A byte read is the next byte still to come, checksummed and counted. -/
theorem nextByte_some {s t : State} {b : Byte} (h : nextByte s = (some b, t)) :
    pendingByte s 0 = some b ∧ (∀ i, pendingByte t i = pendingByte s (i + 1)) ∧
    t.ctx.consumed = s.ctx.consumed + 1#32 ∧
    t.ctx.checksum = s.ctx.checksum + BitVec.ofNat Config.csumBits b.toNat ∧ OnlyRead s t := by
  obtain ⟨hc, he⟩ | ⟨hc, -, hlt, he⟩ | ⟨-, -, he⟩ := nextByte_cases s
  · obtain ⟨rfl, rfl⟩ := by simpa using he.symm.trans h
    exact ⟨(takeByte_pending hc).1, (takeByte_pending hc).2, rfl, rfl, takeByte_onlyRead s⟩
  · obtain ⟨rfl, rfl⟩ := by simpa using he.symm.trans h
    have hp := takeByte_pending hlt
    simp only [refill_pending, ← pendingByte_exhausted hc] at hp
    exact ⟨hp.1, hp.2, rfl, rfl, (refill_onlyRead s).trans (takeByte_onlyRead _)⟩
  · simp [he] at h

/-- A failed read gives nothing and takes nothing. -/
theorem nextByte_none {s t : State} (h : nextByte s = (none, t)) :
    ¬ s.ctx.rd < s.ctx.wr ∧ (∀ i, pendingByte t i = pendingByte s i) ∧ t.ctx.consumed = s.ctx.consumed ∧
    t.ctx.checksum = s.ctx.checksum ∧ OnlyRead s t ∧ t = (refill s).2 ∧ (refill s).1 = false := by
  obtain ⟨hc, he⟩ | ⟨hc, -, hlt, he⟩ | ⟨hc, hf, he⟩ := nextByte_cases s
  · simp [he] at h
  · simp [he] at h
  · obtain rfl := by simpa using he.symm.trans h
    exact ⟨hc, fun i => by rw [refill_pending, pendingByte_exhausted hc], rfl, rfl, refill_onlyRead s, rfl, hf⟩

/-- From a stream that ends, a read takes one of the bytes that are left, or none. -/
theorem nextByte_bytesLeft {s : State} (he : s.env.host.endless = none) :
    bytesLeft s = bytesLeft (nextByte s).2 + if (nextByte s).1.isSome then 1 else 0 := by
  obtain ⟨hc, e⟩ | ⟨hc, -, hlt, e⟩ | ⟨hc, -, e⟩ := nextByte_cases s <;> rw [e]
  · exact takeByte_bytesLeft hc
  · rw [← refill_bytesLeft hc he]; exact takeByte_bytesLeft hlt
  · exact (refill_bytesLeft hc he).symm

/-- Whether a host stream ends does not change by reading it. -/
theorem nextByte_endless (s : State) :
    (nextByte s).2.env.host.endless = none ↔ s.env.host.endless = none := by
  obtain ⟨-, e⟩ | ⟨-, -, -, e⟩ | ⟨-, -, e⟩ := nextByte_cases s <;> rw [e]
  · exact .rfl
  · exact drop_endless _ _
  · exact drop_endless _ _

/-- Counting an opcode and reading a byte do not meet. -/
theorem nextByte_countInstr (s : State) :
    nextByte (countInstr s) = ((nextByte s).1, countInstr (nextByte s).2) := by
  have hr : refill (countInstr s) = ((refill s).1, countInstr (refill s).2) := rfl
  have ht (u : State) : takeByte (countInstr u) = ((takeByte u).1, countInstr (takeByte u).2) := rfl
  unfold nextByte
  rw [hr]
  simp only [ht, countInstr_ctx_rd, countInstr_ctx_wr]
  split
  · rfl
  · split <;> rfl

/-- Nor do reading a byte and the comment that is half read. -/
theorem nextByte_comment (c : Option (List Byte)) (s : State) :
    nextByte { s with comment := c } = ((nextByte s).1, { (nextByte s).2 with comment := c }) := by
  have hr : refill { s with comment := c } = ((refill s).1, { (refill s).2 with comment := c }) := rfl
  have ht (u : State) :
      takeByte { u with comment := c } = ((takeByte u).1, { (takeByte u).2 with comment := c }) := rfl
  unfold nextByte
  rw [hr]
  simp only [ht]
  split
  · rfl
  · split <;> rfl

/-! ## Vectors -/

/-- The bytes a run of reads gives are the next ones still to come, in order, each checksummed and counted
once, however the refills split them. -/
theorem readVector_spec (n : Nat) (s : State) :
    let r := readVector nextByte n s
    r.1.length ≤ n ∧ (∀ i, i < r.1.length → pendingByte s i = some (r.1.getD i 0#8)) ∧
    (∀ i, pendingByte r.2 i = pendingByte s (r.1.length + i)) ∧
    r.2.ctx.consumed = s.ctx.consumed + BitVec.ofNat 32 r.1.length ∧
    r.2.ctx.checksum = checksumAfter s.ctx.checksum r.1 ∧ OnlyRead s r.2 := by
  induction n generalizing s with
  | zero => simp [readVector, checksumAfter, OnlyRead.refl]
  | succ n ih =>
    rw [readVector]
    rcases h : nextByte s with ⟨_ | b, s1⟩
    · obtain ⟨-, hp, hc, hs, ho, -⟩ := nextByte_none h
      simp [hp, hc, hs, ho, checksumAfter]
    · obtain ⟨hb, hp, hc, hs, ho⟩ := nextByte_some h
      obtain ⟨h1, h2, h3, h4, h5, h6⟩ := ih s1
      refine ⟨by simpa using h1, fun i hi => ?_, fun i => ?_, ?_, ?_, ho.trans h6⟩
      · cases i with
        | zero => exact hb
        | succ i => rw [← hp, h2 i (by simpa using hi)]; rfl
      · simp only [h3, hp, List.length_cons]
        congr 1; omega
      · simp only [h4, hc, List.length_cons, BitVec.ofNat_add]; rw [BitVec.add_assoc]
        congr 1; exact BitVec.add_comm _ _
      · simp only [h5, hs]; rfl

/-- From a stream that ends, a run of reads takes as many of the bytes that are left as it gives. -/
theorem readVector_bytesLeft (n : Nat) {s : State} (he : s.env.host.endless = none) :
    bytesLeft s = (readVector nextByte n s).1.length + bytesLeft (readVector nextByte n s).2 := by
  induction n generalizing s with
  | zero => simp [readVector]
  | succ n ih =>
    have one := nextByte_bytesLeft he
    have he1 := (nextByte_endless s).mpr he
    rw [readVector]
    rcases h : nextByte s with ⟨_ | b, s1⟩ <;> rw [h] at one he1
    · simpa using one
    · have := ih (s := s1) he1
      simp only [Option.isSome_some, if_true] at one
      show _ = (b :: (readVector nextByte n s1).1).length + bytesLeft (readVector nextByte n s1).2
      rw [List.length_cons]
      omega

/-! ## Reading a record from the stream

`Follows t bytes s`: from `s` the stream gives the bytes `bytes` and is then at `t`. -/

/-- From `s` the stream gives `bytes` and is then at `t`. -/
def Follows (t : State) (bytes : List Byte) (s : State) : Prop :=
  readVector nextByte bytes.length s = (bytes, t)

theorem follows_nil {s t : State} : Follows t [] s ↔ s = t := by simp [Follows, readVector]

theorem Follows.cons {t s : State} {b : Byte} {bytes : List Byte} (h : Follows t (b :: bytes) s) :
    ∃ s1, nextByte s = (some b, s1) ∧ Follows t bytes s1 := by
  unfold Follows at h
  rw [List.length_cons, readVector] at h
  rcases hn : nextByte s with ⟨_ | c, s1⟩
  · simp [hn] at h
  · simp only [hn, Prod.mk.injEq, List.cons.injEq] at h
    obtain ⟨⟨rfl, hv⟩, ht⟩ := h
    exact ⟨s1, rfl, Prod.ext hv ht⟩

theorem Follows.countInstr {t s : State} {bytes : List Byte} (h : Follows t bytes s) :
    Follows (countInstr t) bytes (countInstr s) := by
  induction bytes generalizing s with
  | nil => rw [follows_nil] at h ⊢; rw [h]
  | cons b bytes ih =>
    obtain ⟨s1, hn, hf⟩ := h.cons
    have := ih hf
    unfold Follows at this ⊢
    rw [List.length_cons, readVector, nextByte_countInstr, hn]
    simp [this]

theorem Follows.bytesLeft {t s : State} {bytes : List Byte} (h : Follows t bytes s)
    (he : s.env.host.endless = none) : bytes.length ≤ bytesLeft s := by
  have := readVector_bytesLeft bytes.length he
  rw [h] at this
  simp only at this
  omega

/-- A reading of the list and the reading of the stream it follows come to the same record. -/
def Agree (t : State) (p : Parsed (List Byte)) (q : Parsed State) : Prop :=
  ∀ i rest, p = .whole i rest → ∃ s, q = .whole i s ∧ Follows t rest s

theorem parseByte_agree {t s : State} {bytes : List Byte} (h : Follows t bytes s)
    {k : Byte → List Byte → Parsed (List Byte)} {k' : Byte → State → Parsed State}
    (hk : ∀ b bytes s, Follows t bytes s → Agree t (k b bytes) (k' b s)) :
    Agree t (parseByte listReader bytes k) (parseByte nextByte s k') := by
  cases bytes with
  | nil => intro i rest hp; simp [parseByte, listReader] at hp
  | cons b bytes =>
    obtain ⟨s1, hn, hf⟩ := h.cons
    intro i rest hp
    simp only [parseByte, listReader, hn] at hp ⊢
    exact hk b bytes s1 hf i rest hp

theorem parseLong_agree {t s : State} {bytes : List Byte} (h : Follows t bytes s)
    {k : Word → List Byte → Parsed (List Byte)} {k' : Word → State → Parsed State}
    (hk : ∀ w bytes s, Follows t bytes s → Agree t (k w bytes) (k' w s)) :
    Agree t (parseLong listReader bytes k) (parseLong nextByte s k') :=
  parseByte_agree h fun _ _ _ h => parseByte_agree h fun _ _ _ h => parseByte_agree h fun _ _ _ h =>
    parseByte_agree h fun _ _ _ h => hk _ _ _ h

theorem whole_agree {t s : State} {bytes : List Byte} (h : Follows t bytes s) (i : Instr) :
    Agree t (.whole i bytes) (.whole i s) := by
  rintro j rest hp
  obtain ⟨rfl, rfl⟩ := by simpa using hp
  exact ⟨s, rfl, h⟩

theorem readVector_follows {t : State} (n : Nat) {s : State} {bytes : List Byte} (h : Follows t bytes s)
    (hl : (readVector listReader n bytes).1.length = n) :
    (readVector nextByte n s).1 = (readVector listReader n bytes).1 ∧
    Follows t (readVector listReader n bytes).2 (readVector nextByte n s).2 := by
  induction n generalizing s bytes with
  | zero => exact ⟨rfl, h⟩
  | succ n ih =>
    cases bytes with
    | nil => simp [readVector, listReader] at hl
    | cons b bytes =>
      obtain ⟨s1, hn, hf⟩ := h.cons
      simp only [readVector, listReader, List.length_cons, Nat.add_right_cancel_iff] at hl
      obtain ⟨h1, h2⟩ := ih hf hl
      simp only [readVector, listReader, hn]
      exact ⟨by rw [h1], h2⟩

theorem parseVector_agree {t s : State} {bytes : List Byte} (h : Follows t bytes s) (n : Nat)
    (mk : List Byte → Instr) :
    Agree t (parseVector listReader n mk bytes) (parseVector nextByte n mk s) := by
  intro i rest hp
  simp only [parseVector] at hp ⊢
  split at hp
  · next hl =>
    obtain ⟨h1, h2⟩ := readVector_follows n h hl
    obtain ⟨rfl, rfl⟩ := by simpa using hp
    exact ⟨_, by rw [h1, if_pos hl], h2⟩
  · simp at hp

theorem parseVectors_agree {t s : State} {bytes : List Byte} (h : Follows t bytes s) (n : Nat)
    (mk : List Byte → List Byte → Instr) :
    Agree t (parseVectors listReader n mk bytes) (parseVectors nextByte n mk s) := by
  intro i rest hp
  simp only [parseVectors] at hp ⊢
  split at hp
  · next hl =>
    obtain ⟨h1, h2⟩ := readVector_follows n h hl
    rw [h1, if_pos hl]
    exact parseVector_agree h2 n _ i rest hp
  · simp at hp

theorem parseText_agree {t : State} (fuel fuel' : Nat) (text : List Byte) {s : State} {bytes : List Byte}
    (h : Follows t bytes s) (hf : bytes.length < fuel') :
    Agree t (parseText listReader fuel text bytes) (parseText nextByte fuel' text s) := by
  induction fuel generalizing fuel' text s bytes with
  | zero => intro i rest hp; simp [parseText] at hp
  | succ fuel ih =>
    cases bytes with
    | nil => intro i rest hp; simp [parseText, listReader] at hp
    | cons b bytes =>
      obtain ⟨s1, hn, hfw⟩ := h.cons
      obtain ⟨f, rfl⟩ : ∃ f, fuel' = f + 1 := ⟨fuel' - 1, by omega⟩
      intro i rest hp
      simp only [parseText, listReader, hn] at hp ⊢
      split at hp
      · next hb => rw [if_pos hb]; exact whole_agree hfw _ i rest hp
      · next hb => rw [if_neg hb]; exact ih f _ hfw (by simpa using hf) i rest hp

/-- Reading a record's parameters from the stream is reading them from the list of its bytes, given reads
enough for a comment's text. -/
theorem parseBody_agree {t s : State} {bytes : List Byte} (h : Follows t bytes s) (d fuel fuel' : Nat)
    (op : Byte) (hf : op = 0x16#8 → bytes.length < fuel') :
    Agree t (parseBody listReader d fuel op bytes) (parseBody nextByte d fuel' op s) := by
  unfold parseBody
  split
  case h_21 ho => exact parseText_agree fuel fuel' [] h (hf (BitVec.eq_of_toNat_eq ho))
  case h_25 => intro i rest hp; simp at hp
  case h_20 =>
    exact parseByte_agree h fun _ _ _ h => parseByte_agree h fun _ _ _ h => parseVector_agree h _ _
  case h_22 =>
    exact parseByte_agree h fun _ _ _ h => parseByte_agree h fun _ _ _ h =>
      parseLong_agree h fun _ _ _ h => whole_agree h _
  case h_23 =>
    exact parseByte_agree h fun _ _ _ h => parseByte_agree h fun _ _ _ h =>
      parseLong_agree h fun _ _ _ h => parseLong_agree h fun _ _ _ h => whole_agree h _
  case h_3 => exact parseByte_agree h fun _ _ _ h => parseVector_agree h _ _
  all_goals first
    | exact whole_agree h _
    | exact parseVector_agree h _ _
    | exact parseVectors_agree h _ _
    | exact parseLong_agree h fun _ _ _ h => whole_agree h _
    | exact parseByte_agree h fun _ _ _ h => whole_agree h _

/-- A text that comes to its end is a comment. -/
theorem parseText_comment {σ : Type} {next : Reader σ} {fuel : Nat} {text : List Byte} {s rest : σ} {i : Instr}
    (h : parseText next fuel text s = .whole i rest) : ∃ text, i = .xcomment text := by
  induction fuel generalizing text s with
  | zero => simp [parseText] at h
  | succ fuel ih =>
    unfold parseText at h
    split at h
    · split at h
      · exact ⟨text, ((Parsed.whole.injEq _ _ _ _).mp h).1.symm⟩
      · exact ih h
    · simp at h

/-- Fetching a record whose bytes the stream gives fetches the record they decode to. -/
theorem fetchRecord_of_decode {s t : State} {bytes : List Byte} {i : Instr} (hc : s.comment = none)
    (he : s.env.host.endless = none ∨ ∀ text, i ≠ .xcomment text) (h : Follows t bytes s)
    (hd : decode s.ctx.drBytes.val bytes = .ok (i, [])) : fetchRecord s = .record i (countInstr t) := by
  cases bytes with
  | nil => simp [decode] at hd
  | cons op bytes =>
    obtain ⟨s1, hn, hf⟩ := h.cons
    simp only [decode] at hd
    rcases hp : parseBody listReader s.ctx.drBytes.val (bytes.length + 1) op bytes with
      ⟨j, after⟩ | _ | _ | _ <;> rw [hp] at hd
    · obtain ⟨rfl, rfl⟩ := by simpa using hd
      have reads (ho : op = 0x16#8) : bytes.length < commentReads s1 := by
        have he0 : s.env.host.endless = none := by
          rcases he with he | he
          · exact he
          · subst ho
            obtain ⟨text, rfl⟩ : ∃ text, j = .xcomment text := parseText_comment (by exact hp)
            exact absurd rfl (he text)
        have he1 : s1.env.host.endless = none := by
          have := nextByte_endless s
          rw [hn] at this
          exact this.mpr he0
        rw [commentReads, if_pos he1]
        exact Nat.lt_succ_of_le (hf.bytesLeft he1)
      obtain ⟨u, hq, hu⟩ := parseBody_agree hf.countInstr s.ctx.drBytes.val (bytes.length + 1)
        (commentReads s1) op reads j [] hp
      rw [follows_nil] at hu
      simp only [fetchRecord, hc, hn, hq, fetchedOf, hu]
    all_goals simp at hd

/-! ## A stream that ends inside a record

`Stops t bytes s`: from `s` the stream gives the bytes `bytes`, and the next read fails and leaves `t`. -/

/-- From `s` the stream gives `bytes` and no more, and the failed read leaves `t`. -/
def Stops (t : State) (bytes : List Byte) (s : State) : Prop :=
  readVector nextByte (bytes.length + 1) s = (bytes, t)

theorem stops_nil {s t : State} : Stops t [] s ↔ nextByte s = (none, t) := by
  simp only [Stops, List.length_nil, readVector]
  rcases nextByte s with ⟨_ | b, s1⟩ <;> simp

theorem Stops.cons {t s : State} {b : Byte} {bytes : List Byte} (h : Stops t (b :: bytes) s) :
    ∃ s1, nextByte s = (some b, s1) ∧ Stops t bytes s1 := by
  unfold Stops at h
  rw [List.length_cons, readVector] at h
  rcases hn : nextByte s with ⟨_ | c, s1⟩
  · simp [hn] at h
  · simp only [hn, Prod.mk.injEq, List.cons.injEq] at h
    obtain ⟨⟨rfl, hv⟩, ht⟩ := h
    exact ⟨s1, rfl, Prod.ext hv ht⟩

theorem Stops.countInstr {t s : State} {bytes : List Byte} (h : Stops t bytes s) :
    Stops (countInstr t) bytes (countInstr s) := by
  induction bytes generalizing s with
  | nil => rw [stops_nil] at h ⊢; rw [nextByte_countInstr, h]
  | cons b bytes ih =>
    obtain ⟨s1, hn, hf⟩ := h.cons
    have := ih hf
    unfold Stops at this ⊢
    rw [List.length_cons, readVector, nextByte_countInstr, hn]
    simp [this]

theorem Stops.bytesLeft {t s : State} {bytes : List Byte} (h : Stops t bytes s)
    (he : s.env.host.endless = none) : bytes.length ≤ bytesLeft s := by
  have := readVector_bytesLeft (bytes.length + 1) he
  rw [h] at this
  simp only at this
  omega

/-- A reading of the list and the reading of the stream that stops after it come to the same: the same
record, or the same part of one. -/
def AgreeStop (t : State) (p : Parsed (List Byte)) (q : Parsed State) : Prop :=
  (∀ i rest, p = .whole i rest → ∃ s, q = .whole i s ∧ Stops t rest s) ∧
  ∀ i rest, p = .cut i rest → q = .cut i t

theorem parseByte_stop {t s : State} {bytes : List Byte} (h : Stops t bytes s)
    {k : Byte → List Byte → Parsed (List Byte)} {k' : Byte → State → Parsed State}
    (hk : ∀ b bytes s, Stops t bytes s → AgreeStop t (k b bytes) (k' b s)) :
    AgreeStop t (parseByte listReader bytes k) (parseByte nextByte s k') := by
  cases bytes with
  | nil =>
    rw [stops_nil] at h
    simp only [parseByte, listReader, h]
    refine ⟨fun i rest hp => by simp at hp, fun i rest hp => ?_⟩
    simp only [Parsed.cut.injEq] at hp
    rw [hp.1]
  | cons b bytes =>
    obtain ⟨s1, hn, hf⟩ := h.cons
    simp only [parseByte, listReader, hn]
    exact hk b bytes s1 hf

theorem parseLong_stop {t s : State} {bytes : List Byte} (h : Stops t bytes s)
    {k : Word → List Byte → Parsed (List Byte)} {k' : Word → State → Parsed State}
    (hk : ∀ w bytes s, Stops t bytes s → AgreeStop t (k w bytes) (k' w s)) :
    AgreeStop t (parseLong listReader bytes k) (parseLong nextByte s k') :=
  parseByte_stop h fun _ _ _ h => parseByte_stop h fun _ _ _ h => parseByte_stop h fun _ _ _ h =>
    parseByte_stop h fun _ _ _ h => hk _ _ _ h

theorem whole_stop {t s : State} {bytes : List Byte} (h : Stops t bytes s) (i : Instr) :
    AgreeStop t (.whole i bytes) (.whole i s) := by
  refine ⟨fun j rest hp => ?_, fun j rest hp => by simp at hp⟩
  obtain ⟨rfl, rfl⟩ := by simpa using hp
  exact ⟨s, rfl, h⟩

theorem readVector_stops {t : State} (n : Nat) {s : State} {bytes : List Byte} (h : Stops t bytes s) :
    (readVector nextByte n s).1 = (readVector listReader n bytes).1 ∧
    if (readVector listReader n bytes).1.length = n
    then Stops t (readVector listReader n bytes).2 (readVector nextByte n s).2
    else (readVector nextByte n s).2 = t := by
  induction n generalizing s bytes with
  | zero => exact ⟨rfl, h⟩
  | succ n ih =>
    cases bytes with
    | nil => rw [stops_nil] at h; simp [readVector, listReader, h]
    | cons b bytes =>
      obtain ⟨s1, hn, hf⟩ := h.cons
      obtain ⟨h1, h2⟩ := ih hf
      simp only [readVector, listReader, hn, h1, List.length_cons, Nat.add_right_cancel_iff]
      exact ⟨trivial, h2⟩

theorem parseVector_stop {t s : State} {bytes : List Byte} (h : Stops t bytes s) (n : Nat)
    (mk : List Byte → Instr) :
    AgreeStop t (parseVector listReader n mk bytes) (parseVector nextByte n mk s) := by
  obtain ⟨h1, h2⟩ := readVector_stops n h
  simp only [parseVector, h1]
  split
  · next hl =>
    rw [if_pos hl] at h2
    exact whole_stop h2 _
  · next hl =>
    rw [if_neg hl] at h2
    refine ⟨fun i rest hp => by simp at hp, fun i rest hp => ?_⟩
    simp only [Parsed.cut.injEq] at hp
    rw [hp.1, h2]

theorem parseVectors_stop {t s : State} {bytes : List Byte} (h : Stops t bytes s) (n : Nat)
    (mk : List Byte → List Byte → Instr) :
    AgreeStop t (parseVectors listReader n mk bytes) (parseVectors nextByte n mk s) := by
  obtain ⟨h1, h2⟩ := readVector_stops n h
  simp only [parseVectors, h1]
  split
  · next hl =>
    rw [if_pos hl] at h2
    exact parseVector_stop h2 _ _
  · next hl =>
    rw [if_neg hl] at h2
    refine ⟨fun i rest hp => by simp at hp, fun i rest hp => ?_⟩
    simp only [Parsed.cut.injEq] at hp
    rw [hp.1, h2]

theorem parseText_stop {t : State} (fuel fuel' : Nat) (text : List Byte) {s : State} {bytes : List Byte}
    (h : Stops t bytes s) (hf : bytes.length < fuel) (hf' : bytes.length < fuel') :
    AgreeStop t (parseText listReader fuel text bytes) (parseText nextByte fuel' text s) := by
  induction bytes generalizing fuel fuel' text s with
  | nil =>
    obtain ⟨f, rfl⟩ : ∃ f, fuel = f + 1 := ⟨fuel - 1, by simp at hf; omega⟩
    obtain ⟨f', rfl⟩ : ∃ f, fuel' = f + 1 := ⟨fuel' - 1, by simp at hf'; omega⟩
    rw [stops_nil] at h
    simp only [parseText, listReader, h]
    refine ⟨fun i rest hp => by simp at hp, fun i rest hp => ?_⟩
    simp only [Parsed.cut.injEq] at hp
    rw [hp.1]
  | cons b bytes ih =>
    obtain ⟨f, rfl⟩ : ∃ f, fuel = f + 1 := ⟨fuel - 1, by simp at hf; omega⟩
    obtain ⟨f', rfl⟩ : ∃ f, fuel' = f + 1 := ⟨fuel' - 1, by simp at hf'; omega⟩
    obtain ⟨s1, hn, hfw⟩ := h.cons
    simp only [parseText, listReader, hn]
    split
    · exact whole_stop hfw _
    · exact ih f f' _ hfw (by simpa using hf) (by simpa using hf')

/-- Reading a record's parameters from a stream that stops is reading them from the list of its bytes. -/
theorem parseBody_stop {t s : State} {bytes : List Byte} (h : Stops t bytes s) (d fuel fuel' : Nat)
    (op : Byte) (hf : bytes.length < fuel) (hf' : op = 0x16#8 → bytes.length < fuel') :
    AgreeStop t (parseBody listReader d fuel op bytes) (parseBody nextByte d fuel' op s) := by
  unfold parseBody
  split
  case h_21 ho => exact parseText_stop fuel fuel' [] h hf (hf' (BitVec.eq_of_toNat_eq ho))
  case h_25 => exact ⟨fun i rest hp => by simp at hp, fun i rest hp => by simp at hp⟩
  case h_20 =>
    exact parseByte_stop h fun _ _ _ h => parseByte_stop h fun _ _ _ h => parseVector_stop h _ _
  case h_22 =>
    exact parseByte_stop h fun _ _ _ h => parseByte_stop h fun _ _ _ h =>
      parseLong_stop h fun _ _ _ h => whole_stop h _
  case h_23 =>
    exact parseByte_stop h fun _ _ _ h => parseByte_stop h fun _ _ _ h =>
      parseLong_stop h fun _ _ _ h => parseLong_stop h fun _ _ _ h => whole_stop h _
  case h_3 => exact parseByte_stop h fun _ _ _ h => parseVector_stop h _ _
  all_goals first
    | exact whole_stop h _
    | exact parseVector_stop h _ _
    | exact parseVectors_stop h _ _
    | exact parseLong_stop h fun _ _ _ h => whole_stop h _
    | exact parseByte_stop h fun _ _ _ h => whole_stop h _

/-- Fetching from a stream that stops inside a record fetches the part of it that the list's bytes make. -/
theorem fetchRecord_of_truncated {s t : State} {op : Byte} {bytes : List Byte} (hc : s.comment = none)
    (he : s.env.host.endless = none ∨ op ≠ 0x16#8) (h : Stops t (op :: bytes) s)
    {i : Option Instr} {rest : List Byte}
    (hp : parseBody listReader s.ctx.drBytes.val (bytes.length + 1) op bytes = .cut i rest) :
    fetchRecord s = fetchedOf (.cut i (countInstr t)) := by
  obtain ⟨s1, hn, hf⟩ := h.cons
  have reads (ho : op = 0x16#8) : bytes.length < commentReads s1 := by
    have he1 : s1.env.host.endless = none := by
      have := nextByte_endless s
      rw [hn] at this
      exact this.mpr (he.resolve_right (not_not_intro ho))
    rw [commentReads, if_pos he1]
    exact Nat.lt_succ_of_le (hf.bytesLeft he1)
  simp only [fetchRecord, hc, hn]
  rw [(parseBody_stop hf.countInstr s.ctx.drBytes.val (bytes.length + 1) (commentReads s1) op
    (Nat.lt_succ_self _) reads).2 i rest hp]

/-! ## A comment from a host that never stops -/

/-- One step of such a comment: a byte more, the end of the text, or no byte (R203, R362). -/
theorem fetchRecord_endless {s : State} {text : List Byte} (hc : s.comment = some text)
    (he : s.env.host.endless ≠ none) :
    fetchRecord s = match nextByte s with
      | (some b, t) =>
        if b = 0#8 then .record (.xcomment text) { t with comment := none }
        else .suspended { t with comment := some (text ++ [b]) }
      | (none, t) => .starved { t with comment := none } := by
  have reads : commentReads { s with comment := none } = 1 := if_neg he
  simp only [fetchRecord, hc, resumeComment, reads, parseText, nextByte_comment]
  rcases nextByte s with ⟨_ | b, t⟩
  · rfl
  · dsimp only; split <;> rfl

/-- Its first step counts the opcode and reads one byte of the text. -/
theorem fetchRecord_endless_first {s t : State} (hc : s.comment = none) (he : s.env.host.endless ≠ none)
    (h : nextByte s = (some 0x16#8, t)) :
    fetchRecord s = fetchRecord { countInstr t with comment := some [] } := by
  have he' : t.env.host.endless ≠ none := by
    have := nextByte_endless s
    rw [h] at this
    exact fun k => he (this.mp k)
  have hc' : t.comment = none := (nextByte_some h).2.2.2.2.comment.trans hc
  have back : { countInstr t with comment := none } = countInstr t := by
    conv_rhs => rw [show countInstr t = { countInstr t with comment := (countInstr t).comment } from rfl,
      countInstr_comment, hc']
  simp only [fetchRecord, hc, h, resumeComment, back]
  rw [show commentReads (countInstr t) = commentReads t from rfl]
  rfl

/-! ## What any fetch does

`Reads s t`: reads, and nothing else, lead from `s` to `t`. -/

/-- Nothing but reads happened; the staging buffer and its cursors keep their form; and a stream that ends
still does, with no more bytes left. -/
structure Reads (s t : State) : Prop where
  only : OnlyRead s t
  stage : s.stage.wf Config.stageCap = true → t.stage.wf Config.stageCap = true
  cursors : CursorsOrdered s → CursorsOrdered t
  endless : t.env.host.endless = none ↔ s.env.host.endless = none
  left : s.env.host.endless = none → bytesLeft t ≤ bytesLeft s

theorem Reads.refl (s : State) : Reads s s := ⟨.refl s, id, id, .rfl, fun _ => Nat.le_refl _⟩

theorem Reads.trans {s t u : State} (h : Reads s t) (k : Reads t u) : Reads s u :=
  ⟨h.only.trans k.only, k.stage ∘ h.stage, k.cursors ∘ h.cursors, k.endless.trans h.endless,
    fun he => Nat.le_trans (k.left (h.endless.mpr he)) (h.left he)⟩

theorem takeByte_cursors {s : State} (h : s.ctx.rd < s.ctx.wr) : CursorsOrdered (takeByte s).2 := by
  have hlt : s.ctx.rd.val < s.ctx.wr.val := h
  show (takeByte s).2.ctx.rd.val ≤ s.ctx.wr.val
  rw [takeByte_rd h]
  omega

theorem refill_stage_wf {s : State} (h : s.stage.wf Config.stageCap = true) :
    (refill s).2.stage.wf Config.stageCap = true := by
  rw [refill_stage]
  have := (refillBytes_le s).1
  exact wf_store _ (by simp [Config.stageCap]; omega) h

theorem nextByte_reads (s : State) : Reads s (nextByte s).2 := by
  have left (he : s.env.host.endless = none) : bytesLeft (nextByte s).2 ≤ bytesLeft s := by
    rw [nextByte_bytesLeft he]; exact Nat.le_add_right _ _
  have endless := nextByte_endless s
  obtain ⟨h, e⟩ | ⟨-, -, h, e⟩ | ⟨-, -, e⟩ := nextByte_cases s <;> rw [e] at left endless ⊢
  · exact ⟨takeByte_onlyRead s, id, fun _ => takeByte_cursors h, endless, left⟩
  · exact ⟨(refill_onlyRead s).trans (takeByte_onlyRead _), refill_stage_wf, fun _ => takeByte_cursors h,
      endless, left⟩
  · exact ⟨refill_onlyRead s, refill_stage_wf, fun _ => Nat.zero_le _, endless, left⟩

/-- The state a reading of a record ends in. -/
def endOf {σ : Type} : Parsed σ → σ
  | .whole _ s => s
  | .cut _ s => s
  | .unfinished _ s => s
  | .unassigned _ s => s

theorem parseByte_reads {u s : State} (h : Reads u s) {k : Byte → State → Parsed State}
    (hk : ∀ b t, Reads u t → Reads u (endOf (k b t))) : Reads u (endOf (parseByte nextByte s k)) := by
  have hn := nextByte_reads s
  unfold parseByte
  rcases e : nextByte s with ⟨_ | b, s1⟩ <;> rw [e] at hn
  · exact h.trans hn
  · exact hk b s1 (h.trans hn)

theorem parseLong_reads {u s : State} (h : Reads u s) {k : Word → State → Parsed State}
    (hk : ∀ w t, Reads u t → Reads u (endOf (k w t))) : Reads u (endOf (parseLong nextByte s k)) :=
  parseByte_reads h fun _ _ h => parseByte_reads h fun _ _ h => parseByte_reads h fun _ _ h =>
    parseByte_reads h fun _ _ h => hk _ _ h

theorem readVector_reads (n : Nat) (s : State) : Reads s (readVector nextByte n s).2 := by
  induction n generalizing s with
  | zero => exact .refl s
  | succ n ih =>
    have hn := nextByte_reads s
    rw [readVector]
    rcases h : nextByte s with ⟨_ | b, s1⟩ <;> rw [h] at hn
    · exact hn
    · exact hn.trans (ih s1)

theorem parseVector_reads {u s : State} (h : Reads u s) (n : Nat) (mk : List Byte → Instr) :
    Reads u (endOf (parseVector nextByte n mk s)) := by
  simp only [parseVector]
  split <;> exact h.trans (readVector_reads n s)

theorem parseVectors_reads {u s : State} (h : Reads u s) (n : Nat) (mk : List Byte → List Byte → Instr) :
    Reads u (endOf (parseVectors nextByte n mk s)) := by
  simp only [parseVectors]
  split
  · exact parseVector_reads (h.trans (readVector_reads n s)) _ _
  · exact h.trans (readVector_reads n s)

theorem parseText_reads {u s : State} (h : Reads u s) (fuel : Nat) (text : List Byte) :
    Reads u (endOf (parseText nextByte fuel text s)) := by
  induction fuel generalizing text s with
  | zero => exact h
  | succ fuel ih =>
    have hn := nextByte_reads s
    unfold parseText
    rcases e : nextByte s with ⟨_ | b, s1⟩ <;> rw [e] at hn
    · exact h.trans hn
    · dsimp only
      split
      · exact h.trans hn
      · exact ih (h.trans hn) _

theorem parseBody_reads (d fuel : Nat) (op : Byte) (s : State) :
    Reads s (endOf (parseBody nextByte d fuel op s)) := by
  have h := Reads.refl s
  unfold parseBody
  split
  case h_21 => exact parseText_reads h _ _
  case h_20 => exact parseByte_reads h fun _ _ h => parseByte_reads h fun _ _ h => parseVector_reads h _ _
  case h_22 =>
    exact parseByte_reads h fun _ _ h => parseByte_reads h fun _ _ h => parseLong_reads h fun _ _ h => h
  case h_23 =>
    exact parseByte_reads h fun _ _ h => parseByte_reads h fun _ _ h => parseLong_reads h fun _ _ h =>
      parseLong_reads h fun _ _ h => h
  case h_3 => exact parseByte_reads h fun _ _ h => parseVector_reads h _ _
  all_goals first
    | exact h
    | exact parseVector_reads h _ _
    | exact parseVectors_reads h _ _
    | exact parseLong_reads h fun _ _ h => h
    | exact parseByte_reads h fun _ _ h => h

/-! ## A comment from a stream that ends is read to its end -/

/-- The reading is not left off in a comment. -/
def Finishes {σ : Type} (p : Parsed σ) : Prop := ∀ text s, p ≠ .unfinished text s

theorem parseByte_finishes {σ : Type} {next : Reader σ} {s : σ} {k : Byte → σ → Parsed σ}
    (h : ∀ b t, Finishes (k b t)) : Finishes (parseByte next s k) := by
  unfold parseByte
  split
  · exact h _ _
  · simp [Finishes]

theorem parseLong_finishes {σ : Type} {next : Reader σ} {s : σ} {k : Word → σ → Parsed σ}
    (h : ∀ w t, Finishes (k w t)) : Finishes (parseLong next s k) :=
  parseByte_finishes fun _ _ => parseByte_finishes fun _ _ => parseByte_finishes fun _ _ =>
    parseByte_finishes fun _ _ => h _ _

theorem parseVector_finishes {σ : Type} {next : Reader σ} {n : Nat} {mk : List Byte → Instr} {s : σ} :
    Finishes (parseVector next n mk s) := by
  simp only [parseVector]
  split <;> simp [Finishes]

theorem parseVectors_finishes {σ : Type} {next : Reader σ} {n : Nat} {mk : List Byte → List Byte → Instr}
    {s : σ} : Finishes (parseVectors next n mk s) := by
  simp only [parseVectors]
  split
  · exact parseVector_finishes
  · simp [Finishes]

theorem whole_finishes {σ : Type} (i : Instr) (s : σ) : Finishes (.whole i s) := by simp [Finishes]

theorem parseText_finishes {fuel : Nat} {text : List Byte} {s : State} (he : s.env.host.endless = none)
    (hf : bytesLeft s < fuel) : Finishes (parseText nextByte fuel text s) := by
  induction fuel generalizing text s with
  | zero => omega
  | succ fuel ih =>
    have left := nextByte_bytesLeft he
    have he1 := (nextByte_endless s).mpr he
    unfold parseText
    rcases h : nextByte s with ⟨_ | b, s1⟩ <;> rw [h] at left he1
    · simp [Finishes]
    · simp only [Option.isSome_some, if_true] at left
      dsimp only
      split
      · exact whole_finishes _ _
      · exact ih he1 (by omega)

theorem parseBody_finishes {d fuel : Nat} {op : Byte} {s : State} (he : s.env.host.endless = none)
    (hf : bytesLeft s < fuel) : Finishes (parseBody nextByte d fuel op s) := by
  unfold parseBody
  split
  case h_21 => exact parseText_finishes he hf
  case h_25 => simp [Finishes]
  case h_20 => exact parseByte_finishes fun _ _ => parseByte_finishes fun _ _ => parseVector_finishes
  case h_22 =>
    exact parseByte_finishes fun _ _ => parseByte_finishes fun _ _ =>
      parseLong_finishes fun _ _ => whole_finishes _ _
  case h_23 =>
    exact parseByte_finishes fun _ _ => parseByte_finishes fun _ _ =>
      parseLong_finishes fun _ _ => parseLong_finishes fun _ _ => whole_finishes _ _
  case h_3 => exact parseByte_finishes fun _ _ => parseVector_finishes
  all_goals first
    | exact whole_finishes _ _
    | exact parseVector_finishes
    | exact parseVectors_finishes
    | exact parseLong_finishes fun _ _ => whole_finishes _ _
    | exact parseByte_finishes fun _ _ => whole_finishes _ _

/-! ## The cases of a fetch -/

/-- What a fetch that reads up to `t` comes to; it is left off in a comment only where the host never stops. -/
def Fetches (f : Fetched) (t : State) : Prop :=
  (∃ i, f = .record i t) ∨ f = .starved t ∨ f = .unassigned t ∨
  t.env.host.endless ≠ none ∧ ∃ text, f = .suspended { t with comment := some text }

theorem fetchedOf_fetches {p : Parsed State} (h : (endOf p).env.host.endless = none → Finishes p) :
    Fetches (fetchedOf p) (endOf p) := by
  rcases p with ⟨i, t⟩ | ⟨_ | i, t⟩ | ⟨text, t⟩ | ⟨op, t⟩
  · exact .inl ⟨i, rfl⟩
  · exact .inr (.inl rfl)
  · exact .inl ⟨i, rfl⟩
  · exact .inr (.inr (.inr ⟨fun he => h he text t rfl, text, rfl⟩))
  · exact .inr (.inr (.inl rfl))

theorem commentReads_enough {s : State} (he : s.env.host.endless = none) : bytesLeft s < commentReads s := by
  rw [commentReads, if_pos he]; omega

/-- Everything fetching can come to: a comment is half read, and it is read on; the opcode read fails; or the
opcode is counted, and its parameters are read. -/
theorem fetchRecord_cases (s : State) :
    (∃ text t, s.comment = some text ∧ Reads { s with comment := none } t ∧ Fetches (fetchRecord s) t) ∨
    (∃ t, s.comment = none ∧ nextByte s = (none, t) ∧ Reads s t ∧ fetchRecord s = .starved t) ∨
    ∃ op u t, s.comment = none ∧ nextByte s = (some op, u) ∧ Reads s u ∧ Reads (countInstr u) t ∧
      Fetches (fetchRecord s) t := by
  rcases hc : s.comment with _ | text
  · have hn := nextByte_reads s
    rcases h : nextByte s with ⟨_ | op, u⟩ <;> rw [h] at hn
    · exact .inr (.inl ⟨u, rfl, rfl, hn, by simp [fetchRecord, hc, h]⟩)
    · have hb := parseBody_reads s.ctx.drBytes.val (commentReads u) op (countInstr u)
      refine .inr (.inr ⟨op, u, _, rfl, rfl, hn, hb, ?_⟩)
      simp only [fetchRecord, hc, h]
      refine fetchedOf_fetches fun he => ?_
      exact parseBody_finishes (hb.endless.mp he) (commentReads_enough (s := u) (hb.endless.mp he))
  · have hb := parseText_reads (.refl { s with comment := none }) (commentReads { s with comment := none }) text
    refine .inl ⟨text, _, rfl, hb, ?_⟩
    simp only [fetchRecord, hc, resumeComment]
    refine fetchedOf_fetches fun he => ?_
    exact parseText_finishes (hb.endless.mp he) (commentReads_enough (hb.endless.mp he))

end Sys2Proof.Machine
end

