-- ==== Sys2Proof/Laws/Step.lean ====
section
/-! SUPPORT. Everything one step of a running session can do, said once. -/

namespace Sys2Proof.Machine

/-- `w` is `s` after the reads of one step: the stream reader's fields have moved on, one instruction is
counted if an opcode was read, no comment is half read, and nothing else differs. -/
structure FetchedTo (s w : State) : Prop where
  ctx : w.ctx = { s.ctx with
    rd := w.ctx.rd, wr := w.ctx.wr, checksum := w.ctx.checksum, consumed := w.ctx.consumed
    instrCount := s.ctx.instrCount + if s.comment = none ∧ (nextByte s).1.isSome then 1#32 else 0#32 }
  bufs : w.bufs = s.bufs
  tap : w.tap = s.tap
  pins : w.pins = s.pins
  phase : w.phase = s.phase
  comment : w.comment = none
  trace : ∃ n, w.trace = s.trace ++ List.replicate n (.reqMore Config.stageCap)
  stage : s.stage.wf Config.stageCap = true → w.stage.wf Config.stageCap = true
  cursors : CursorsOrdered s → CursorsOrdered w
  endless : w.env.host.endless = none ↔ s.env.host.endless = none
  left : s.comment = none → (nextByte s).1.isSome → s.env.host.endless = none → bytesLeft w < bytesLeft s

theorem fetchedTo_starved {s w : State} (hc : s.comment = none) (hn : nextByte s = (none, w)) :
    FetchedTo s w := by
  have h : Reads s w := by have := nextByte_reads s; rwa [hn] at this
  exact ⟨by rw [h.only.ctx]; simp [hn], h.only.bufs, h.only.tap, h.only.pins, h.only.phase,
    h.only.comment.trans hc, h.only.trace, h.stage, h.cursors, h.endless, fun _ k => by simp [hn] at k⟩

theorem fetchedTo_counted {s u w : State} {op : Byte} (hc : s.comment = none) (hn : nextByte s = (some op, u))
    (hu : Reads s u) (h : Reads (countInstr u) w) : FetchedTo s w := by
  obtain ⟨n, hn'⟩ := hu.only.trace
  obtain ⟨m, hm⟩ := h.only.trace
  refine ⟨?_, h.only.bufs.trans hu.only.bufs, h.only.tap.trans hu.only.tap, h.only.pins.trans hu.only.pins,
    h.only.phase.trans hu.only.phase, (h.only.comment.trans hu.only.comment).trans hc, ⟨n + m, ?_⟩,
    h.stage ∘ hu.stage, h.cursors ∘ hu.cursors, h.endless.trans hu.endless, fun _ _ he => ?_⟩
  · rw [h.only.ctx, countInstr, hu.only.ctx]
    simp [hc, hn]
  · rw [hm, countInstr_trace, hn', List.append_assoc, List.replicate_append_replicate]
  · have one := nextByte_bytesLeft he
    have two := h.left (hu.endless.mpr he)
    rw [hn] at one
    simp only [Option.isSome_some, if_true] at one
    have same : bytesLeft (countInstr u) = bytesLeft u := rfl
    omega

theorem fetchedTo_resumed {s w : State} {text : List Byte} (hc : s.comment = some text)
    (h : Reads { s with comment := none } w) : FetchedTo s w :=
  ⟨by rw [h.only.ctx]; simp [hc], h.only.bufs, h.only.tap, h.only.pins, h.only.phase, h.only.comment,
    h.only.trace, h.stage, h.cursors, h.endless, fun k => by simp [hc] at k⟩

/-- Everything a call of the interpreter that goes on can do: it reads, and then runs a record, or raises an
error, or leaves off in a comment of a host that never stops. -/
theorem interpret_cases {s u : State} (h : interpret s = .next u) :
    ∃ w, FetchedTo s w ∧
      ((s.comment = none → (nextByte s).1.isSome) ∧ (∃ i, exec i w = .next u) ∨
        (∃ e, e ≠ .none ∧ u = raise e w) ∨
        w.env.host.endless ≠ none ∧ ∃ text, u = { w with comment := some text }) := by
  have main {w : State} (hs : s.comment = none → (nextByte s).1.isSome) (hf : Fetches (fetchRecord s) w) :
      (s.comment = none → (nextByte s).1.isSome) ∧ (∃ i, exec i w = .next u) ∨
        (∃ e, e ≠ .none ∧ u = raise e w) ∨
        w.env.host.endless ≠ none ∧ ∃ text, u = { w with comment := some text } := by
    obtain ⟨i, e⟩ | e | e | ⟨he, text, e⟩ := hf <;>
      simp only [interpret, e, execFetched, Host.Outcome.next.injEq] at h
    · exact .inl ⟨hs, i, h⟩
    · exact .inr (.inl ⟨.ioExhausted, by decide, h.symm⟩)
    · exact .inr (.inl ⟨.unimplementedInstruction, by decide, by simpa [execUnassigned] using h.symm⟩)
    · exact .inr (.inr ⟨he, text, h.symm⟩)
  obtain ⟨text, w, hc, hr, hf⟩ | ⟨w, hc, hn, -, hf⟩ | ⟨op, v, w, hc, hn, hv, hw, hf⟩ := fetchRecord_cases s
  · exact ⟨w, fetchedTo_resumed hc hr, main (fun k => by simp [hc] at k) hf⟩
  · refine ⟨w, fetchedTo_starved hc hn, .inr (.inl ⟨.ioExhausted, by decide, ?_⟩)⟩
    simpa [interpret, hf, execFetched] using h.symm
  · exact ⟨w, fetchedTo_counted hc hn hv hw, main (fun _ => by simp [hn]) hf⟩

/-- A step of a running session is a call of the interpreter and the loop test. -/
theorem step_running {s t : State} (hp : s.phase = .running) (h : step s = .next t) :
    ∃ u, interpret s = .next u ∧ t = loopTest u := by
  simp only [step, hp] at h
  rcases hu : interpret s with u | r | r <;> rw [hu] at h
  · exact ⟨u, rfl, by simpa using h.symm⟩
  · simp [afterRecord] at h
  · simp [afterRecord] at h

end Sys2Proof.Machine
end

