-- ==== Sys2Proof/Tests/Slice0.lean ====
section
/-! SUPPORT. Tests: the expected values are the worked vectors of spec/95_test_vectors.md (V-…, P…), or written
out by hand from the rule named; and one witness for each statement that has hypotheses. -/

namespace Sys2Proof.Tests

open Sys2Proof Sys2Proof.Machine

/-! ## Whole and broken records -/

theorem test_wf_whole : WellFormed 1 (.xsdrtdo [0xA5#8] [0xA5#8]) ∧ WellFormed 0 (.xsir 8#8 [1#8]) ∧
    WellFormed 0 (.xcomment [0x48#8]) ∧ WellFormed 0 (.xsir2 1033#16 []) := by decide
theorem test_wf_short_vector : ¬ WellFormed 2 (.xtdomask [0xFF#8]) := by decide
theorem test_wf_long_vector : ¬ WellFormed 1 (.xsdr [1#8, 2#8]) ∧ ¬ WellFormed 0 (.xsdrinc [1#8]) ∧
    ¬ WellFormed 0 (.xsdrb [1#8]) ∧ ¬ WellFormed 0 (.xsdrc [1#8]) ∧ ¬ WellFormed 0 (.xsdre [1#8]) := by decide
theorem test_wf_first_vector : ¬ WellFormed 1 (.xsdrtdo [] [1#8]) ∧ ¬ WellFormed 1 (.xsdrtdob [] [1#8]) ∧
    ¬ WellFormed 1 (.xsdrtdoc [] [1#8]) ∧ ¬ WellFormed 1 (.xsdrtdoe [] [1#8]) ∧
    ¬ WellFormed 1 (.xsetsdrmasks [] [1#8]) := by decide
theorem test_wf_second_vector : ¬ WellFormed 1 (.xsdrtdo [1#8] []) ∧ ¬ WellFormed 1 (.xsdrtdob [1#8] []) ∧
    ¬ WellFormed 1 (.xsdrtdoc [1#8] []) ∧ ¬ WellFormed 1 (.xsdrtdoe [1#8] []) ∧
    ¬ WellFormed 1 (.xsetsdrmasks [1#8] []) := by decide
theorem test_wf_ir_vector : ¬ WellFormed 0 (.xsir 9#8 [1#8]) ∧ ¬ WellFormed 0 (.xsir2 9#16 [1#8]) := by decide
theorem test_wf_oversized_ir : ¬ WellFormed 0 (.xsir2 1033#16 [1#8]) := by decide
theorem test_wf_comment_nul : ¬ WellFormed 0 (.xcomment [0x48#8, 0#8]) := by decide

/-! ## Decoding: one record of each constructor, written out from 30_encoding.md -/

theorem test_decode_xcomplete : decode 1 [0x00#8, 0x55#8] = .ok (.xcomplete, [0x55#8]) := by decide
theorem test_decode_xtdomask : decode 2 [0x01#8, 0xF0#8, 0x0F#8] = .ok (.xtdomask [0xF0#8, 0x0F#8], []) := by
  decide
theorem test_decode_xsir : decode 0 [0x02#8, 0x09#8, 0x01#8, 0x80#8] = .ok (.xsir 9#8 [1#8, 0x80#8], []) := by
  decide
theorem test_decode_xsdr : decode 1 [0x03#8, 0xA5#8] = .ok (.xsdr [0xA5#8], []) := by decide
theorem test_decode_xruntest :
    decode 0 [0x04#8, 0x00#8, 0x00#8, 0x03#8, 0xE8#8] = .ok (.xruntest 1000#32, []) := by decide
theorem test_decode_xrepeat : decode 0 [0x07#8, 0xFF#8] = .ok (.xrepeat 255#8, []) := by decide
theorem test_decode_xsdrsize :
    decode 0 [0x08#8, 0x01#8, 0x02#8, 0x03#8, 0x04#8] = .ok (.xsdrsize 0x01020304#32, []) := by decide
theorem test_decode_xsdrtdo : decode 1 [0x09#8, 0xA5#8, 0x5A#8] = .ok (.xsdrtdo [0xA5#8] [0x5A#8], []) := by
  decide
theorem test_decode_xsetsdrmasks :
    decode 1 [0x0A#8, 0x0F#8, 0xF0#8] = .ok (.xsetsdrmasks [0x0F#8] [0xF0#8], []) := by decide
theorem test_decode_xsdrinc : decode 1 [0x0B#8, 0x77#8] = .ok (.xsdrinc [0x77#8], []) := by decide
theorem test_decode_xsdrb : decode 1 [0x0C#8, 0xAB#8] = .ok (.xsdrb [0xAB#8], []) := by decide
theorem test_decode_xsdrc : decode 1 [0x0D#8, 0xCD#8] = .ok (.xsdrc [0xCD#8], []) := by decide
theorem test_decode_xsdre : decode 1 [0x0E#8, 0xEF#8] = .ok (.xsdre [0xEF#8], []) := by decide
theorem test_decode_xsdrtdob : decode 1 [0x0F#8, 1#8, 2#8] = .ok (.xsdrtdob [1#8] [2#8], []) := by decide
theorem test_decode_xsdrtdoc : decode 1 [0x10#8, 1#8, 2#8] = .ok (.xsdrtdoc [1#8] [2#8], []) := by decide
theorem test_decode_xsdrtdoe : decode 1 [0x11#8, 1#8, 2#8] = .ok (.xsdrtdoe [1#8] [2#8], []) := by decide
theorem test_decode_xstate : decode 0 [0x12#8, 0x10#8] = .ok (.xstate 16#8, []) := by decide
theorem test_decode_xendir : decode 0 [0x13#8, 0x01#8] = .ok (.xendir 1#8, []) := by decide
theorem test_decode_xenddr : decode 0 [0x14#8, 0xFF#8] = .ok (.xenddr 255#8, []) := by decide
theorem test_decode_xsir2 : decode 0 [0x15#8, 0x00#8, 0x05#8, 0x1F#8] = .ok (.xsir2 5#16 [0x1F#8], []) := by
  decide
theorem test_decode_xcomment :
    decode 0 [0x16#8, 0x48#8, 0x49#8, 0x00#8] = .ok (.xcomment [0x48#8, 0x49#8], []) := by decide
theorem test_decode_xwait :
    decode 0 [0x17#8, 1#8, 6#8, 0#8, 0#8, 0#8, 0x64#8] = .ok (.xwait 1#8 6#8 100#32, []) := by decide
theorem test_decode_xwaitstate :
    decode 0 [0x18#8, 6#8, 1#8, 0#8, 0#8, 0#8, 2#8, 0#8, 0#8, 1#8, 0#8] =
      .ok (.xwaitstate 6#8 1#8 2#32 256#32, []) := by decide
theorem test_decode_xtrst : decode 0 [0x1C#8, 0x03#8] = .ok (.xtrst 3#8, []) := by decide

/-- The gaps of the opcode map (R132), and the byte after the last opcode. -/
theorem test_decode_unassigned :
    decode 0 [0x05#8, 1#8] = .error (.unassigned 0x05#8) ∧ decode 0 [0x06#8] = .error (.unassigned 0x06#8) ∧
    decode 0 [0x19#8] = .error (.unassigned 0x19#8) ∧ decode 0 [0x1D#8] = .error (.unassigned 0x1D#8) ∧
    decode 0 [0xFF#8] = .error (.unassigned 0xFF#8) := by decide
theorem test_decode_truncated : decode 0 [] = .error .truncated ∧ decode 0 [0x04#8, 0#8, 0#8] = .error .truncated ∧
    decode 0 [0x16#8, 0x48#8] = .error .truncated ∧ decode 2 [0x03#8, 1#8] = .error .truncated := by decide

/-! ## Small states -/

/-- A running session with the TAP in `t`, a latch of 0, and TDO levels ready. -/
def at_ (t : TapState) (tdo : List Bool) : State :=
  { State.reset with
    tap := t
    phase := .running
    pins := { mode := .driven, tms := false, tdi := false, tck := true }
    env := { Env.initial with tdo := tdo, pulses := [0, 0, 0] } }

/-- With a data-register chain of `bits` bits. -/
def sized (bits : Word) (s : State) : State :=
  { s with ctx := { s.ctx with drBits := bits, drBytes := Fin.ofNat 130 (ceil8 bits.toNat) } }

/-- With `bytes` staged in a running session. -/
def staged (bytes : List Byte) (s : State) : State :=
  { s with stage := Memory.store [] 0 bytes, ctx := { s.ctx with rd := 0, wr := Fin.ofNat 63 bytes.length } }

/-- With a host that never stops. -/
def endless (s : State) : State := { s with env := { s.env with host := { listed := [], endless := some 0 } } }

/-- TMS, TDI and TDO of the clocks of a state's trace. -/
def clocks (s : State) : List (Bool × Bool × Bool) :=
  s.trace.filterMap fun
    | .clk tms tdi tdo => some (tms, tdi, tdo)
    | _ => none

/-- A string of 0s and 1s. -/
def bits (digits : String) : List Bool := digits.toList.map (· == '1')

/-- The TMS levels of the clocks. -/
def tmsOf (s : State) : List Bool := (clocks s).map (·.1)

/-- The TDI levels of the clocks. -/
def tdiOf (s : State) : List Bool := (clocks s).map (·.2.1)

/-- Whether an outcome is a next state with a property. -/
def nextHas (r : Result) (p : State → Bool) : Bool :=
  match r with
  | .next s => p s
  | _ => false

/-! ## TAP (V-TAP, V-GOTO, S1, S2) -/

theorem test_tap_packed : tapNext .shiftDr true = .exit1Dr ∧ tapNext .exit1Ir true = .updateIr ∧
    tapNext .exit1Ir false = .pauseIr ∧ tapNext .selectIrScan true = .testLogicReset := by decide
theorem test_goto_reset : tmsOf (gotoTap .testLogicReset (at_ .shiftIr [])) = bits "11111" ∧
    tmsOf (gotoTap .testLogicReset (at_ .testLogicReset [])) = bits "11111" := by decide
theorem test_goto_longest : tmsOf (gotoTap .exit2Ir (at_ .shiftDr [])) = bits "11110101" := by decide
theorem test_goto_none : tmsOf (gotoTap .runTestIdle (at_ .runTestIdle [])) = [] := by decide
theorem test_goto_pause : tmsOf (gotoTap .pauseDr (at_ .exit1Dr [])) = bits "0" ∧
    tmsOf (gotoTap .shiftDr (at_ .pauseDr [])) = bits "10" := by decide
theorem test_idleWait_pulses :
    (idleWait 5#32 { at_ .runTestIdle [true] with env := { Env.initial with tdo := [true], pulses := [1] } }).trace =
      [.clk false false true, .delay 5#32] := by decide

/-! ## Shift (V-SH, S3, S4) -/

/-- V-SH1. -/
theorem test_shift_order :
    tdiOf (shift .tdi .tdocap 12 true (withVector .tdi [0x0A#8, 0xBC#8] (at_ .shiftDr []))) =
      bits "001111010101" ∧
    tmsOf (shift .tdi .tdocap 12 true (withVector .tdi [0x0A#8, 0xBC#8] (at_ .shiftDr []))) =
      bits "000000000001" := by decide
/-- V-SH4. -/
theorem test_shift_capture :
    let s := shift .tdi .tdocap 12 true (at_ .shiftDr (List.replicate 12 true))
    bufByte s .tdocap 0 = 0x0F#8 ∧ bufByte s .tdocap 1 = 0xFF#8 ∧ s.tap = .exit1Dr := by decide
/-- V-SH3: loopback, and the padding cleared. -/
theorem test_shift_padding :
    bufByte (shift .tdi .tdocap 4 false (withVector .tdi [0xFF#8]
      (withVector .tdocap [0xFF#8] (at_ .shiftDr (bits "1111"))))) .tdocap 0 = 0x0F#8 := by decide
/-- V-SH5 and V-SH6. -/
theorem test_shift_zero : clocks (shift .tdi .tdocap 0 true (at_ .shiftDr [])) = [] := by decide
theorem test_shift_moves : (shift .tdi .tdocap 16 false (at_ .captureDr [])).tap = .shiftDr := by decide

/-! ## Stream (V-ST) -/

/-- V-ST2: 71 bytes arrive as 62 and 9. -/
theorem test_refill_sizes :
    let s := { at_ .testLogicReset [] with
      env := { Env.initial with host := .ending (List.replicate 71 0x41#8), polls := [62, 62] } }
    (refill s).2.ctx.wr.val = 62 ∧ (refill (refill s).2).2.ctx.wr.val = 9 := by decide
/-- V-ST3: the stream ends inside XRUNTEST. -/
theorem test_stream_ends :
    nextHas (step (staged [0x04#8, 0#8, 0#8] (at_ .testLogicReset []))) (fun s =>
      s.ctx.error == .ioExhausted && s.ctx.consumed == 3#32 && s.ctx.instrCount == 1#32 &&
      s.ctx.runtest == 0#32 && s.phase == .failed) := by decide
/-- V-E5's last record: only the opcode byte of an unassigned opcode is read. -/
theorem test_unassigned_step :
    nextHas (step (staged [0x05#8, 0#8] (at_ .testLogicReset []))) (fun s =>
      s.ctx.error == .unimplementedInstruction && s.ctx.consumed == 1#32 && s.ctx.instrCount == 1#32) := by
  decide

/-- I20: from a host that never stops, a comment is read one byte a step, its opcode counted once. -/
theorem test_comment_endless :
    nextHas (step (endless (staged [0x16#8, 0x48#8, 0x49#8] (at_ .runTestIdle [])))) (fun s =>
      s.comment == some [0x48#8] && s.ctx.instrCount == 1#32 && s.ctx.consumed == 2#32 && s.phase == .running) ∧
    nextHas (step (endless (staged [0#8] { at_ .runTestIdle [] with comment := some [0x48#8] }))) (fun s =>
      s.comment == none && s.ctx.instrCount == 0#32 && s.trace == [.diag [0x48#8]]) := by decide

/-! ## Setup records (V-SU) -/

theorem test_xcomplete : nextHas (step (staged [0x00#8] (at_ .runTestIdle []))) (fun s =>
    s.ctx.complete && s.phase == .completed && s.pins.mode == .highZ && s.ctx.instrCount == 1#32) := by decide
theorem test_xtdomask : nextHas (exec (.xtdomask [0xF0#8]) (sized 8 (at_ .runTestIdle [])))
    (bufByte · .tdomask 0 == 0xF0#8) := by decide
theorem test_xruntest : nextHas (exec (.xruntest 0xFFFFFFFF#32) State.reset)
    (·.ctx.runtest == 4294967295#32) := by decide
theorem test_xrepeat : nextHas (exec (.xrepeat 0#8) State.reset) (·.ctx.retries == 0#8) := by decide
theorem test_xsdrsize_most : nextHas (exec (.xsdrsize 1032#32) State.reset)
    (fun s => s.ctx.drBits == 1032 && s.ctx.drBytes == 129) := by decide
theorem test_xsdrsize_over : nextHas (exec (.xsdrsize 1033#32) (sized 8 State.reset))
    (fun s => s.ctx.drBits == 8 && s.ctx.error == .chainSizeExceeded) ∧
    nextHas (exec (.xsdrsize 0xFFFFFFFF#32) State.reset) (·.ctx.error == .chainSizeExceeded) := by decide
theorem test_xsetsdrmasks : nextHas (exec (.xsetsdrmasks [0x0F#8] [0xF0#8]) (sized 8 (at_ .runTestIdle [])))
    (fun s => bufByte s .addrmask 0 == 0x0F#8 && bufByte s .datamask 0 == 0xF0#8 && (clocks s).isEmpty) := by
  decide
theorem test_xsdrinc : nextHas (exec (.xsdrinc [0x5A#8]) (sized 8 (at_ .runTestIdle [])))
    (fun s => bufByte s .tdi 0 == 0x5A#8 && (clocks s).isEmpty) := by decide
theorem test_xendir : nextHas (exec (.xendir 1#8) State.reset) (·.ctx.endIr == .pauseIr) ∧
    nextHas (exec (.xendir 2#8) State.reset)
      (fun s => s.ctx.endIr == .runTestIdle && s.ctx.error == .invalidEndState) := by decide
theorem test_xenddr : nextHas (exec (.xenddr 1#8) State.reset) (·.ctx.endDr == .pauseDr) ∧
    nextHas (exec (.xenddr 255#8) State.reset) (·.ctx.error == .invalidEndState) := by decide
theorem test_xcomment : nextHas (exec (.xcomment [0x48#8, 0x49#8]) State.reset)
    (fun s => s.trace == [.diag [0x48#8, 0x49#8]]) := by decide
theorem test_xtrst : exec (.xtrst 3#8) State.reset = .next State.reset := by rfl

/-! ## IR scans (V-IR) -/

/-- V-IR1. -/
theorem test_xsir : nextHas (exec (.xsir 8#8 [1#8]) (at_ .runTestIdle []))
    (fun s => tmsOf s == bits "11000000000110" && tdiOf s == bits "00001000000000" && s.tap == .runTestIdle &&
      s.ctx.irBits == 8) := by decide
/-- V-IR4: the configured end state is not read without a run-test duration; V-IR3: it is with one. -/
theorem test_xsir_settle :
    let s := { at_ .runTestIdle [] with ctx := { Context.initial with endIr := .pauseIr } }
    let t := { at_ .testLogicReset [] with ctx := { Context.initial with endIr := .pauseIr, runtest := 5#32 } }
    nextHas (exec (.xsir 8#8 [1#8]) s) (·.tap == .runTestIdle) ∧
    nextHas (exec (.xsir 8#8 [1#8]) t) (fun u => u.tap == .pauseIr &&
      tmsOf u == bits "01100000000010" && u.trace.getLast? == some (.delay 5#32)) := by decide
/-- V-IR6 and V-IR7. -/
theorem test_xsir2 : nextHas (exec (.xsir2 8#16 [1#8]) (at_ .runTestIdle []))
    (fun s => tmsOf s == bits "11000000000110") ∧
    nextHas (exec (.xsir2 1033#16 []) (at_ .runTestIdle []))
      (fun s => s.ctx.error == .chainSizeExceeded && s.ctx.irBits == 0 && (clocks s).isEmpty) := by decide
/-- V-IR5. -/
theorem test_xsir_zero : nextHas (exec (.xsir 0#8 []) (at_ .runTestIdle []))
    (fun s => tmsOf s == bits "1100110" && s.tap == .runTestIdle) := by decide

/-! ## DR scans (V-DR, S5, S10, P2) -/

/-- V-DR1. -/
theorem test_xsdr :
    let s := withVector .tdoexp [0x5A#8] (withVector .tdomask [0xFF#8]
      (sized 8 (at_ .runTestIdle (bits "00001011010"))))
    nextHas (exec (.xsdr [0xA5#8]) s) (fun t => tmsOf t == bits "1000000000110" &&
      tdiOf t == bits "0001010010111" && t.tap == .runTestIdle && t.ctx.error == .none) := by decide
/-- V-DR11 from SHIFT_DR on, and V-DR4's start. -/
theorem test_xsdrb : nextHas (exec (.xsdrb [0xAB#8]) (sized 8 (at_ .pauseIr [])))
    (fun t => tmsOf t == bits "1110000000000" && tdiOf t == bits "0000011010101" && t.tap == .shiftDr) := by decide
theorem test_xsdrc : nextHas (exec (.xsdrc [0x0F#8]) (sized 4 (at_ .runTestIdle (bits "1111"))))
    (fun t => tmsOf t == bits "0000" && t.tap == .runTestIdle && bufByte t .tdocap 0 == 0x0F#8) := by decide
/-- V-DR9: XSDRE outside SHIFT_DR. -/
theorem test_xsdre : nextHas (exec (.xsdre [0x0F#8]) (sized 4 (at_ .runTestIdle [])))
    (fun t => tmsOf t == bits "0001110" && t.tap == .runTestIdle) := by decide
/-- V-DR11's XSDRE: with a run-test duration it settles in RUN_TEST_IDLE, not in the end state. -/
theorem test_xsdre_settle :
    let s := sized 8 { at_ .shiftDr [] with ctx := { Context.initial with runtest := 10#32, endDr := .pauseDr } }
    nextHas (exec (.xsdre [0xEF#8]) s) (fun t => tmsOf t == bits "0000000110" && t.tap == .runTestIdle &&
      t.trace.getLast? == some (.delay 10#32)) := by decide
/-- P2 with one mismatch and one retry: V-DR6's row R = 1, K = 1, 23 clocks from TEST_LOGIC_RESET. -/
theorem test_xsdrtdo_retry :
    let s := withVector .tdomask [0x0F#8] (sized 4 { at_ .testLogicReset
      (bits "000000000000000001010") with ctx := { Context.initial with retries := 1#8 } })
    nextHas (exec (.xsdrtdo [3#8] [5#8]) s) (fun t => t.ctx.error == .none && t.tap == .runTestIdle &&
      tmsOf t == bits "01000001010110100000110" && bufByte t .tdocap 0 == 5#8) := by decide
/-- V-DR6's row R = 0, K = 1: VerificationFailed after 8 clocks, in EXIT1_DR, with no settle. -/
theorem test_xsdrtdo_fails :
    let s := withVector .tdomask [0x0F#8] (sized 4 { at_ .testLogicReset
      (bits "00000000") with ctx := { Context.initial with retries := 0#8 } })
    nextHas (exec (.xsdrtdo [3#8] [5#8]) s) (fun t => t.ctx.error == .verificationFailed &&
      t.tap == .exit1Dr && tmsOf t == bits "01000001") := by decide
/-- V-DR8: no mask for XSDRTDOB. -/
theorem test_xsdrtdob :
    let s := sized 8 { at_ .testLogicReset (bits "000010001000") with
      ctx := { Context.initial with retries := 0#8 } }
    nextHas (exec (.xsdrtdob [0x11#8] [0x10#8]) s) (fun t => t.ctx.error == .verificationFailed &&
      t.tap == .shiftDr && tmsOf t == bits "010000000000") ∧
    nextHas (exec (.xsdrtdob [0x11#8] [0x11#8]) s) (fun t => t.ctx.error == .none && t.tap == .shiftDr) := by
  decide
/-- P5. -/
theorem test_xsdrtdoc : nextHas (exec (.xsdrtdoc [0x22#8] [0x22#8]) (sized 8 (at_ .shiftDr (bits "01000100"))))
    (fun t => t.ctx.error == .none && t.tap == .shiftDr && tmsOf t == bits "00000000") := by decide
theorem test_xsdrtdoe : nextHas (exec (.xsdrtdoe [0x33#8] [0x33#8]) (sized 8 (at_ .shiftDr (bits "11001100"))))
    (fun t => t.ctx.error == .none && t.tap == .runTestIdle && tmsOf t == bits "0000000110") := by decide
/-- V-DR3 and V-DR4: the bounces. -/
theorem test_bounce : tmsOf (retryBounce (at_ .exit1Dr [])) = bits "010110100" ∧
    tmsOf (retryBounce (at_ .shiftDr [])) = bits "1010110100" := by decide
/-- V-DR10. -/
theorem test_xsdr_zero : nextHas (exec (.xsdr []) (at_ .runTestIdle []))
    (fun t => tmsOf t == bits "100110" && t.tap == .runTestIdle) := by decide

/-! ## State and wait records (V-SW) -/

theorem test_xstate : nextHas (exec (.xstate 4#8) (at_ .runTestIdle []))
    (fun t => tmsOf t == bits "100" && t.tap == .shiftDr && t.ctx.xstate == .shiftDr) := by decide
theorem test_xstate_fault : exec (.xstate 16#8) State.reset = .fault (.undefinedStateByte 16#8) := by rfl
theorem test_xwait : nextHas (exec (.xwait 1#8 6#8 0#32) (at_ .runTestIdle []))
    (fun t => tmsOf t == bits "1010" && t.tap == .pauseDr && t.trace.length == 4) := by decide
/-- V-SW12. -/
theorem test_xwait_reset : nextHas (exec (.xwait 0#8 1#8 10#32) (at_ .runTestIdle []))
    (fun t => tmsOf t == bits "111110" && t.trace[5]? == some (.delay 10#32)) := by decide
/-- V-SW10: the pulses leave CAPTURE_DR. -/
theorem test_xwaitstate : nextHas (exec (.xwaitstate 3#8 1#8 2#32 0#32) (at_ .runTestIdle []))
    (fun t => tmsOf t == bits "1000110" && t.tap == .runTestIdle && t.ctx.waitClocks == 2#32) := by decide
theorem test_xwaitstate_fault : exec (.xwaitstate 1#8 255#8 2#32 0#32) State.reset =
    .fault (.undefinedStateByte 255#8) := by rfl

/-! ## The host's two questions -/

theorem test_table_words : ([0, 1, 2, 3, 4, 7, 8, 9, 10, 11, 12, 13, 14, 15, 16, 17, 18, 19, 20, 21, 22, 23, 24,
    28].all fun op => (decodeTableWord 8 op).isSome && nextHas (step (State.reset.withFetchWord 8 op))
      (·.ctx.instrCount == 1#32)) = true := by decide

/-! ## Witnesses: what meets the hypotheses of each statement -/

/-- A running session with a checked one-byte scan that matches on attempt 1, and one that never does. -/
def matching : State := sized 8 (at_ .shiftDr (bits "01000100"))
def failing : State :=
  sized 8 { at_ .shiftDr (bits "01000100") with ctx := { Context.initial with retries := 0#8 } }

theorem witness_EncodeThenDecode : WellFormed 1 (.xsdrtdo [0xA5#8] [0x5A#8]) ∧ WellFormed 0 .xcomplete := by
  decide
theorem witness_DecodedBytesAreTheEncoding : decode 0 (0x15#8 :: 0x04#8 :: 0x09#8 :: []) =
    .ok (.xsir2 1033#16 [], []) := by decide
theorem witness_OversizedIrLengthStopsBeforeData : 1032 < (be16 0x04#8 0x09#8).toNat ∧
    1032 < (be16 0xFF#8 0xFF#8).toNat := by decide
theorem witness_ResetValues : State.reset = resetContext State.reset ∨ State.reset = State.reset := .inr rfl
theorem witness_NotConnectedSession :
    let s := { State.reset with env := { Env.initial with vref := [false] } }
    s.phase = .idle ∧ vrefSensed s = false := by decide
theorem witness_ConnectedSession :
    let s := { State.reset with env := { Env.initial with vref := [true] } }
    s.phase = .idle ∧ vrefSensed s = true := by decide
theorem witness_LoopTestEndsSession :
    (State.reset.ctx.complete = false ∧ State.reset.ctx.error = .none) ∧
    (setComplete State.reset).ctx.complete = true ∧ (raise .ioExhausted State.reset).ctx.error ≠ .none := by decide
theorem witness_ErrorEndsTheSession :
    let s := staged [0x05#8] (at_ .testLogicReset [])
    s.Inv ∧ ∃ t, step s = .next t ∧ t.ctx.error ≠ .none :=
  ⟨⟨by decide, by decide, by decide, by decide, by decide, by decide⟩, _, rfl, by decide⟩
theorem witness_CompletionEndsTheSession :
    let s := staged [0x00#8] (at_ .testLogicReset [])
    s.Inv ∧ ∃ t, step s = .next t ∧ t.ctx.complete = true :=
  ⟨⟨by decide, by decide, by decide, by decide, by decide, by decide⟩, _, rfl, by decide⟩
theorem witness_StatusCodesDistinct : Config.errCode .none = Config.errCode .none := rfl
/-- A byte staged; none staged and one delivered; none staged and none to come. -/
theorem witness_NextByteTakesOne :
    let none := at_ .testLogicReset []
    let more := { none with env := { none.env with host := .ending [1#8], polls := [1] } }
    (CursorsOrdered (staged [1#8] none) ∧ (staged [1#8] none).ctx.rd ≠ (staged [1#8] none).ctx.wr) ∧
    (CursorsOrdered more ∧ more.ctx.rd = more.ctx.wr ∧ (refill more).1 = true) ∧
    CursorsOrdered none ∧ none.ctx.rd = none.ctx.wr ∧ (refill none).1 = false := by decide
theorem witness_RefillMayDeliverAnyCount :
    let s := { State.reset with env := { Env.initial with host := .ending (List.replicate 62 1#8) } }
    (1 ≤ 1 ∧ 1 ≤ 62 ∧ s.env.host.byte (1 - 1) ≠ none) ∧ 1 ≤ 62 ∧ 62 ≤ 62 ∧
    s.env.host.byte (62 - 1) ≠ none ∧ (endless s).env.host.byte (62 - 1) ≠ none :=
  ⟨by decide, by decide, by decide, by decide, by simp [endless, HostStream.byte]⟩
theorem witness_ChecksumIgnoresRefills :
    let s := staged [1#8, 2#8] (at_ .testLogicReset [])
    let t := { at_ .testLogicReset [] with
      env := { Env.initial with host := .ending [1#8, 2#8], polls := [1, 1] } }
    (∀ i, pendingByte s i = pendingByte t i) ∧ s.ctx.checksum = t.ctx.checksum ∧
    s.ctx.consumed = t.ctx.consumed ∧
    (readVector nextByte 2 s).1.length = 2 ∧ (readVector nextByte 2 t).1.length = 2 := by
  refine ⟨fun i => ?_, rfl, rfl, by decide, by decide⟩
  match i with
  | 0 => rfl
  | 1 => rfl
  | i + 2 => rfl
/-- From a stream that ends, a comment too; from a host that never stops, any other record. -/
theorem witness_StepRunsTheDecodedRecord :
    let s := staged [0x16#8, 0x48#8, 0#8] (at_ .runTestIdle [])
    let t := endless (staged [0x12#8, 0x04#8] (at_ .runTestIdle []))
    (s.phase = .running ∧ s.comment = none ∧ s.env.host.endless = none ∧
      (∃ u, readVector nextByte 3 s = ([0x16#8, 0x48#8, 0#8], u)) ∧
      decode s.ctx.drBytes.val [0x16#8, 0x48#8, 0#8] = .ok (.xcomment [0x48#8], [])) ∧
    t.phase = .running ∧ t.comment = none ∧ (∀ text, Instr.xstate 4#8 ≠ .xcomment text) ∧
    (∃ u, readVector nextByte 2 t = ([0x12#8, 0x04#8], u)) ∧
    decode t.ctx.drBytes.val [0x12#8, 0x04#8] = .ok (.xstate 4#8, []) :=
  ⟨⟨rfl, rfl, rfl, ⟨_, rfl⟩, by decide⟩, rfl, rfl, by simp, ⟨_, rfl⟩, by decide⟩
theorem witness_UnassignedOpcodeStep :
    let s := staged [0x05#8] (at_ .runTestIdle [])
    s.phase = .running ∧ s.comment = none ∧ (∃ t, nextByte s = (some 0x05#8, t)) ∧
    decode s.ctx.drBytes.val [0x05#8] = .error (.unassigned 0x05#8) := ⟨rfl, rfl, ⟨_, rfl⟩, by decide⟩
theorem witness_StarvedOpcodeStep :
    let s := at_ .runTestIdle []
    s.phase = .running ∧ s.comment = none ∧ ∃ t, nextByte s = (none, t) := ⟨rfl, rfl, _, rfl⟩
theorem witness_CutRecordRaisesIoExhausted :
    let s := staged [0x04#8, 0#8, 0#8] (at_ .testLogicReset [])
    s.Inv ∧ s.phase = .running ∧ s.comment = none ∧ s.env.host.endless = none ∧
    (∃ t, readVector nextByte 4 s = ([0x04#8, 0#8, 0#8], t)) ∧
    decode s.ctx.drBytes.val [0x04#8, 0#8, 0#8] = .error .truncated :=
  ⟨⟨by decide, by decide, by decide, by decide, by decide, by decide⟩, rfl, rfl, rfl, ⟨_, rfl⟩, by decide⟩
/-- The opcode; a byte of text; the NUL; and, from a host that need not be timely, no byte. -/
theorem witness_CommentFromEndlessHost :
    let fresh := endless (staged [0x16#8] (at_ .runTestIdle []))
    let inside (bytes : List Byte) := endless (staged bytes { at_ .runTestIdle [] with comment := some [] })
    let late := { inside [] with env := { (inside []).env with polls := List.replicate Config.pollRetries 0 } }
    (fresh.Inv ∧ fresh.phase = .running ∧ fresh.env.host.endless ≠ none ∧ fresh.comment = none ∧
      ∃ t, nextByte fresh = (some 0x16#8, t)) ∧
    ((inside [0x41#8]).Inv ∧ (0x41#8 : Byte) ≠ 0#8 ∧ (inside [0x41#8]).comment = some [] ∧
      ∃ t, nextByte (inside [0x41#8]) = (some 0x41#8, t)) ∧
    ((inside [0#8]).Inv ∧ ∃ t, nextByte (inside [0#8]) = (some 0#8, t)) ∧
    late.Inv ∧ (Config.hostTimely = false → ∃ t, nextByte late = (none, t)) :=
  ⟨⟨⟨by decide, by decide, by decide, by decide, by decide, by decide⟩, rfl, by decide, rfl, _, rfl⟩,
    ⟨⟨by decide, by decide, by decide, by decide, by decide, by decide⟩, by decide, rfl, _, rfl⟩,
    ⟨⟨by decide, by decide, by decide, by decide, by decide, by decide⟩, _, rfl⟩,
    ⟨by decide, by decide, by decide, by decide, by decide, by decide⟩, nextByte_late rfl (by decide)⟩
theorem witness_FiniteStreamEndsTheSession :
    let s := staged [0x07#8, 0x01#8] (at_ .runTestIdle [])
    s.Inv ∧ s.phase = .running ∧ s.env.host.endless = none ∧ ∃ t, step s = .next t ∧ t.phase = .running :=
  ⟨⟨by decide, by decide, by decide, by decide, by decide, by decide⟩, rfl, rfl, _, rfl, by decide⟩
theorem witness_ClockPulse : (at_ .shiftDr [true]).env.tdo = true :: [] := by decide
theorem witness_GotoIsTheShortestWalk : TapState.shiftDr ≠ .testLogicReset ∧
    tmsWalk (at_ .runTestIdle []).tap [true, false, false] = .shiftDr := by decide
theorem witness_IdleWaitPulsesThenDelays : (5#32 : Word) ≠ 0#32 ∧ (at_ .runTestIdle []).env.pulses = 0 :: [0, 0] := by
  decide
/-- A self-loop state; SHIFT_DR; and a 9-bit loopback, whose first byte has padding. -/
theorem witness_ShiftStatedProperties :
    let s := withVector .tdi [0x01#8, 0x80#8] (at_ .shiftDr (bits "000000011"))
    tapNext (at_ .pauseDr []).tap false = (at_ .pauseDr []).tap ∧ s.tap = .shiftDr ∧
    s.env.tdo = (List.range 9).map (chainBit s .tdi 9) ++ [] ∧ 9 ≤ 1032 ∧ 0 < ceil8 9 := by decide
theorem witness_ShiftPaddingAndFrame : 9 % 8 ≠ 0 ∧ 9 % 8 ≤ 7 ∧ ceil8 9 ≤ 2 ∧ BufName.tdi ≠ .tdocap := by decide
theorem witness_XsdrsizeChecksThenWrites : (1032#32 : Word).toNat ≤ 1032 ∧ 1032 < (1033#32 : Word).toNat := by
  decide
theorem witness_EndStateRecordsSelect : 2 ≤ (2#8 : Byte).toNat ∧ 2 ≤ (255#8 : Byte).toNat := by decide
theorem witness_VectorSetupRecordsFill :
    [0xF0#8].length = (sized 8 State.reset).ctx.drBytes.val ∧
    ([] : List Byte).length = State.reset.ctx.drBytes.val := by decide
theorem witness_CutVectorKeepsItsBytes : [0xF0#8].length < (sized 9 State.reset).ctx.drBytes.val ∧
    Instr.xsdr [0xF0#8] ∈ [Instr.xsdrinc [0xF0#8], .xsdr [0xF0#8]] := by decide
/-- A second vector cut in its first byte; IR vectors cut, the longest among them. -/
theorem witness_CutRecordsKeepWhatWasWritten :
    ([0xF0#8, 0x0F#8].length = (sized 9 State.reset).ctx.drBytes.val ∧
      [0xAA#8].length < (sized 9 State.reset).ctx.drBytes.val ∧
      Instr.xsdrtdob [0xF0#8, 0x0F#8] [0xAA#8] ∈ [Instr.xsdrtdob [0xF0#8, 0x0F#8] [0xAA#8]]) ∧
    ((9#8 : Byte).toNat = 9 ∧ 9 ≤ 1032 ∧ [1#8].length < ceil8 9) ∧
    (1032#16 : Half).toNat = 1032 ∧ ([] : List Byte).length < ceil8 1032 := by decide
/-- A vector of 8 bits, none and 1032; with a run-test duration, a resting state PAUSE_IR and a drawn number of
pulses. -/
theorem witness_IrRecordsScanAndSettle :
    let s := { at_ .runTestIdle [] with ctx := { Context.initial with endIr := .pauseIr, runtest := 5#32 } }
    (8#8 : Byte).toNat = 8 ∧ [1#8].length = ceil8 8 ∧ (0#16 : Half).toNat = 0 ∧ ([] : List Byte).length = ceil8 0 ∧
    (1032#16 : Half).toNat = 1032 ∧
    (List.replicate 129 (0#8 : Byte)).length = ceil8 1032 ∧ EndStatesLegal (at_ .runTestIdle []) ∧
    EndStatesLegal s ∧ s.ctx.runtest ≠ 0#32 ∧ s.env.pulses = 0 :: [0, 0] ∧
    tmsWalk s.tap [true, true, false, false] = .shiftIr :=
  ⟨by decide, by decide, by decide, by decide, by decide, by simp [ceil8], by decide, by decide, by decide,
    by decide, by decide⟩
/-- An unchecked record; a checked one that matches on attempt 0; one that matches on attempt 1. -/
theorem witness_DrRecordsSucceed :
    drOperands (.xsdrb [1#8]) = some (⟨true, false, false, false⟩, [1#8], none) ∧
    [1#8].length = matching.ctx.drBytes.val ∧
    drOperands (.xsdrtdoc [1#8] [0x22#8]) = some (⟨false, true, false, false⟩, [1#8], some [0x22#8]) ∧
    captureMatches false (attemptState false 0
      (drStart ⟨false, true, false, false⟩ [1#8] (some [0x22#8]) matching)) = true := by decide
theorem witness_DrRecordsSucceed_retry :
    let s := sized 4 (at_ .shiftDr (bits "00000000000001010"))
    let start := drStart ⟨false, true, false, true⟩ [3#8] (some [5#8]) s
    captureMatches false (attemptState true 0 start) = false ∧
    captureMatches false (attemptState true 1 start) = true := by decide
theorem witness_DrRecordsFailWhenBudgetIsUsedUp :
    failing.ctx.retries.toNat = 0 ∧ [1#8].length = failing.ctx.drBytes.val ∧
    captureMatches false (attemptState false 0
      (drStart ⟨false, true, false, false⟩ [1#8] (some [0x23#8]) failing)) = false := by decide
theorem witness_ExpectedTdoCompletes :
    let s := sized 8 (at_ .runTestIdle (bits "00001000100"))
    SizesAgree s ∧ [0x22#8].length = s.ctx.drBytes.val ∧
    (drStart ⟨true, true, true, true⟩ [1#8] (some [0x22#8]) s).env.tdo = (List.range s.ctx.drBits.toNat).map
      (fun k => ([0x22#8].getD (s.ctx.drBytes.val - 1 - k / 8) 0#8).getLsbD (k % 8)) ++ [] := by decide
theorem witness_DrRecordsFrame : SizesAgree matching ∧ [1#8].length = matching.ctx.drBytes.val ∧
    matching.ctx.drBytes.val ≤ 1 := by decide
theorem witness_UncheckedScansComplete : [1#8].length = matching.ctx.drBytes.val := by decide
theorem witness_ZeroMaskAcceptsEverything : [1#8].length = matching.ctx.drBytes.val ∧
    bufByte matching .tdomask 0 = 0#8 := by decide
theorem witness_AttemptClockCount :
    matching.tap = .shiftDr ∧ matching.ctx.drBits.toNat ≠ 0 ∧ matching.ctx.runtest = 0#32 := by decide
theorem witness_RetryBounceWalksAndWaits :
    (at_ .exit1Dr []).tap = .exit1Dr ∧ (at_ .shiftDr []).tap = .shiftDr := by decide
theorem witness_SettleRulesAreMirrored : State.reset.ctx.runtest = 0#32 ∧
    ({ State.reset.ctx with runtest := 5#32 } : Context).runtest ≠ 0#32 := by decide
theorem witness_XstateGoesThere : (0#8 : Byte).toNat ≤ 15 ∧ (15#8 : Byte).toNat ≤ 15 := by decide
theorem witness_WaitRecordsWalkAndWait : (15#8 : Byte).toNat ≤ 15 ∧
    Instr.xwait 1#8 6#8 0#32 = .xwait 1#8 6#8 0#32 := by decide
theorem witness_FixedPulsesAreExact : tapCode (at_ .pauseIr []).tap = (13#8 : Byte).toNat ∧
    tapNext (at_ .pauseIr []).tap false = (at_ .pauseIr []).tap := by decide
theorem witness_StepKeepsInvariant :
    let s := staged [0x12#8, 0x04#8] (at_ .runTestIdle [])
    let t := endless (staged [0x41#8] { at_ .runTestIdle [] with comment := some [] })
    (s.Inv ∧ ∃ u, step s = .next u) ∧ t.Inv ∧ t.comment ≠ none ∧ ∃ u, step t = .next u :=
  ⟨⟨⟨by decide, by decide, by decide, by decide, by decide, by decide⟩, _, rfl⟩,
    ⟨by decide, by decide, by decide, by decide, by decide, by decide⟩, by decide, _, rfl⟩
theorem witness_OnlyClocksMoveTheTap :
    (∃ t, step (staged [0x12#8, 0x04#8] (at_ .runTestIdle [])) = .next t) ∧
    (∃ t, step State.reset = .next t) ∧ ∃ t, step { State.reset with phase := .connected } = .next t :=
  ⟨⟨_, rfl⟩, ⟨_, rfl⟩, _, rfl⟩
theorem witness_ContextWriters : ∃ t, exec (.xrepeat 0#8) State.reset = .next t ∧
    t.ctx.retries ≠ State.reset.ctx.retries := ⟨_, rfl, by decide⟩
theorem witness_ErrorsByRecord : ∃ t, exec (.xendir 2#8) State.reset = .next t ∧
    t.ctx.error ≠ State.reset.ctx.error := ⟨_, rfl, by decide⟩
theorem witness_BufferWriters : SizesAgree matching ∧ ∃ t, exec (.xtdomask [0xF0#8]) matching = .next t ∧
    bufByte t .tdomask 0 ≠ bufByte matching .tdomask 0 := ⟨by decide, _, rfl, by decide⟩
/-- An opcode read; none; and a comment read on. -/
theorem witness_OneCountPerOpcode :
    let inside := endless (staged [0x41#8] { at_ .runTestIdle [] with comment := some [] })
    ((at_ .runTestIdle []).phase = .running ∧ ∃ t, step (at_ .runTestIdle []) = .next t) ∧
    (nextByte (staged [0x00#8] (at_ .runTestIdle []))).1.isSome = true ∧
    inside.phase = .running ∧ inside.comment ≠ none ∧ ∃ t, step inside = .next t :=
  ⟨⟨rfl, _, rfl⟩, by decide, rfl, by decide, _, rfl⟩

end Sys2Proof.Tests
end

/-! PROOF. The numeric error codes of R317: a kind's code differs from every code handed out before it, so the
table `errCodes` has no repeats, and each kind reads its own entry of it. -/

namespace Sys2Proof.Config

theorem freshCode_notMem (used : List Nat) (wish : Nat) : freshCode used wish ∉ used := by
  unfold freshCode
  split
  · intro h
    have := List.le_sum_of_mem h
    omega
  · assumption

theorem nodup_withCode {used : List Nat} (h : used.Nodup) (k : ErrorKind) : (withCode used k).Nodup :=
  h.append (List.nodup_singleton _) (List.disjoint_singleton.mpr (freshCode_notMem used _))

theorem nodup_foldl_withCode (ks : List ErrorKind) {used : List Nat} (h : used.Nodup) :
    (ks.foldl withCode used).Nodup := by
  induction ks generalizing used with
  | nil => exact h
  | cons k ks ih => exact ih (nodup_withCode h k)

theorem nodup_errCodes : errCodes.Nodup := nodup_foldl_withCode _ (List.nodup_singleton 0)

theorem length_errCodes : errCodes.length = 7 := rfl

theorem errIndex_lt_length_errCodes (k : ErrorKind) : errIndex k < errCodes.length := by
  rw [length_errCodes]
  cases k <;> decide

/-- The place in R40's order determines the kind: it is the number of the kind's constructor. -/
theorem errIndex_injective : Function.Injective errIndex :=
  Function.LeftInverse.injective (g := ErrorKind.ofNat) fun k => by cases k <;> rfl

theorem errCode_eq_getElem (k : ErrorKind) :
    errCode k = errCodes[errIndex k]'(errIndex_lt_length_errCodes k) :=
  List.getD_eq_getElem errCodes 0 (errIndex_lt_length_errCodes k)

theorem errCode_none : errCode .none = 0 := rfl

theorem errCode_injective : Function.Injective errCode := by
  intro k l h
  rw [errCode_eq_getElem, errCode_eq_getElem, nodup_errCodes.getElem_inj_iff] at h
  exact errIndex_injective h

end Sys2Proof.Config

namespace Sys2Proof

/-- Settles O12: the codes are fresh one after another, whatever each kind wishes for. -/
theorem statusCodesDistinct : Obligations.StatusCodesDistinct :=
  ⟨Config.errCode_none, fun _ _ h => Config.errCode_injective h⟩

end Sys2Proof

/-! PROOF. The invariant that every step keeps (10_state.md, 70_reset_and_hazards.md): the part of it that the
phase has no say in, what the interpreter leaves for the loop test, and the steps of the Session Driver. -/

namespace Sys2Proof.Machine

/-! ## The part of the invariant that is the same in every phase -/

/-- The size pairs, the end states, the cursors and the byte stores, which the phase has no say in. -/
structure DataInv (s : State) : Prop where
  sizes : SizesAgree s
  ends : EndStatesLegal s
  cursors : CursorsOrdered s
  stores : StoresCanonical s

theorem State.Inv.data {s : State} (h : s.Inv) : DataInv s := ⟨h.sizes, h.ends, h.cursors, h.stores⟩

theorem DataInv.congr {s t : State} (h : DataInv s) (hc : t.ctx = s.ctx) (hb : t.bufs = s.bufs)
    (hs : t.stage = s.stage) : DataInv t := by
  refine ⟨?_, ?_, ?_, ?_⟩
  · rw [SizesAgree, hc]; exact h.sizes
  · rw [EndStatesLegal, hc]; exact h.ends
  · rw [CursorsOrdered, hc]; exact h.cursors
  · rw [StoresCanonical, hb, hs]; exact h.stores

theorem dataInv_raise {s : State} (h : DataInv s) (e : ErrorKind) : DataInv (raise e s) :=
  ⟨h.sizes, h.ends, h.cursors, h.stores⟩

theorem dataInv_of_initial {s : State} (hc : s.ctx = .initial) (hb : s.bufs = .initial) (hs : s.stage = []) :
    DataInv s := by
  have reset : DataInv State.reset := ⟨by decide, by decide, by decide, reset_canonical⟩
  exact reset.congr hc hb hs

theorem phaseAgrees_running {s : State} (hp : s.phase = .running) :
    phaseAgrees s = true ↔ s.ctx.error = .none ∧ s.ctx.complete = false ∧ s.pins.mode = .driven := by
  simp [phaseAgrees, hp, and_assoc]

/-- Settles O54: everything is at its initial value, and the phase is Idle. -/
theorem resetSatisfiesInvariant : Obligations.ResetSatisfiesInvariant := by
  obtain ⟨sizes, ends, cursors, stores⟩ := dataInv_of_initial (s := State.reset) rfl rfl rfl
  exact ⟨sizes, ends, cursors, stores, by decide, .inl rfl⟩

/-! ## The end of a session and the loop test -/

/-- A session that ends with exactly one of the two flags set ends in the invariant (R48, R356, R359). -/
theorem endSession_inv {s : State} (h : DataInv s) (hc : s.comment = none)
    (hf : s.ctx.complete = true ∧ s.ctx.error = .none ∨ s.ctx.complete = false ∧ s.ctx.error ≠ .none) :
    (endSession s).Inv := by
  rw [endSession_eq]
  refine ⟨h.sizes, h.ends, h.cursors, h.stores, ?_, .inl hc⟩
  have last : (s.trace ++ trailer s).getLast? = some .release := by
    rw [List.getLast?_append, trailer_getLast?]; rfl
  obtain ⟨h1, h2⟩ | ⟨h1, h2⟩ := hf <;> simp [phaseAgrees, h1, h2, last]

/-- What a call of the interpreter leaves for the loop test: a running session in which at most one of the two
flags is set, and neither of them inside a comment. -/
structure LoopReady (s : State) : Prop where
  data : DataInv s
  phase : s.phase = .running
  mode : s.pins.mode = .driven
  flags : s.ctx.complete = false ∨ s.ctx.error = .none
  comment : s.comment = none ∨ s.ctx.complete = false ∧ s.ctx.error = .none ∧ s.env.host.endless ≠ none

theorem loopTest_inv {s : State} (h : LoopReady s) : (loopTest s).Inv := by
  obtain ⟨data, phase, mode, flags, comment⟩ := h
  obtain ⟨hc, he, e⟩ | ⟨ended, e⟩ := loopTest_cases s <;> rw [e]
  · refine ⟨data.sizes, data.ends, data.cursors, data.stores, ?_, ?_⟩
    · exact (phaseAgrees_running phase).mpr ⟨he, hc, mode⟩
    · exact comment.imp_right fun ⟨_, _, endless⟩ => ⟨phase, endless⟩
  · refine endSession_inv data ?_ ?_
    · refine comment.resolve_right fun ⟨hc, he, _⟩ => ?_
      simp [hc, he] at ended
    · cases hc : s.ctx.complete
      · exact .inr ⟨rfl, ended.resolve_left (by simp [hc])⟩
      · exact .inl ⟨rfl, flags.resolve_left (by simp [hc])⟩

/-! ## One call of the interpreter -/

/-- A record writes only legal end states (R38). -/
theorem RecordCtx.ends {i : Instr} {c d : Context} (h : RecordCtx i c d)
    (hc : (c.endIr = .runTestIdle ∨ c.endIr = .pauseIr) ∧ (c.endDr = .runTestIdle ∨ c.endDr = .pauseDr)) :
    (d.endIr = .runTestIdle ∨ d.endIr = .pauseIr) ∧ (d.endDr = .runTestIdle ∨ d.endDr = .pauseDr) := by
  cases h
  case endIr ht => exact ⟨ht, hc.2⟩
  case endDr ht => exact ⟨hc.1, ht⟩
  all_goals exact hc

/-- A record that finds both flags clear sets at most one. -/
theorem RecordCtx.flags {i : Instr} {c d : Context} (h : RecordCtx i c d) (he : c.error = .none)
    (hc : c.complete = false) : d.complete = false ∨ d.error = .none := by
  cases h
  case complete => exact .inr he
  all_goals exact .inl hc

theorem exec_dataInv {i : Instr} {s t : State} (h : exec i s = .next t) (hs : DataInv s) : DataInv t := by
  have frame := exec_framed h
  have stores := (storesCanonical_iff s).mp hs.stores
  refine ⟨frame.sizes hs.sizes, (exec_recordCtx h).ends hs.ends, ?_, (storesCanonical_iff t).mpr ⟨?_, ?_⟩⟩
  · rw [CursorsOrdered, frame.kept.rd, frame.kept.wr]; exact hs.cursors
  · exact frame.canonical hs.sizes stores.1
  · rw [frame.stage]; exact stores.2

theorem FetchedTo.dataInv {s w : State} (h : FetchedTo s w) (hs : DataInv s) : DataInv w := by
  have stores := (storesCanonical_iff s).mp hs.stores
  refine ⟨?_, ?_, h.cursors hs.cursors, (storesCanonical_iff w).mpr ⟨?_, h.stage stores.2⟩⟩
  · rw [SizesAgree, h.ctx]; exact hs.sizes
  · rw [EndStatesLegal, h.ctx]; exact hs.ends
  · rw [h.bufs]; exact stores.1

/-- Whatever a call of the interpreter comes to, the loop test can take it. -/
theorem interpret_loopReady {s u : State} (hs : s.Inv) (hp : s.phase = .running) (h : interpret s = .next u) :
    LoopReady u := by
  obtain ⟨error, complete, mode⟩ := (phaseAgrees_running hp).mp hs.phase
  obtain ⟨w, hw, next⟩ := interpret_cases h
  have data := hw.dataInv hs.data
  have phase : w.phase = .running := hw.phase.trans hp
  have mode : w.pins.mode = .driven := by rw [hw.pins]; exact mode
  have error : w.ctx.error = .none := by rw [hw.ctx]; exact error
  have complete : w.ctx.complete = false := by rw [hw.ctx]; exact complete
  obtain ⟨-, i, hi⟩ | ⟨e, -, rfl⟩ | ⟨endless, text, rfl⟩ := next
  · have frame := exec_framed hi
    exact ⟨exec_dataInv hi data, frame.phase.trans phase, frame.mode.trans mode,
      (exec_recordCtx hi).flags error complete, .inl (frame.comment.trans hw.comment)⟩
  · exact ⟨dataInv_raise data e, phase, mode, .inl complete, .inl hw.comment⟩
  · exact ⟨data.congr rfl rfl rfl, phase, mode, .inl complete, .inr ⟨complete, error, endless⟩⟩

/-! ## The start of a session -/

/-- What the VREF sense finds (R351, R352): `u` is `s` with the pins initialised and everything reset. -/
structure Started (s u : State) : Prop where
  ctx : u.ctx = .initial
  bufs : u.bufs = .initial
  stage : u.stage = []
  tap : u.tap = .testLogicReset
  mode : u.pins.mode = .driven
  comment : u.comment = none
  trace : u.trace = s.trace ++ [.pinsInit]

/-- A session starts in Connected, or ends at once with NotConnected (R353). -/
theorem startSession_cases (s : State) :
    ∃ u, Started s u ∧
      (startSession s = { u with phase := .connected } ∨
        startSession s = endSession (raise .notConnected u)) := by
  refine ⟨{ resetContext (initPins s) with env := (initPins s).env.drawVref.2 },
    ⟨rfl, rfl, rfl, rfl, rfl, rfl, rfl⟩, ?_⟩
  unfold startSession checkConnected
  dsimp only
  split
  · exact .inl rfl
  · exact .inr rfl

theorem startSession_inv (s : State) : (startSession s).Inv := by
  obtain ⟨u, hu, e | e⟩ := startSession_cases s <;> rw [e]
  · obtain ⟨sizes, ends, cursors, stores⟩ := dataInv_of_initial hu.ctx hu.bufs hu.stage
    exact ⟨sizes, ends, cursors, stores, by simp [phaseAgrees, hu.ctx, hu.mode, Context.initial],
      .inl hu.comment⟩
  · refine endSession_inv (dataInv_raise (dataInv_of_initial hu.ctx hu.bufs hu.stage) _) hu.comment ?_
    exact .inr ⟨by simp [hu.ctx, Context.initial], by simp⟩

theorem signalReady_inv {s : State} (h : s.Inv) (hp : s.phase = .connected) : (signalReady s).Inv := by
  obtain ⟨sizes, ends, cursors, stores, phase, comment⟩ := h
  refine ⟨sizes, ends, cursors, stores, ?_, .inl (comment.resolve_right fun ⟨k, _⟩ => by simp [hp] at k)⟩
  simpa [phaseAgrees, hp] using phase

/-- Settles O55: phase by phase; in a running session from what the interpreter leaves for the loop test. -/
theorem stepKeepsInvariant : Obligations.StepKeepsInvariant := by
  intro s t hs h
  cases hp : s.phase
  case running =>
    obtain ⟨u, hu, rfl⟩ := step_running hp h
    exact loopTest_inv (interpret_loopReady hs hp hu)
  all_goals
    simp only [step, hp, Host.Outcome.next.injEq] at h
    subst h
  case idle => exact startSession_inv s
  case connected => exact signalReady_inv hs hp
  case completed => exact hs
  case failed => exact hs

/-! ## Only clocks move the TAP -/

theorem tapAfter_of_noClk {ev : Event} (h : isClk ev = false) (t : TapState) : tapAfter t ev = t := by
  cases ev
  case clk => simp [isClk] at h
  all_goals rfl

theorem latchAfter_of_noClk {ev : Event} (h : isClk ev = false) (l : Bool) : latchAfter l ev = l := by
  cases ev
  case clk => simp [isClk] at h
  all_goals rfl

theorem clockCount_cons_eq_zero {ev : Event} {es : List Event} :
    clockCount (ev :: es) = 0 ↔ isClk ev = false ∧ clockCount es = 0 := by
  simp [clockCount]

theorem foldl_of_noClk {es : List Event} (h : clockCount es = 0) (t : TapState) (l : Bool) :
    es.foldl tapAfter t = t ∧ es.foldl latchAfter l = l := by
  induction es with
  | nil => exact ⟨rfl, rfl⟩
  | cons ev es ih =>
    obtain ⟨hev, hes⟩ := clockCount_cons_eq_zero.mp h
    rw [List.foldl_cons, List.foldl_cons, tapAfter_of_noClk hev, latchAfter_of_noClk hev]
    exact ih hes

/-- Events that are no clocks leave the TAP and the latch alone. -/
theorem Clocked.of_noClk {s t : State} {es : List Event} (hc : clockCount es = 0) (trace : t.trace = s.trace ++ es)
    (tap : t.tap = s.tap) (latch : t.pins.tdi = s.pins.tdi) : Clocked s t es := by
  obtain ⟨sameTap, sameLatch⟩ := foldl_of_noClk hc s.tap s.pins.tdi
  exact ⟨trace, tap.trans sameTap.symm, latch.trans sameLatch.symm⟩

theorem FetchedTo.clocked {s w : State} (h : FetchedTo s w) : ∃ es, Clocked s w es := by
  obtain ⟨n, trace⟩ := h.trace
  refine ⟨_, .of_noClk ?_ trace h.tap (by rw [h.pins])⟩
  simp [clockCount, List.countP_replicate, isClk]

theorem endSession_clocked (s : State) : Clocked s (endSession s) (trailer s) := by
  rw [endSession_eq]
  exact .of_noClk (trailer_clockCount s) rfl rfl rfl

theorem loopTest_clocked (s : State) : ∃ es, Clocked s (loopTest s) es := by
  obtain ⟨-, -, e⟩ | ⟨-, e⟩ := loopTest_cases s <;> rw [e]
  · exact ⟨[], .refl s⟩
  · exact ⟨_, endSession_clocked s⟩

theorem interpret_clocked {s u : State} (h : interpret s = .next u) : ∃ es, Clocked s u es := by
  obtain ⟨w, hw, next⟩ := interpret_cases h
  obtain ⟨es, fetched⟩ := hw.clocked
  obtain ⟨-, i, hi⟩ | ⟨e, -, rfl⟩ | ⟨-, text, rfl⟩ := next
  · obtain ⟨fs, ran⟩ := (exec_framed hi).clocked
    exact ⟨_, fetched.trans ran⟩
  · exact ⟨es, fetched.trace, fetched.tap, fetched.latch⟩
  · exact ⟨es, fetched.trace, fetched.tap, fetched.latch⟩

/-- The session start clocks nothing and sets the TAP to TEST_LOGIC_RESET (R351, R360). -/
theorem startSession_trace (s : State) :
    ∃ es, (startSession s).trace = s.trace ++ es ∧ clockCount es = 0 ∧
      (startSession s).tap = .testLogicReset := by
  obtain ⟨u, hu, e | e⟩ := startSession_cases s <;> rw [e]
  · exact ⟨[.pinsInit], hu.trace, rfl, hu.tap⟩
  · refine ⟨[.pinsInit] ++ trailer (raise .notConnected u), ?_, ?_, ?_⟩
    · rw [(endSession_clocked _).trace, raise_trace, hu.trace, List.append_assoc]
    · rw [clockCount, List.countP_append]
      exact congrArg (0 + ·) (trailer_clockCount _)
    · rw [endSession_eq]; exact hu.tap

/-- Settles O56: phase by phase; a running session only reads, clocks and reports. -/
theorem onlyClocksMoveTheTap : Obligations.OnlyClocksMoveTheTap := by
  intro s t h
  cases hp : s.phase
  case running =>
    obtain ⟨u, hu, rfl⟩ := step_running hp h
    obtain ⟨es, before⟩ := interpret_clocked hu
    obtain ⟨fs, after⟩ := loopTest_clocked u
    have all := before.trans after
    exact ⟨es ++ fs, all.trace, fun _ => ⟨all.tap, all.latch⟩, by simp, by simp, by simp⟩
  all_goals
    simp only [step, hp, Host.Outcome.next.injEq] at h
    subst h
  case idle =>
    obtain ⟨es, trace, quiet, tap⟩ := startSession_trace s
    exact ⟨es, trace, by simp, fun _ => quiet, fun _ => tap, by simp⟩
  case connected => exact ⟨[.ready], rfl, by simp, fun _ => rfl, by simp, fun _ _ => rfl⟩
  case completed => exact ⟨[], by simp, by simp, fun _ => rfl, by simp, fun _ _ => rfl⟩
  case failed => exact ⟨[], by simp, by simp, fun _ => rfl, by simp, fun _ _ => rfl⟩

end Sys2Proof.Machine

/-! PROOF. What each record may write of the state (10_state.md, R33, R43): the setup records' fields, the frame of
a DR record, the writers of each context field and of each scan buffer. -/

namespace Sys2Proof.Machine

/-! ## Setup records -/

/-- Settles O31: XCOMPLETE is R193's one assignment. -/
theorem xcompleteSetsTheFlag : Obligations.XcompleteSetsTheFlag := fun _ => rfl

theorem exec_xsdrsize (bits : Word) (s : State) :
    exec (.xsdrsize bits) s = .next (setDrSize bits.toNat s).state := rfl

/-- Settles O33: the size check decides, and the pair that is written keeps its values up to 1032. -/
theorem xsdrsizeChecksThenWrites : Obligations.XsdrsizeChecksThenWrites := by
  intro s bits
  obtain ⟨h, e⟩ | ⟨h, e⟩ := setDrSize_cases bits.toNat s <;> rw [exec_xsdrsize, e]
  · exact ⟨fun _ => ⟨drSized bits.toNat s, rfl, ofNat_drBits h, ofNat_bytes h, rfl⟩, fun k => by omega⟩
  · exact ⟨fun k => by omega, fun _ => rfl⟩

/-- From 2 on, a code selects no end state. -/
theorem endState_of_two_le (pause : TapState) {code : Byte} (h : 2 ≤ code.toNat) :
    endState pause code = none := by
  obtain ⟨rfl, -⟩ | ⟨rfl, -⟩ | ⟨-, -, e⟩ := endState_cases pause code
  · simp at h
  · simp at h
  · exact e

/-- Settles O34: the codes 0 and 1 by computation, the others because they select nothing. -/
theorem endStateRecordsSelect : Obligations.EndStateRecordsSelect := by
  intro s code
  refine ⟨?_, ?_, fun h => ?_⟩
  · rintro rfl; exact ⟨rfl, rfl⟩
  · rintro rfl; exact ⟨rfl, rfl⟩
  · simp only [exec, execXendir, execXenddr, endState_of_two_le _ h]
    exact ⟨rfl, rfl⟩

/-! ## DR records with whole vectors -/

/-- The vectors of a DR record in their buffers. -/
def withDrVectors (tdi : List Byte) (exp : Option (List Byte)) (s : State) : State :=
  match exp with
  | none => withVector .tdi tdi s
  | some e => withVector .tdoexp e (withVector .tdi tdi s)

theorem filled_eq_withVector {b : BufName} {v : List Byte} {n : Nat} (s : State) (h : v.length = n) :
    filled b v n s = withVector b v s := by
  rw [filled, withVector, ← h, List.take_length]

theorem drRecord_whole {f : DrFlags} {tdi : List Byte} {s : State} (h : tdi.length = s.ctx.drBytes.val) :
    drRecord f tdi s = drScan f (withVector .tdi tdi s) := by
  rw [drRecord, fill_whole _ _ _ h.ge, filled_eq_withVector s h]; rfl

theorem drRecordExp_whole {f : DrFlags} {tdi exp : List Byte} {s : State}
    (h : tdi.length = s.ctx.drBytes.val) (h' : exp.length = s.ctx.drBytes.val) :
    drRecordExp f tdi exp s = drScan f (withVector .tdoexp exp (withVector .tdi tdi s)) := by
  have second := fill_whole .tdoexp exp (withVector .tdi tdi s) h'.ge
  rw [filled_eq_withVector _ h'] at second
  rw [drRecordExp, fill_whole _ _ _ h.ge, filled_eq_withVector s h, andThen_go]
  exact congrArg (Flow.andThen · (drScan f)) second

/-- A DR record with whole vectors stores them and scans (R251, R260 to R267). -/
theorem exec_dr_whole {i : Instr} {f : DrFlags} {tdi : List Byte} {exp : Option (List Byte)} {s : State}
    (hi : drOperands i = some (f, tdi, exp)) (h : tdi.length = s.ctx.drBytes.val)
    (h' : ∀ e, exp = some e → e.length = s.ctx.drBytes.val) :
    exec i s = .next (drScan f (withDrVectors tdi exp s)).state := by
  have one (v : List Byte) (hv : tdi = v) (hx : exp = none) :
      (drRecord f v s).result = .next (drScan f (withDrVectors tdi exp s)).state := by
    subst hv hx; rw [drRecord_whole h]; rfl
  have two (v w : List Byte) (hv : tdi = v) (hx : exp = some w) :
      (drRecordExp f v w s).result = .next (drScan f (withDrVectors tdi exp s)).state := by
    subst hv; rw [drRecordExp_whole h (h' w hx), hx]; rfl
  cases i <;> simp only [drOperands, Option.some.injEq, Prod.mk.injEq, reduceCtorEq] at hi <;>
    obtain ⟨rfl, hv, hx⟩ := hi
  case xsdr | xsdrb | xsdrc | xsdre => exact one _ hv.symm hx.symm
  case xsdrtdo | xsdrtdob | xsdrtdoc | xsdrtdoe => exact two _ _ hv.symm hx.symm

/-- A vector stored changes its buffer alone, and there the bytes below its length. -/
theorem withVector_byte (b c : BufName) (v : List Byte) (s : State) (j : Nat) :
    bufByte (withVector b v s) c j = if c = b ∧ j < v.length then v.getD j 0#8 else bufByte s c j := by
  rw [← filled_eq_withVector s rfl]
  by_cases hc : c = b
  · subst hc; simp [filled_byte]
  · simp [filled_ne _ _ _ _ _ hc, hc]

/-- Storing the vectors of a DR record leaves all but the scan buffers alone. -/
theorem withDrVectors_eq (tdi : List Byte) (exp : Option (List Byte)) (s : State) :
    withDrVectors tdi exp s = { s with bufs := (withDrVectors tdi exp s).bufs } := by
  cases exp <;> rfl

theorem withDrVectors_tdi (tdi : List Byte) (exp : Option (List Byte)) (s : State) (j : Nat) :
    bufByte (withDrVectors tdi exp s) .tdi j = if j < tdi.length then tdi.getD j 0#8 else bufByte s .tdi j := by
  cases exp <;> simp [withDrVectors, withVector_byte]

theorem withDrVectors_tdoexp (tdi : List Byte) (exp : Option (List Byte)) (s : State) {n : Nat}
    (h : ∀ e, exp = some e → e.length = n) (j : Nat) :
    bufByte (withDrVectors tdi exp s) .tdoexp j =
      if j < n then exp.elim (bufByte s .tdoexp j) (List.getD · j 0#8) else bufByte s .tdoexp j := by
  cases exp with
  | none => simp [withDrVectors, withVector_byte]
  | some e => obtain rfl := h e rfl; simp [withDrVectors, withVector_byte]

theorem withDrVectors_other (tdi : List Byte) (exp : Option (List Byte)) (s : State) {b : BufName}
    (h : b ≠ .tdi) (h' : b ≠ .tdoexp) (j : Nat) : bufByte (withDrVectors tdi exp s) b j = bufByte s b j := by
  cases exp <;> simp [withDrVectors, withVector_byte, h, h']

/-- Of the scan buffers a DR scan writes `TDOCAP` alone. -/
theorem drScan_byte (f : DrFlags) (s : State) {b : BufName} (h : b ≠ .tdocap) (j : Nat) :
    bufByte (drScan f s).state b j = bufByte s b j := by
  obtain ⟨t, ht, e | ⟨-, e⟩⟩ := drScan_cases f s <;> rw [e] <;>
    exact congrArg (Memory.get · j) (ht.only.bufs b h)

/-- Settles O43: the vectors are stored, and the scan leaves all but `TDOCAP` and the error alone. -/
theorem drRecordsFrame : Obligations.DrRecordsFrame := by
  intro s i f tdi exp hs hi h h'
  have frame := framed_drScan f (withDrVectors tdi exp s)
  have ctx := drScan_ctx f (withDrVectors tdi exp s)
  have kept := withDrVectors_eq tdi exp s
  refine ⟨_, exec_dr_whole hi h h', ?_, fun j => ?_, fun j => ?_, fun j hj => ?_, fun b j hb => ?_,
    ?_, ?_, ?_, ?_, ?_⟩
  · rwa [show (withDrVectors tdi exp s).ctx = s.ctx by rw [kept]] at ctx
  · rw [drScan_byte f _ (by decide), withDrVectors_tdi, h]
  · rw [drScan_byte f _ (by decide), withDrVectors_tdoexp _ _ _ h']
    cases exp <;> rfl
  · rw [drScan_above, withDrVectors_other _ _ _ (by decide) (by decide)]
    rw [kept, ← hs.2]; exact hj
  · rw [drScan_byte, withDrVectors_other] <;> rintro rfl <;> simp at hb
  · rw [frame.stage, kept]
  · rw [frame.phase, kept]
  · rw [frame.comment, kept]
  · rw [frame.mode, kept]
  · rw [frame.host, kept]

/-! ## Writers of the context

One lemma for each group of fields: a record that changes it is one that R33 lets write it. -/

theorem RecordCtx.irSize_writer {i : Instr} {c d : Context} (h : RecordCtx i c d)
    (hd : d.irBits ≠ c.irBits ∨ d.irBytes ≠ c.irBytes) :
    ∃ tdi, (∃ len, i = .xsir len tdi) ∨ ∃ len, i = .xsir2 len tdi := by
  cases h
  case irSize _ hi | irSizeCut _ hi => exact ⟨_, hi⟩
  all_goals simp at hd

theorem RecordCtx.drSize_writer {i : Instr} {c d : Context} (h : RecordCtx i c d)
    (hd : d.drBits ≠ c.drBits ∨ d.drBytes ≠ c.drBytes) : ∃ bits, i = .xsdrsize bits := by
  cases h
  case drSize => exact ⟨_, rfl⟩
  all_goals simp at hd

theorem RecordCtx.retries_writer {i : Instr} {c d : Context} (h : RecordCtx i c d)
    (hd : d.retries ≠ c.retries) : ∃ n, i = .xrepeat n := by
  cases h
  case retries => exact ⟨_, rfl⟩
  all_goals exact absurd rfl hd

theorem RecordCtx.xstate_writer {i : Instr} {c d : Context} (h : RecordCtx i c d)
    (hd : d.xstate ≠ c.xstate) : ∃ b, i = .xstate b := by
  cases h
  case xstate => exact ⟨_, rfl⟩
  all_goals exact absurd rfl hd

theorem RecordCtx.endIr_writer {i : Instr} {c d : Context} (h : RecordCtx i c d)
    (hd : d.endIr ≠ c.endIr) : ∃ code, i = .xendir code := by
  cases h
  case endIr => exact ⟨_, rfl⟩
  all_goals exact absurd rfl hd

theorem RecordCtx.endDr_writer {i : Instr} {c d : Context} (h : RecordCtx i c d)
    (hd : d.endDr ≠ c.endDr) : ∃ code, i = .xenddr code := by
  cases h
  case endDr => exact ⟨_, rfl⟩
  all_goals exact absurd rfl hd

theorem RecordCtx.runtest_writer {i : Instr} {c d : Context} (h : RecordCtx i c d)
    (hd : d.runtest ≠ c.runtest) : ∃ us, i = .xruntest us := by
  cases h
  case runtest => exact ⟨_, rfl⟩
  all_goals exact absurd rfl hd

theorem RecordCtx.wait_writer {i : Instr} {c d : Context} (h : RecordCtx i c d)
    (hd : d.waitStart ≠ c.waitStart ∨ d.waitEnd ≠ c.waitEnd ∨ d.waitClocks ≠ c.waitClocks ∨
      d.waitUs ≠ c.waitUs) :
    ∃ a b us, i = .xwait a b us ∨ ∃ clocks, i = .xwaitstate a b clocks us := by
  cases h
  case wait => exact ⟨_, _, _, .inl rfl⟩
  case waitState => exact ⟨_, _, _, .inr ⟨_, rfl⟩⟩
  all_goals simp at hd

theorem RecordCtx.complete_writer {i : Instr} {c d : Context} (h : RecordCtx i c d)
    (hd : d.complete ≠ c.complete) : i = .xcomplete := by
  cases h
  case complete => rfl
  all_goals exact absurd rfl hd

/-- Settles O57: field by field from what a record does to the context, and the rest from its frame. -/
theorem contextWriters : Obligations.ContextWriters := by
  intro i s t h
  have ctx := exec_recordCtx h
  have frame := exec_framed h
  exact ⟨ctx.irSize_writer, ctx.drSize_writer, ctx.retries_writer, ctx.xstate_writer, ctx.endIr_writer,
    ctx.endDr_writer, ctx.runtest_writer, ctx.wait_writer, ctx.complete_writer,
    frame.kept.instrCount, frame.kept.checksum, frame.kept.consumed, frame.kept.rd, frame.kept.wr,
    frame.stage, frame.host, frame.phase, frame.comment, frame.mode⟩

end Sys2Proof.Machine

/-! PROOF. Which records write which scan buffer (10_state.md, R43): a record without a vector leaves the buffers
alone, and a record with one changes the bytes its vectors and its scan change. -/

namespace Sys2Proof.Machine

theorem waitRecord_bufs {start stop : Byte} {clocks us : Word} {s t : State}
    (h : waitRecord start stop clocks us s = .next t) : t.bufs = s.bufs := by
  obtain ⟨b, -, e⟩ | ⟨ts, te, -, -, e⟩ := waitRecord_cases start stop clocks us s <;> rw [e] at h
  · simp at h
  · obtain rfl := Host.Outcome.next.inj h
    exact (waitWalk_onlyClocked ts te clocks us _).bufs

/-- A record that R43 gives no scan buffer leaves all six alone. -/
theorem exec_bufs {i : Instr} {s t : State} (hi : ∀ b, writesBuffer i b = false) (h : exec i s = .next t) :
    t.bufs = s.bufs := by
  cases i
  case xcomplete | xruntest | xrepeat | xcomment | xtrst => obtain rfl := Host.Outcome.next.inj h; rfl
  case xsdrsize bits =>
    rw [exec_xsdrsize] at h
    obtain rfl := Host.Outcome.next.inj h
    obtain ⟨-, e⟩ | ⟨-, e⟩ := setDrSize_cases bits.toNat s <;> rw [e] <;> rfl
  case xendir code | xenddr code =>
    simp only [exec, execXendir, execXenddr] at h
    split at h <;> obtain rfl := Host.Outcome.next.inj h <;> rfl
  case xstate b =>
    obtain ⟨tap, -, e⟩ | ⟨-, e⟩ := stateArg_cases b <;> simp only [exec, execXstate, e] at h
    · obtain rfl := Host.Outcome.next.inj h
      exact (gotoTap_onlyClocked _ _).bufs
    · simp at h
  case xwait | xwaitstate => exact waitRecord_bufs h
  case xtdomask => exact absurd (hi .tdomask) (by simp [writesBuffer])
  case xsetsdrmasks => exact absurd (hi .addrmask) (by simp [writesBuffer])
  all_goals exact absurd (hi .tdi) (by simp [writesBuffer])

/-- Two vectors one after the other change only their buffers, and only below their length. -/
theorem setsdrmasks_changes {addr data : List Byte} {s t : State} {b : BufName} {j : Nat}
    (h : execXsetsdrmasks addr data s = .next t) (hb : bufByte t b j ≠ bufByte s b j) :
    (b = .addrmask ∨ b = .datamask) ∧ j < s.ctx.drBytes.val := by
  by_cases h1 : bufByte (filled .addrmask addr s.ctx.drBytes.val s) b j = bufByte s b j
  · rw [← h1] at hb
    have second := @filled_changes .datamask b data s.ctx.drBytes.val j (filled .addrmask addr s.ctx.drBytes.val s)
    obtain ⟨-, e⟩ | ⟨-, -, e⟩ | ⟨-, -, e⟩ := setsdrmasks_cases addr data s <;>
      obtain rfl := Host.Outcome.next.inj (e.symm.trans h)
    · exact absurd rfl hb
    · exact (second hb).imp_left .inr
    · exact (second hb).imp_left .inr
  · exact (filled_changes h1).imp_left .inl

/-- Settles O59: record by record, from what its vectors and its scan change. -/
theorem bufferWriters : Obligations.BufferWriters := by
  intro i s t hs h b j hb
  have quiet (hi : ∀ b, writesBuffer i b = false) : False :=
    hb (congrArg (fun m => (m.get b).get j) (exec_bufs hi h))
  cases i
  case xtdomask | xsdrinc =>
    obtain rfl := Host.Outcome.next.inj h
    obtain ⟨rfl, hj⟩ := fill_changes hb
    exact ⟨rfl, hj⟩
  case xsetsdrmasks =>
    obtain ⟨rfl | rfl, hj⟩ := setsdrmasks_changes h hb <;> exact ⟨rfl, hj⟩
  case xsir | xsir2 =>
    obtain rfl := Host.Outcome.next.inj h
    obtain ⟨rfl | rfl, hj⟩ := irRecord_changes hb <;> exact ⟨rfl, hj⟩
  case xsdr | xsdrb | xsdrc | xsdre =>
    obtain rfl := Host.Outcome.next.inj h
    obtain ⟨rfl | rfl, hj⟩ := drRecord_changes hs hb <;> exact ⟨rfl, hj⟩
  case xsdrtdo | xsdrtdob | xsdrtdoc | xsdrtdoe =>
    obtain rfl := Host.Outcome.next.inj h
    obtain ⟨rfl | rfl | rfl, hj⟩ := drRecordExp_changes hs hb <;> exact ⟨rfl, hj⟩
  all_goals exact (quiet fun b => by cases b <;> rfl).elim

end Sys2Proof.Machine

/-! PROOF. The decoder accepts only encodings of whole records, so a step's reads advance the consumed count by the
record's length (42_xsvf_decode_setup.md, section 1; R101, R191). -/

namespace Sys2Proof

theorem eq_of_opcode {op : Byte} {n : Nat} (h : op.toNat = n) : op = BitVec.ofNat 8 n := by
  rw [← h, BitVec.ofNat_toNat, BitVec.setWidth_eq]

/-- Parameters read whole are a whole record's, and the bytes read are its encoding. -/
theorem parseBody_whole {d fuel : Nat} {op : Byte} {rest after : List Byte} {i : Instr}
    (h : parseBody listReader d fuel op rest = .whole i after) :
    WellFormed d i ∧ op :: rest = encode i ++ after := by
  unfold parseBody at h
  split at h
  case h_1 ho =>
    obtain ⟨rfl, rfl⟩ := Parsed.whole.inj h
    exact ⟨rfl, by rw [eq_of_opcode ho]; rfl⟩
  case h_2 ho | h_4 ho | h_10 ho | h_11 ho | h_12 ho | h_13 ho =>
    obtain ⟨v, hv, rfl, rfl⟩ := parseVector_whole h
    exact ⟨by simpa [WellFormed, Instr.wellFormed] using hv, by rw [eq_of_opcode ho]; rfl⟩
  case h_8 ho | h_9 ho | h_14 ho | h_15 ho | h_16 ho =>
    obtain ⟨v, w, hv, hw, rfl, rfl⟩ := parseVectors_whole h
    exact ⟨by simp [WellFormed, Instr.wellFormed, hv, hw], by simp [eq_of_opcode ho, encode]⟩
  case h_3 ho =>
    obtain ⟨len, l1, rfl, h1⟩ := parseByte_whole h
    obtain ⟨v, hv, rfl, rfl⟩ := parseVector_whole h1
    exact ⟨by simpa [WellFormed, Instr.wellFormed] using hv, by rw [eq_of_opcode ho]; rfl⟩
  case h_20 ho =>
    obtain ⟨hi, l1, rfl, h1⟩ := parseByte_whole h
    obtain ⟨lo, l2, rfl, h2⟩ := parseByte_whole h1
    obtain ⟨v, hv, rfl, rfl⟩ := parseVector_whole h2
    exact ⟨by simpa [WellFormed, Instr.wellFormed] using hv, by rw [eq_of_opcode ho, encode, bytes16_be16]; rfl⟩
  case h_5 ho | h_7 ho =>
    obtain ⟨w, l1, rfl, h1⟩ := parseLong_whole h
    obtain ⟨rfl, rfl⟩ := Parsed.whole.inj h1
    exact ⟨rfl, by rw [eq_of_opcode ho]; rfl⟩
  case h_6 ho | h_17 ho | h_18 ho | h_19 ho | h_24 ho =>
    obtain ⟨b, l1, rfl, h1⟩ := parseByte_whole h
    obtain ⟨rfl, rfl⟩ := Parsed.whole.inj h1
    exact ⟨rfl, by rw [eq_of_opcode ho]; rfl⟩
  case h_21 ho =>
    obtain ⟨text, ht, rfl, rfl⟩ := parseText_whole h
    exact ⟨by simpa [WellFormed, Instr.wellFormed] using ht, by simp [eq_of_opcode ho, encode]⟩
  case h_22 ho =>
    obtain ⟨start, l1, rfl, h1⟩ := parseByte_whole h
    obtain ⟨stop, l2, rfl, h2⟩ := parseByte_whole h1
    obtain ⟨us, l3, rfl, h3⟩ := parseLong_whole h2
    obtain ⟨rfl, rfl⟩ := Parsed.whole.inj h3
    exact ⟨rfl, by rw [eq_of_opcode ho]; rfl⟩
  case h_23 ho =>
    obtain ⟨start, l1, rfl, h1⟩ := parseByte_whole h
    obtain ⟨stop, l2, rfl, h2⟩ := parseByte_whole h1
    obtain ⟨clocks, l3, rfl, h3⟩ := parseLong_whole h2
    obtain ⟨us, l4, rfl, h4⟩ := parseLong_whole h3
    obtain ⟨rfl, rfl⟩ := Parsed.whole.inj h4
    exact ⟨rfl, by simp [eq_of_opcode ho, encode]⟩
  case h_25 => simp at h

/-- What decodes is a whole record's encoding, and what follows it is left. -/
theorem decode_eq_ok {d : Nat} {bytes after : List Byte} {i : Instr} (h : decode d bytes = .ok (i, after)) :
    WellFormed d i ∧ bytes = encode i ++ after := by
  obtain ⟨op, rest, rfl, hp⟩ := decode_ok h
  exact parseBody_whole hp

theorem encode_length {d : Nat} {i : Instr} (h : WellFormed d i) : (encode i).length = recordBytes d i := by
  open Laws.RecordLength in
  cases i
  case xcomplete => exact xcomplete d h
  case xtdomask => exact xtdomask _ d h
  case xsir => exact xsir _ _ d h
  case xsdr => exact xsdr _ d h
  case xruntest => exact xruntest _ d h
  case xrepeat => exact xrepeat _ d h
  case xsdrsize => exact xsdrsize _ d h
  case xsdrtdo => exact xsdrtdo _ _ d h
  case xsetsdrmasks => exact xsetsdrmasks _ _ d h
  case xsdrinc => exact xsdrinc _ d h
  case xsdrb => exact xsdrb _ d h
  case xsdrc => exact xsdrc _ d h
  case xsdre => exact xsdre _ d h
  case xsdrtdob => exact xsdrtdob _ _ d h
  case xsdrtdoc => exact xsdrtdoc _ _ d h
  case xsdrtdoe => exact xsdrtdoe _ _ d h
  case xstate => exact xstate _ d h
  case xendir => exact xendir _ d h
  case xenddr => exact xenddr _ d h
  case xsir2 => exact xsir2 _ _ d h
  case xcomment => exact xcomment _ d h
  case xwait => exact xwait _ _ _ d h
  case xwaitstate => exact xwaitstate _ _ _ _ d h
  case xtrst => exact xtrst _ d h

end Sys2Proof

namespace Sys2Proof.Machine

theorem Follows.consumed {s t : State} {bytes : List Byte} (h : Follows t bytes s) :
    t.ctx.consumed = s.ctx.consumed + BitVec.ofNat 32 bytes.length := by
  obtain ⟨-, -, -, consumed, -⟩ := readVector_spec bytes.length s
  rwa [h] at consumed

/-- Settles O17: the stream is fetched as the list decodes, and the list is the record's encoding. -/
theorem stepRunsTheDecodedRecord : Obligations.StepRunsTheDecodedRecord := by
  intro s t bytes i hp hc he (h : Follows t bytes s) hd
  constructor
  · rw [step, hp]
    simp only [interpret, fetchRecord_of_decode hc he h hd, execFetched]
  · obtain ⟨whole, rfl⟩ := decode_eq_ok hd
    rw [h.consumed, List.append_nil, encode_length whole]

end Sys2Proof.Machine

/-! PROOF. The stream reader (20_memory.md, R71 to R77): what one read takes, what a refill delivers and which counts
it may deliver, and that the refills do not show in the checksum and the count (R325). -/

namespace Sys2Proof.Machine

/-! ## One read -/

/-- Settles O13: with the cursors in order, the buffer is exhausted exactly where the cursors meet. -/
theorem nextByteTakesOne : Obligations.NextByteTakesOne := by
  intro s ordered
  have exhausted : ¬ s.ctx.rd < s.ctx.wr ↔ s.ctx.rd = s.ctx.wr :=
    ⟨fun h => le_antisymm ordered (not_lt.mp h), fun h => h ▸ lt_irrefl _⟩
  obtain ⟨buffered, e⟩ | ⟨empty, ok, refilled, e⟩ | ⟨empty, failed, e⟩ := nextByte_cases s
  · rw [if_neg (fun h => exhausted.mpr h buffered)]
    exact ⟨_, e, takeByte_rd buffered, rfl, rfl, rfl⟩
  · rw [if_pos (exhausted.mp empty)]
    dsimp only
    rw [if_pos ok]
    exact ⟨_, e, takeByte_rd refilled, rfl, rfl, rfl⟩
  · rw [if_pos (exhausted.mp empty)]
    dsimp only
    rw [if_neg (by simp [failed])]
    exact e

/-! ## What a refill delivers -/

/-- Settles O14: the count is `refillBytes`, and the refill moves so many bytes off the front of the host stream. -/
theorem refillTakesTheNextBytes : Obligations.RefillTakesTheNextBytes := by
  intro s
  refine ⟨refillBytes s, (refillBytes_le s).1, refillBytes_zero, ?_, rfl, refill_wr s, fun i => refill_staged,
    fun i => byte_drop _ _ i, rfl, rfl, rfl, rfl, rfl⟩
  rw [refill_fst, Bool.eq_iff_iff, bne_iff_ne, decide_eq_true_iff]
  exact Nat.pos_iff_ne_zero.symm

/-- A poll that finds `k` bytes at once, and none after it, delivers just these. -/
theorem pollLoop_once (n : Nat) {k room left : Nat} {e : Env} (h : e.polls = k :: List.replicate n 0)
    (hr : k ≤ room) (hl : k ≤ left) : (pollLoop (n + 1) room left e).1 = k := by
  rw [pollLoop]
  split
  · next stop => dsimp only; omega
  · have draw : e.drawPoll = (k, { e with polls := List.replicate n 0 }) := by simp [Env.drawPoll, h]
    have idle := pollLoop_idle n (room - k) (left - k) (e := { e with polls := List.replicate n 0 }) rfl
    simp [draw, hr, hl, idle]

/-- A byte of the stream within one chunk is one that a refill can find. -/
theorem lt_offer_of_byte {h : HostStream} {i : Nat} (hi : i < 62) (hb : h.byte i ≠ none) : i < h.offer := by
  unfold HostStream.byte at hb
  unfold HostStream.offer
  cases he : h.endless with
  | none => simpa [he] using hb
  | some k => simpa [Config.stageCap] using hi

/-- A refill whose first poll finds `k` bytes, and no later one any, delivers `k` bytes. -/
theorem refillBytes_once {s : State} {k : Nat} (h : s.env.polls = k :: List.replicate 15 0) (one : 1 ≤ k)
    (most : k ≤ 62) (found : k ≤ s.env.host.offer) : refillBytes s = k := by
  have delivered : (pollLoop Config.pollRetries Config.stageCap s.env.host.offer s.env).1 = k :=
    pollLoop_once 15 h most found
  rw [refillBytes, delivered, refillCount, if_neg (by omega)]

/-- A refill whose polls find nothing delivers a byte only from a host that is timely. -/
theorem refill_idle {s : State} (h : s.env.polls = List.replicate Config.pollRetries 0)
    (left : 1 ≤ s.env.host.offer) : (refill s).1 = Config.hostTimely := by
  rw [refill_fst, refillBytes, pollLoop_idle _ _ _ h, refillCount, if_pos rfl, if_neg (by omega)]
  cases Config.hostTimely <;> rfl

/-- Settles O15: one poll finds all `k` bytes, or no poll finds any. -/
theorem refillMayDeliverAnyCount : Obligations.RefillMayDeliverAnyCount := by
  intro s k one most has
  have found : k ≤ s.env.host.offer := by
    have := lt_offer_of_byte (i := k - 1) (by omega) has
    omega
  refine ⟨⟨k :: List.replicate 15 0, ?_⟩, List.replicate Config.pollRetries 0, ?_⟩
  · have count := refillBytes_once (s := { s with env := { s.env with polls := k :: List.replicate 15 0 } })
      rfl one most found
    refine ⟨?_, (refill_wr _).trans count⟩
    rw [refill_fst, count, bne_iff_ne]; omega
  · exact refill_idle rfl (one.trans found)

/-! ## The checksum -/

/-- Settles O16: both runs of reads give the bytes still to come, so they checksum and count the same ones. -/
theorem checksumIgnoresRefills : Obligations.ChecksumIgnoresRefills := by
  intro s t n same checksum consumed hs ht
  obtain ⟨-, bytesS, -, consumedS, checksumS, -⟩ := readVector_spec n s
  obtain ⟨-, bytesT, -, consumedT, checksumT, -⟩ := readVector_spec n t
  rw [hs] at bytesS consumedS
  rw [ht] at bytesT consumedT
  have equal : (readVector nextByte n t).1 = (readVector nextByte n s).1 := by
    refine List.ext_getElem (ht.trans hs.symm) fun i hi hi' => ?_
    have := (bytesT i (ht ▸ hi)).symm.trans ((same i).symm.trans (bytesS i (ht ▸ hi)))
    rw [List.getD_eq_getElem _ _ hi, List.getD_eq_getElem _ _ hi'] at this
    exact Option.some.inj this
  refine ⟨bytesS, equal, ?_, ?_, consumedS⟩
  · rw [checksumS, checksumT, equal, checksum]
  · rw [consumedS, consumedT, consumed]

end Sys2Proof.Machine

/-! PROOF. Vectors in the scan buffers (20_memory.md, R79, R314): what the setup and scan records leave of a whole
vector and of one that the stream cuts short. -/

namespace Sys2Proof.Machine

/-! ## Whole vectors -/

/-- Two vectors stored in two buffers change these alone, and there the bytes below their lengths. -/
theorem withVector_withVector_byte {b c : BufName} (hne : b ≠ c) (v w : List Byte) (s : State) (d : BufName)
    (j : Nat) : bufByte (withVector c w (withVector b v s)) d j =
      if d = b ∧ j < v.length then v.getD j 0#8
      else if d = c ∧ j < w.length then w.getD j 0#8
      else bufByte s d j := by
  rw [withVector_byte, withVector_byte]
  by_cases hd : d = b
  · subst hd; simp [hne]
  · simp [hd]

theorem fill_exact (b : BufName) {v : List Byte} {n : Nat} (s : State) (h : v.length = n) :
    fill b v n s = .go (withVector b v s) := by
  rw [fill_whole b v s h.ge, filled_eq_withVector s h]

theorem setsdrmasks_exact {v w : List Byte} {s : State} (hv : v.length = s.ctx.drBytes.val)
    (hw : w.length = s.ctx.drBytes.val) :
    exec (.xsetsdrmasks v w) s = .next (withVector .datamask w (withVector .addrmask v s)) := by
  have second := fill_exact .datamask (withVector .addrmask v s) hw
  rw [exec, execXsetsdrmasks, fill_exact _ _ hv, andThen_go]
  exact congrArg Flow.result second

/-- Settles O36: each record stores its vectors, and a store changes the bytes below its vector's length. -/
theorem vectorSetupRecordsFill : Obligations.VectorSetupRecordsFill := by
  intro s v w hv hw
  refine ⟨⟨_, congrArg Flow.result (fill_exact .tdomask s hv), rfl, fun b j => ?_⟩,
    ⟨_, congrArg Flow.result (fill_exact .tdi s hv), rfl, fun b j => ?_⟩,
    ⟨_, setsdrmasks_exact hv hw, rfl, fun b j => ?_⟩⟩
  · rw [← hv]; exact withVector_byte _ _ _ _ _
  · rw [← hv]; exact withVector_byte _ _ _ _ _
  · have := withVector_withVector_byte (b := .addrmask) (c := .datamask) (by decide) v w s b j
    rwa [hv, hw] at this

/-! ## Vectors cut short -/

theorem fill_cut (b : BufName) {v : List Byte} {n : Nat} (s : State) (h : v.length < n) :
    fill b v n s = .raised (raise .ioExhausted (withVector b v s)) := by
  rw [fill_short b v s h, filled, List.take_of_length_le h.le]; rfl

theorem drRecord_cut (f : DrFlags) {v : List Byte} {s : State} (h : v.length < s.ctx.drBytes.val) :
    drRecord f v s = .raised (raise .ioExhausted (withVector .tdi v s)) := by
  rw [drRecord, fill_cut _ _ h, andThen_raised]

theorem drRecordExp_cut_first (f : DrFlags) {v : List Byte} (w : List Byte) {s : State}
    (h : v.length < s.ctx.drBytes.val) :
    drRecordExp f v w s = .raised (raise .ioExhausted (withVector .tdi v s)) := by
  rw [drRecordExp, fill_cut _ _ h, andThen_raised]

theorem drRecordExp_cut_second (f : DrFlags) {v w : List Byte} {s : State} (h : v.length = s.ctx.drBytes.val)
    (h' : w.length < s.ctx.drBytes.val) :
    drRecordExp f v w s = .raised (raise .ioExhausted (withVector .tdoexp w (withVector .tdi v s))) := by
  have second := fill_cut .tdoexp (withVector .tdi v s) h'
  rw [drRecordExp, fill_exact _ _ h, andThen_go]
  exact congrArg (Flow.andThen · (drScan f)) second

theorem irRecord_cut {bits : Nat} {v : List Byte} (s : State) (hb : bits ≤ 1032) (h : v.length < ceil8 bits) :
    irRecord bits v s = .raised (raise .ioExhausted (withVector .tdi v (irSized bits s))) := by
  have bytes : (irSized bits s).ctx.irBytes.val = ceil8 bits := ofNat_bytes hb
  obtain ⟨-, sized⟩ := (setIrSize_cases bits s).resolve_right fun tooLong => absurd tooLong.1 hb.not_gt
  rw [irRecord, sized, andThen_go, bytes, fill_cut _ _ h, andThen_raised]

/-- `i` is a D-sized record whose first vector, for the buffer `b`, is `v`, and which has no second vector or an
empty one. -/
def FirstVector (i : Instr) (b : BufName) (v : List Byte) : Prop :=
  i = .xtdomask v ∧ b = .tdomask ∨ i = .xsetsdrmasks v [] ∧ b = .addrmask ∨
    b = .tdi ∧ i ∈ [Instr.xsdrinc v, .xsdr v, .xsdrb v, .xsdrc v, .xsdre v, .xsdrtdo v [], .xsdrtdob v [],
      .xsdrtdoc v [], .xsdrtdoe v []]

/-- `i` is a D-sized record with the vectors `v` for the buffer `b` and `w` for the buffer `c`. -/
def BothVectors (i : Instr) (b c : BufName) (v w : List Byte) : Prop :=
  i = .xsetsdrmasks v w ∧ b = .addrmask ∧ c = .datamask ∨
    b = .tdi ∧ c = .tdoexp ∧ i ∈ [Instr.xsdrtdo v w, .xsdrtdob v w, .xsdrtdoc v w, .xsdrtdoe v w]

/-- `i` is an IR record of `bits` bits with the vector `v`. -/
def IrVector (i : Instr) (bits : Nat) (v : List Byte) : Prop :=
  (∃ len : Byte, i = .xsir len v ∧ len.toNat = bits) ∨ ∃ len : Half, i = .xsir2 len v ∧ len.toNat = bits

theorem exec_cut_first {i : Instr} {b : BufName} {v : List Byte} {s : State} (hi : FirstVector i b v)
    (h : v.length < s.ctx.drBytes.val) : exec i s = .next (raise .ioExhausted (withVector b v s)) := by
  have one := congrArg Flow.result (fill_cut b s h)
  have dr (f : DrFlags) := congrArg Flow.result (drRecord_cut f h)
  have drExp (f : DrFlags) := congrArg Flow.result (drRecordExp_cut_first f [] h)
  obtain ⟨rfl, rfl⟩ | ⟨rfl, rfl⟩ | ⟨rfl, hi⟩ := hi
  · exact one
  · rw [exec, execXsetsdrmasks, fill_cut _ _ h]; rfl
  · simp only [List.mem_cons, List.not_mem_nil, or_false] at hi
    obtain rfl | rfl | rfl | rfl | rfl | rfl | rfl | rfl | rfl := hi
    exacts [one, dr _, dr _, dr _, dr _, drExp _, drExp _, drExp _, drExp _]

theorem exec_cut_second {i : Instr} {b c : BufName} {v w : List Byte} {s : State} (hi : BothVectors i b c v w)
    (h : v.length = s.ctx.drBytes.val) (h' : w.length < s.ctx.drBytes.val) :
    exec i s = .next (raise .ioExhausted (withVector c w (withVector b v s))) := by
  have drExp (f : DrFlags) := congrArg Flow.result (drRecordExp_cut_second f h h')
  obtain ⟨rfl, rfl, rfl⟩ | ⟨rfl, rfl, hi⟩ := hi
  · have second := fill_cut .datamask (withVector .addrmask v s) h'
    rw [exec, execXsetsdrmasks, fill_exact _ _ h, andThen_go]
    exact congrArg Flow.result second
  · simp only [List.mem_cons, List.not_mem_nil, or_false] at hi
    obtain rfl | rfl | rfl | rfl := hi <;> exact drExp _

theorem exec_cut_ir {i : Instr} {bits : Nat} {v : List Byte} (s : State) (hi : IrVector i bits v)
    (hb : bits ≤ 1032) (h : v.length < ceil8 bits) :
    exec i s = .next (raise .ioExhausted (withVector .tdi v (irSized bits s))) := by
  have ir := congrArg Flow.result (irRecord_cut s hb h)
  obtain ⟨len, rfl, rfl⟩ | ⟨len, rfl, rfl⟩ := hi <;> exact ir

/-- Settles O37: the record's first fill stores the bytes and raises, so nothing after it runs. -/
theorem cutVectorKeepsItsBytes : Obligations.CutVectorKeepsItsBytes := fun s _ b v h hi =>
  ⟨_, exec_cut_first hi h, rfl, fun c j => withVector_byte b c v s j⟩

/-- The two buffers of such a record differ. -/
theorem BothVectors.ne {i : Instr} {b c : BufName} {v w : List Byte} (h : BothVectors i b c v w) : b ≠ c := by
  obtain ⟨-, rfl, rfl⟩ | ⟨rfl, rfl, -⟩ := h <;> decide

/-- Settles O38: what was written before the second fill, or before an IR vector's, stands when that fill raises. -/
theorem cutRecordsKeepWhatWasWritten : Obligations.CutRecordsKeepWhatWasWritten := by
  refine ⟨fun s i b c v w hv hw (hi : BothVectors i b c v w) => ?_, fun s i bits v hi hb hv => ?_⟩
  · exact ⟨_, exec_cut_second hi hv hw, rfl, withVector_withVector_byte hi.ne v w s⟩
  · exact ⟨_, exec_cut_ir s hi hb hv, ofNat_irBits hb, ofNat_bytes hb, rfl,
      fun d j => withVector_byte .tdi d v (irSized bits s) j⟩

end Sys2Proof.Machine

/-! PROOF. A record that the stream cuts short anywhere ends the session with IoExhausted (R84, R191, R310). -/

namespace Sys2Proof

theorem readVector_length_le {σ : Type} (next : Reader σ) (n : Nat) (s : σ) :
    (readVector next n s).1.length ≤ n := by
  induction n generalizing s with
  | zero => exact le_rfl
  | succ n ih =>
    rw [readVector]
    split
    · exact Nat.succ_le_succ (ih _)
    · exact Nat.zero_le _

end Sys2Proof

namespace Sys2Proof.Machine

/-! ## What is read of a record that is cut short -/

/-- One of the record's vectors is shorter than it asks for when it is read with `ctx.dr_bytes = d`. -/
inductive CutShort (d : Nat) (i : Instr) : Prop where
  | first (b : BufName) (v : List Byte) : FirstVector i b v → v.length < d → CutShort d i
  | second (b c : BufName) (v w : List Byte) :
    BothVectors i b c v w → v.length = d → w.length < d → CutShort d i
  | ir (bits : Nat) (v : List Byte) : IrVector i bits v → v.length < irVectorBytes bits → CutShort d i

/-- If the reading is cut inside a vector, the record read so far is cut short; and it is not left off in a
comment. -/
def CutsInVector {σ : Type} (d : Nat) : Parsed σ → Prop
  | .cut (some i) _ => CutShort d i
  | .unfinished _ _ => False
  | _ => True

theorem parseByte_cutsInVector {σ : Type} {next : Reader σ} {d : Nat} {s : σ} {k : Byte → σ → Parsed σ}
    (h : ∀ b t, CutsInVector d (k b t)) : CutsInVector d (parseByte next s k) := by
  unfold parseByte
  split
  · exact h _ _
  · trivial

theorem parseLong_cutsInVector {σ : Type} {next : Reader σ} {d : Nat} {s : σ} {k : Word → σ → Parsed σ}
    (h : ∀ w t, CutsInVector d (k w t)) : CutsInVector d (parseLong next s k) :=
  parseByte_cutsInVector fun _ _ => parseByte_cutsInVector fun _ _ => parseByte_cutsInVector fun _ _ =>
    parseByte_cutsInVector fun _ _ => h _ _

theorem parseVector_cutsInVector {σ : Type} {next : Reader σ} {d n : Nat} {mk : List Byte → Instr} {s : σ}
    (h : ∀ v, v.length < n → CutShort d (mk v)) : CutsInVector d (parseVector next n mk s) := by
  simp only [parseVector]
  split
  · trivial
  · next short => exact h _ (lt_of_le_of_ne (readVector_length_le next n s) short)

theorem parseVectors_cutsInVector {σ : Type} {next : Reader σ} {d n : Nat}
    {mk : List Byte → List Byte → Instr} {s : σ} (h : ∀ v, v.length < n → CutShort d (mk v []))
    (h' : ∀ v w, v.length = n → w.length < n → CutShort d (mk v w)) :
    CutsInVector d (parseVectors next n mk s) := by
  simp only [parseVectors]
  split
  · next whole => exact parseVector_cutsInVector fun w => h' _ w whole
  · next short => exact h _ (lt_of_le_of_ne (readVector_length_le next n s) short)

/-- A list shorter than the reads that are left ends a comment's text or cuts it. -/
theorem parseText_cutsInVector {d fuel : Nat} {text bytes : List Byte} (h : bytes.length < fuel) :
    CutsInVector d (parseText listReader fuel text bytes) := by
  induction fuel generalizing text bytes with
  | zero => omega
  | succ fuel ih =>
    cases bytes with
    | nil => trivial
    | cons b bytes =>
      simp only [parseText, listReader_cons]
      split
      · trivial
      · exact ih (by simpa using h)

theorem parseBody_cutsInVector {d fuel : Nat} {op : Byte} {bytes : List Byte} (h : bytes.length < fuel) :
    CutsInVector d (parseBody listReader d fuel op bytes) := by
  unfold parseBody
  split
  case h_2 => exact parseVector_cutsInVector fun v => .first _ v (.inl ⟨rfl, rfl⟩)
  case h_4 | h_10 | h_11 | h_12 | h_13 =>
    exact parseVector_cutsInVector fun v => .first _ v (.inr (.inr ⟨rfl, by simp⟩))
  case h_9 =>
    exact parseVectors_cutsInVector (fun v => .first _ v (.inr (.inl ⟨rfl, rfl⟩)))
      fun v w => .second _ _ v w (.inl ⟨rfl, rfl, rfl⟩)
  case h_8 | h_14 | h_15 | h_16 =>
    exact parseVectors_cutsInVector (fun v => .first _ v (.inr (.inr ⟨rfl, by simp⟩)))
      fun v w => .second _ _ v w (.inr ⟨rfl, rfl, by simp⟩)
  case h_3 =>
    exact parseByte_cutsInVector fun len _ => parseVector_cutsInVector fun v =>
      .ir len.toNat v (.inl ⟨len, rfl, rfl⟩)
  case h_20 =>
    exact parseByte_cutsInVector fun hi _ => parseByte_cutsInVector fun lo _ => parseVector_cutsInVector fun v =>
      .ir (be16 hi lo).toNat v (.inr ⟨be16 hi lo, rfl, rfl⟩)
  case h_21 => exact parseText_cutsInVector h
  case h_22 =>
    exact parseByte_cutsInVector fun _ _ => parseByte_cutsInVector fun _ _ =>
      parseLong_cutsInVector fun _ _ => trivial
  case h_23 =>
    exact parseByte_cutsInVector fun _ _ => parseByte_cutsInVector fun _ _ =>
      parseLong_cutsInVector fun _ _ => parseLong_cutsInVector fun _ _ => trivial
  case h_5 | h_7 => exact parseLong_cutsInVector fun _ _ => trivial
  case h_6 | h_17 | h_18 | h_19 | h_24 => exact parseByte_cutsInVector fun _ _ => trivial
  case h_1 | h_25 => trivial

/-- Truncated bytes are an opcode and a reading that is cut: in a vector of a record, or before one. -/
theorem decode_truncated {d : Nat} {bytes : List Byte} (hne : bytes ≠ [])
    (h : decode d bytes = .error .truncated) :
    ∃ op rest i after, bytes = op :: rest ∧ parseBody listReader d (rest.length + 1) op rest = .cut i after ∧
      ∀ j, i = some j → CutShort d j := by
  obtain ⟨op, rest, rfl⟩ := List.exists_cons_of_ne_nil hne
  have cuts := parseBody_cutsInVector (d := d) (op := op) (Nat.lt_succ_self rest.length)
  simp only [decode] at h
  rcases hp : parseBody listReader d (rest.length + 1) op rest with ⟨j, after⟩ | ⟨i, after⟩ | _ | _ <;>
    rw [hp] at h cuts
  · simp at h
  · refine ⟨op, rest, i, after, rfl, hp, ?_⟩
    rintro j rfl
    exact cuts
  · exact cuts.elim
  · simp at h

/-! ## What such a record does -/

/-- `u` is `s` with IoExhausted raised, and at most the scan buffers and the IR size pair written. -/
def RaisedIo (s u : State) : Prop :=
  ∃ bufs bits bytes, u = { s with
    bufs := bufs, ctx := { s.ctx with irBits := bits, irBytes := bytes, error := .ioExhausted } }

theorem lt_irVectorBytes {n bits : Nat} (h : n < irVectorBytes bits) : bits ≤ 1032 ∧ n < ceil8 bits := by
  unfold irVectorBytes at h
  split at h
  · next fits => exact ⟨(ceil8_le_iff bits).mp fits, h⟩
  · omega

theorem exec_cutShort {i : Instr} {s : State} (h : CutShort s.ctx.drBytes.val i) :
    ∃ u, exec i s = .next u ∧ RaisedIo s u := by
  obtain ⟨b, v, hi, hv⟩ | ⟨b, c, v, w, hi, hv, hw⟩ | ⟨bits, v, hi, hv⟩ := h
  · exact ⟨_, exec_cut_first hi hv, _, _, _, rfl⟩
  · exact ⟨_, exec_cut_second hi hv hw, _, _, _, rfl⟩
  · obtain ⟨fits, short⟩ := lt_irVectorBytes hv
    exact ⟨_, exec_cut_ir s hi fits short, _, _, _, rfl⟩

theorem Stops.consumed_checksum_onlyRead {s t : State} {bytes : List Byte} (h : Stops t bytes s) :
    t.ctx.consumed = s.ctx.consumed + BitVec.ofNat 32 bytes.length ∧
    t.ctx.checksum = checksumAfter s.ctx.checksum bytes ∧ OnlyRead s t := by
  obtain ⟨-, -, -, consumed, checksum, only⟩ := readVector_spec (bytes.length + 1) s
  rw [h] at consumed checksum only
  exact ⟨consumed, checksum, only⟩

/-- A call of the interpreter that finds a record cut short counts it, reads what there is of it, and raises. -/
theorem interpret_of_truncated {s t : State} {bytes : List Byte} (hc : s.comment = none) (hne : bytes ≠ [])
    (he : s.env.host.endless = none ∨ bytes.head? ≠ some 0x16#8) (h : Stops t bytes s)
    (hd : decode s.ctx.drBytes.val bytes = .error .truncated) :
    ∃ u, interpret s = .next u ∧ RaisedIo (countInstr t) u := by
  obtain ⟨op, rest, i, after, rfl, hp, cut⟩ := decode_truncated hne hd
  have fetched := fetchRecord_of_truncated hc (he.imp_right fun k ho => k (by simp [ho])) h hp
  rw [interpret, fetched]
  cases i with
  | none => exact ⟨_, rfl, _, _, _, rfl⟩
  | some j =>
    obtain ⟨-, -, only⟩ := h.consumed_checksum_onlyRead
    have mode : (countInstr t).ctx.drBytes = s.ctx.drBytes := by rw [countInstr_ctx_drBytes, only.ctx]
    exact exec_cutShort (mode ▸ cut j rfl)

/-- A call of the interpreter that leaves an error alone set ends the session as Failed (R356). -/
theorem step_failed {s u : State} (hp : s.phase = .running) (hu : interpret s = .next u)
    (he : u.ctx.error ≠ .none) (hc : u.ctx.complete = false) :
    step s = .next { u with
      phase := .failed, pins := { u.pins with mode := .highZ }, trace := u.trace ++ trailer u } := by
  obtain ⟨-, noError, -⟩ | ⟨-, ended⟩ := loopTest_cases u
  · exact absurd noError he
  · simp only [step, hp, hu, afterRecord_next, ended, endSession_eq, hc]; rfl

theorem clockCount_append (es fs : List Event) : clockCount (es ++ fs) = clockCount es + clockCount fs :=
  List.countP_append

theorem OnlyRead.clockCount_eq {s t : State} (h : OnlyRead s t) : clockCount t.trace = clockCount s.trace := by
  obtain ⟨n, trace⟩ := h.trace
  simp [trace, clockCount, List.countP_replicate, isClk]

/-- Settles O20: the interpreter reads the bytes there are and raises, and the loop test ends the session. -/
theorem cutRecordRaisesIoExhausted : Obligations.CutRecordRaisesIoExhausted := by
  intro s t bytes inv hp hc hne he (h : Stops t bytes s) hd
  obtain ⟨consumed, checksum, only⟩ := h.consumed_checksum_onlyRead
  obtain ⟨u, hu, bufs, irBits, irBytes, rfl⟩ := interpret_of_truncated hc hne he h hd
  have complete : t.ctx.complete = false := by
    obtain ⟨-, incomplete, -⟩ := (phaseAgrees_running hp).mp inv.phase
    rw [only.ctx]; exact incomplete
  have latch : t.pins.tdi = s.pins.tdi := by rw [only.pins]
  have ended := step_failed hp hu (by simp) complete
  refine ⟨_, ended, rfl, rfl, ?_, consumed, checksum, only.tap, latch, ?_⟩
  · show t.ctx.instrCount + 1#32 = s.ctx.instrCount + 1#32
    rw [only.ctx]
  · show clockCount (t.trace ++ trailer _) = clockCount s.trace
    rw [clockCount_append, trailer_clockCount, only.clockCount_eq, Nat.add_zero]

end Sys2Proof.Machine

/-! PROOF. The decoder and the encoder are inverse on whole records, and the opcodes that are no record's are refused
(30_encoding.md, R101 to R137). -/

namespace Sys2Proof

/-! ## Round trip -/

/-- The parameters of a whole record are read back as they were written. -/
theorem decode_encode_append {d : Nat} {i : Instr} (h : WellFormed d i) (rest : List Byte) :
    decode d (encode i ++ rest) = .ok (i, rest) := by
  cases i <;> simp only [WellFormed, Instr.wellFormed, Bool.and_eq_true, beq_iff_eq] at h <;>
    refine decode_of_whole ?_
  case xtdomask v | xsdr v | xsdrinc v | xsdrb v | xsdrc v | xsdre v => exact parseVector_append d _ v rest h
  case xsdrtdo v w | xsetsdrmasks v w | xsdrtdob v w | xsdrtdoc v w | xsdrtdoe v w =>
    exact parseVectors_append d _ v w rest h.1 h.2
  case xsir len v => exact parseVector_append _ (.xsir len) v rest h
  case xsir2 len v =>
    show parseVector listReader (irVectorBytes (be16 _ _).toNat) (.xsir2 (be16 _ _)) (v ++ rest) = _
    rw [be16_bytes16]
    exact parseVector_append _ (.xsir2 len) v rest h
  case xruntest us => exact parseLong_bytes32 us rest fun us => .whole (.xruntest us)
  case xsdrsize bits => exact parseLong_bytes32 bits rest fun bits => .whole (.xsdrsize bits)
  case xwait start stop us => exact parseLong_bytes32 us rest fun us => .whole (.xwait start stop us)
  case xwaitstate start stop clocks us =>
    show parseLong listReader (bytes32 clocks ++ bytes32 us ++ rest)
      (fun clocks s => parseLong listReader s fun us => .whole (.xwaitstate start stop clocks us)) = _
    rw [List.append_assoc, parseLong_bytes32, parseLong_bytes32]
  case xcomplete | xrepeat | xstate | xendir | xenddr | xtrst => rfl
  case xcomment text =>
    show parseText listReader _ [] (text ++ [0#8] ++ rest) = _
    rw [List.append_assoc]
    exact parseText_append _ [] text rest (by simpa using h) (by simp)

/-- Settles O1: record by record, each parameter reads back what the encoder wrote. -/
theorem encodeThenDecode : Obligations.EncodeThenDecode := fun _ _ rest h => decode_encode_append h rest

/-- Settles O2: what a parameter is read from is what the encoder writes for it. -/
theorem decodedBytesAreTheEncoding : Obligations.DecodedBytesAreTheEncoding := fun _ _ _ _ h => decode_eq_ok h

/-- Settles O4: the bytes are the encodings of those records, which are whole. -/
theorem sampleRecordsDecode : Obligations.SampleRecordsDecode :=
  ⟨decode_encode_append (i := .xsdrsize 1040#32) rfl [],
    decode_encode_append (i := .xsdrtdo [0xA5#8] [0x5A#8]) rfl [0x00#8],
    decode_encode_append (i := .xsir2 5#16 [0x1F#8]) rfl [],
    decode_encode_append (i := .xcomment [0x48#8, 0x49#8]) rfl [],
    decode_encode_append (i := .xwaitstate 6#8 1#8 2#32 256#32) rfl []⟩

/-! ## Unassigned opcodes -/

/-- The opcode bytes that R102 gives a record. -/
def assignedOpcodes : List Byte :=
  [0x00#8, 0x01#8, 0x02#8, 0x03#8, 0x04#8, 0x07#8, 0x08#8, 0x09#8, 0x0A#8, 0x0B#8, 0x0C#8, 0x0D#8,
    0x0E#8, 0x0F#8, 0x10#8, 0x11#8, 0x12#8, 0x13#8, 0x14#8, 0x15#8, 0x16#8, 0x17#8, 0x18#8, 0x1C#8]

/-- The reading does not come to an unassigned opcode. -/
def Recognised {σ : Type} (p : Parsed σ) : Prop := ∀ op s, p ≠ .unassigned op s

section
variable {σ : Type} {next : Reader σ} {s : σ}

theorem whole_recognised (i : Instr) : Recognised (.whole i s) := by simp [Recognised]

theorem parseByte_recognised {k : Byte → σ → Parsed σ} (h : ∀ b t, Recognised (k b t)) :
    Recognised (parseByte next s k) := by
  unfold parseByte
  split
  · exact h _ _
  · simp [Recognised]

theorem parseLong_recognised {k : Word → σ → Parsed σ} (h : ∀ w t, Recognised (k w t)) :
    Recognised (parseLong next s k) :=
  parseByte_recognised fun _ _ => parseByte_recognised fun _ _ => parseByte_recognised fun _ _ =>
    parseByte_recognised fun _ _ => h _ _

theorem parseVector_recognised {n : Nat} {mk : List Byte → Instr} :
    Recognised (parseVector next n mk s) := by
  simp only [parseVector]
  split <;> simp [Recognised]

theorem parseVectors_recognised {n : Nat} {mk : List Byte → List Byte → Instr} :
    Recognised (parseVectors next n mk s) := by
  simp only [parseVectors]
  split
  · exact parseVector_recognised
  · simp [Recognised]

theorem parseText_recognised {fuel : Nat} {text : List Byte} :
    Recognised (parseText next fuel text s) := by
  induction fuel generalizing text s with
  | zero => simp [parseText, Recognised]
  | succ fuel ih =>
    rw [parseText]
    split
    · split
      · exact whole_recognised _
      · exact ih
    · simp [Recognised]

/-- An assigned opcode is read as its record's, whatever follows; any other is refused with nothing read. -/
theorem parseBody_opcode_cases (next : Reader σ) (d fuel : Nat) (op : Byte) (s : σ) :
    (op ∈ assignedOpcodes ∧ Recognised (parseBody next d fuel op s)) ∨
    (op ∉ assignedOpcodes ∧ parseBody next d fuel op s = .unassigned op s) := by
  have assigned {n : Nat} (ho : op.toNat = n) (hn : BitVec.ofNat 8 n ∈ assignedOpcodes) :
      op ∈ assignedOpcodes := by rwa [eq_of_opcode ho]
  unfold parseBody
  split
  case h_1 ho => exact .inl ⟨assigned ho (by decide), whole_recognised _⟩
  case h_2 ho | h_4 ho | h_10 ho | h_11 ho | h_12 ho | h_13 ho =>
    exact .inl ⟨assigned ho (by decide), parseVector_recognised⟩
  case h_8 ho | h_9 ho | h_14 ho | h_15 ho | h_16 ho =>
    exact .inl ⟨assigned ho (by decide), parseVectors_recognised⟩
  case h_3 ho =>
    exact .inl ⟨assigned ho (by decide), parseByte_recognised fun _ _ => parseVector_recognised⟩
  case h_20 ho =>
    exact .inl ⟨assigned ho (by decide),
      parseByte_recognised fun _ _ => parseByte_recognised fun _ _ => parseVector_recognised⟩
  case h_5 ho | h_7 ho =>
    exact .inl ⟨assigned ho (by decide), parseLong_recognised fun _ _ => whole_recognised _⟩
  case h_6 ho | h_17 ho | h_18 ho | h_19 ho | h_24 ho =>
    exact .inl ⟨assigned ho (by decide), parseByte_recognised fun _ _ => whole_recognised _⟩
  case h_21 ho => exact .inl ⟨assigned ho (by decide), parseText_recognised⟩
  case h_22 ho =>
    exact .inl ⟨assigned ho (by decide), parseByte_recognised fun _ _ => parseByte_recognised fun _ _ =>
      parseLong_recognised fun _ _ => whole_recognised _⟩
  case h_23 ho =>
    exact .inl ⟨assigned ho (by decide), parseByte_recognised fun _ _ => parseByte_recognised fun _ _ =>
      parseLong_recognised fun _ _ => parseLong_recognised fun _ _ => whole_recognised _⟩
  case h_25 =>
    refine .inr ⟨?_, rfl⟩
    simp only [assignedOpcodes, List.mem_cons, List.not_mem_nil, ← BitVec.toNat_inj, or_false, not_or]
    simp_all

end

/-- The decoder answers that an opcode is unassigned where the reading of its parameters comes to that. -/
theorem parseBody_of_decode_unassigned {d : Nat} {op b : Byte} {rest : List Byte}
    (h : decode d (op :: rest) = .error (.unassigned b)) :
    ∃ after, parseBody listReader d (rest.length + 1) op rest = .unassigned b after := by
  simp only [decode] at h
  split at h <;> simp_all

/-- Settles O3: the decoder dispatches on the opcode, and only its last branch refuses. -/
theorem unassignedOpcodesAreTheRest : Obligations.UnassignedOpcodesAreTheRest := by
  intro d op rest
  obtain ⟨hm, recognised⟩ | ⟨hm, refused⟩ := parseBody_opcode_cases listReader d (rest.length + 1) op rest
  · refine iff_of_false (fun h => ?_) (not_not_intro hm)
    obtain ⟨after, refused⟩ := parseBody_of_decode_unassigned h
    exact recognised op after refused
  · exact iff_of_true (by simp only [decode, refused]) hm

/-! ## Oversized IR lengths -/

theorem irVectorBytes_of_oversized {bits : Nat} (h : 1032 < bits) : irVectorBytes bits = 0 :=
  if_neg (by rw [Machine.ceil8_le_iff]; omega)

end Sys2Proof

namespace Sys2Proof.Machine

theorem irRecord_of_oversized {bits : Nat} (h : 1032 < bits) (tdi : List Byte) (s : State) :
    irRecord bits tdi s = .raised (raise .chainSizeExceeded s) := by
  obtain ⟨-, e⟩ | ⟨fits, -⟩ | ⟨fits, -⟩ := irRecord_cases bits tdi s
  · exact e
  · omega
  · omega

/-- Settles O5: the record is whole without a data byte, and its size check fails. -/
theorem oversizedIrLengthStopsBeforeData : Obligations.OversizedIrLengthStopsBeforeData := by
  intro d hi lo rest s h
  constructor
  · have whole : WellFormed d (.xsir2 (be16 hi lo) []) := by
      simp [WellFormed, Instr.wellFormed, irVectorBytes_of_oversized h]
    simpa [encode, bytes16_be16] using decode_encode_append whole rest
  · simp only [exec, execXsir2, irRecord_of_oversized h]
    rfl

/-! ## XSTATE -/

/-- Settles O50: the byte names a state, and the walk to it only clocks. -/
theorem xstateGoesThere : Obligations.XstateGoesThere := by
  intro s b hb
  obtain ⟨named, code, e⟩ | ⟨high, -⟩ := stateArg_cases b
  · refine ⟨gotoTap named { s with ctx := { s.ctx with xstate := named } }, ?_, ?_⟩
    · simp only [exec, execXstate, e]
    · rw [gotoTap_tap]
      exact ⟨code, gotoTap_onlyClocked _ _, rfl⟩
  · omega

end Sys2Proof.Machine

/-! PROOF. The TAP controller (40_tap_controller.md, R140 to R151): its table, one clock, the walks of `Goto`, which
are the shortest ones, and the timed wait. -/

namespace Sys2Proof.Machine

/-! ## The table and one clock -/

/-- Settles O23: the sixteen entries for either level. -/
theorem packedTransitionTable : Obligations.PackedTransitionTable := by
  intro s tms
  cases s <;> cases tms <;> rfl

/-- Settles O24: by the table, but that five TMS-1 clocks arrive, which is `Goto(TEST_LOGIC_RESET)`. -/
theorem selfLoopsAndFiveOnes : Obligations.SelfLoopsAndFiveOnes := by
  intro s
  refine ⟨?_, ?_, tmsWalk_gotoTms .testLogicReset s, ?_⟩
  · cases s <;> decide
  · cases s <;> decide
  · cases s <;> decide

/-- A clock samples the outside's answer where one is ready (R146). -/
theorem clock_fed {s : State} {x : Bool} {q : List Bool} (h : s.env.tdo = x :: q) (tms tdi : Bool) :
    (clock tms tdi s).1 = x ∧ (clock tms tdi s).2.env = { s.env with tdo := q } := by
  have drawn : s.env.drawTdo = (x, { s.env with tdo := q }) := by simp only [Env.drawTdo, h]
  exact ⟨congrArg Prod.fst drawn, congrArg Prod.snd drawn⟩

/-- Settles O25: all but the draw of TDO is one update of the state. -/
theorem clockPulse : Obligations.ClockPulse := fun s tms tdi =>
  ⟨rfl, rfl, rfl, fun _ _ h => clock_fed h tms tdi, clock_onlyClocked tms tdi s, rfl⟩

/-! ## Goto -/

/-- Pulses with one TMS level are as many clocks with it and the latch on TDI. -/
theorem stepAll_replicate_trace (tms : Bool) (n : Nat) (s : State) :
    ∃ tdos : List Bool, tdos.length = n ∧
      (stepAll (List.replicate n tms) s).trace = s.trace ++ tdos.map (Event.clk tms s.pins.tdi) := by
  obtain ⟨tdos, len, trace⟩ := stepAll_trace (List.replicate n tms) s
  obtain rfl : tdos.length = n := by simpa using len
  refine ⟨tdos, rfl, ?_⟩
  rw [trace, ← List.map_const', List.zipWith_map_left, List.zipWith_self]

/-- Settles O26: the walk to TEST_LOGIC_RESET is five pulses with TMS 1 whatever the state. -/
theorem gotoResetIsFiveOnes : Obligations.GotoResetIsFiveOnes := by
  intro s
  refine ⟨gotoTap_onlyClocked _ s, gotoTap_tap _ s, ?_⟩
  rw [gotoTap_eq_stepAll]
  exact stepAll_replicate_trace true 5 s

/-- The events of `Goto` clock by clock. -/
theorem gotoTap_clocks (t : TapState) (s : State) :
    ∃ tdos : List Bool, tdos.length = (gotoTms t s.tap).length ∧ (gotoTap t s).trace =
      s.trace ++ List.zipWith (fun m d => Event.clk m s.pins.tdi d) (gotoTms t s.tap) tdos := by
  rw [gotoTap_eq_stepAll]
  exact stepAll_trace _ s

/-- One clock saves a walk of `Goto` at most one clock, and it saves one only as that walk's own first clock (R144,
R145). -/
theorem gotoTms_after_clock {t : TapState} (ht : t ≠ .testLogicReset) (s : TapState) (m : Bool) :
    (gotoTms t s).length ≤ (gotoTms t (tapNext s m)).length + 1 ∧
    ((gotoTms t (tapNext s m)).length + 1 = (gotoTms t s).length →
      m :: gotoTms t (tapNext s m) = gotoTms t s) := by
  cases t
  case testLogicReset => exact absurd rfl ht
  all_goals cases s <;> cases m <;> decide

/-- No walk to `t` is shorter than that of `Goto`, and no other one is as short (R145, R150). -/
theorem gotoTms_shortest {t : TapState} (ht : t ≠ .testLogicReset) {s : TapState} {other : List Bool}
    (h : tmsWalk s other = t) :
    (gotoTms t s).length ≤ other.length ∧ (other.length = (gotoTms t s).length → other = gotoTms t s) := by
  induction other generalizing s with
  | nil =>
    obtain rfl : s = t := h
    have arrived : gotoTms s s = [] := by rw [gotoTms, if_neg ht, walkTms, if_pos rfl]
    simp [arrived]
  | cons m other ih =>
    obtain ⟨shortest, unique⟩ := ih (s := tapNext s m) h
    obtain ⟨saved, first⟩ := gotoTms_after_clock ht s m
    rw [List.length_cons]
    refine ⟨by omega, fun same => ?_⟩
    rw [unique (by omega), first (by omega)]

/-- Settles O27: the walk is that of the path table, and induction over another walk shows it no shorter. -/
theorem gotoIsTheShortestWalk : Obligations.GotoIsTheShortestWalk := by
  intro s target ht
  obtain ⟨tdos, len, trace⟩ := gotoTap_clocks target s
  exact ⟨gotoTap_onlyClocked _ s, gotoTap_tap _ s, _, tdos, len, gotoTms_length_le _ _, trace,
    tmsWalk_gotoTms _ _, fun _ h => gotoTms_shortest ht h⟩

/-! ## IdleWait -/

/-- The events of a timed wait: the drawn number of TMS-0 pulses and then the delay, or none for 0 (R151). -/
theorem idleWait_trace (us : Word) (s : State) :
    ∃ pulses : List Bool,
      (idleWait us s).trace = s.trace ++ pulses.map (Event.clk false s.pins.tdi) ++
        (if us = 0#32 then [] else [.delay us]) ∧
      (idleWait us s).tap = tmsWalk s.tap (List.replicate pulses.length false) ∧
      (us = 0#32 → pulses = []) ∧
      ∀ k q, us ≠ 0#32 → s.env.pulses = k :: q → pulses.length = k := by
  obtain ⟨zero, e⟩ | ⟨wait, e⟩ := idleWait_cases us s <;> rw [e]
  · exact ⟨[], by simp [zero], rfl, fun _ => rfl, fun _ _ wait => absurd zero wait⟩
  · obtain ⟨tdos, len, trace⟩ :=
      stepAll_replicate_trace false s.env.drawPulses.1 { s with env := s.env.drawPulses.2 }
    refine ⟨tdos, ?_, ?_, fun zero => absurd zero wait, fun k q _ ready => ?_⟩
    · rw [emit_trace, trace, if_neg wait]
    · rw [emit_tap, stepAll_tap, len]
    · rw [len, Env.drawPulses, ready]

/-- Settles O28: the pulses are those of the draw, which answers what the outside has ready. -/
theorem idleWaitPulsesThenDelays : Obligations.IdleWaitPulsesThenDelays := by
  intro s us
  refine ⟨rfl, fun wait => ?_⟩
  obtain ⟨pulses, trace, tap, -, drawn⟩ := idleWait_trace us s
  rw [if_neg wait] at trace
  refine ⟨idleWait_onlyClocked us s, fun k q ready => ?_, pulses, trace, tap⟩
  obtain rfl := drawn k q wait ready
  exact ⟨pulses, rfl, trace, tap⟩

end Sys2Proof.Machine

/-! PROOF. The IR records (43_xsvf_scan.md, R240 to R243): the walk to SHIFT_IR, the shift and the settle, clock by
clock, and what they leave alone. -/

namespace Sys2Proof.Machine

/-! ## The settle of an IR scan -/

/-- The state an IR scan settles in (R242). -/
def irFinal (s : State) : TapState := if s.ctx.runtest = 0#32 then .runTestIdle else s.ctx.endIr

/-- Both branches of the settle are a walk and a timed wait, since a wait of 0 does nothing (R151, R242). -/
theorem irSettle_eq (s : State) : irSettle s = idleWait s.ctx.runtest (gotoTap (irFinal s) s) := by
  unfold irSettle irFinal
  split
  · next zero => rw [zero]; rfl
  · rfl

theorem irSettle_onlyClocked (s : State) : OnlyClocked s (irSettle s) := by
  rw [irSettle_eq]
  exact (gotoTap_onlyClocked _ s).trans (idleWait_onlyClocked _ _)

@[simp] theorem irSettle_latch (s : State) : (irSettle s).pins.tdi = s.pins.tdi := by
  rw [irSettle_eq, idleWait_latch, gotoTap_latch]

theorem irFinal_legal {s : State} (h : EndStatesLegal s) : irFinal s = .runTestIdle ∨ irFinal s = .pauseIr := by
  unfold irFinal
  split
  · exact .inl rfl
  · exact h.1

/-- Both resting states of an IR scan stay put on TMS 0 (R143). -/
theorem irSettle_tap {s : State} (h : EndStatesLegal s) : (irSettle s).tap = irFinal s := by
  have stays : tapNext (irFinal s) false = irFinal s := by
    obtain e | e := irFinal_legal h <;> rw [e] <;> rfl
  rw [irSettle_eq, idleWait_tap, gotoTap_tap]
  rwa [gotoTap_tap]

theorem irSettle_trace (s : State) :
    ∃ down pulses : List Bool, down.length = (gotoTms (irFinal s) s.tap).length ∧
      (irSettle s).trace = s.trace ++
        List.zipWith (fun m d => Event.clk m s.pins.tdi d) (gotoTms (irFinal s) s.tap) down ++
        pulses.map (Event.clk false s.pins.tdi) ++
        (if s.ctx.runtest = 0#32 then [] else [.delay s.ctx.runtest]) ∧
      (s.ctx.runtest = 0#32 → pulses = []) ∧
      ∀ k q, s.ctx.runtest ≠ 0#32 → s.env.pulses = k :: q → pulses.length = k := by
  obtain ⟨down, len, walked⟩ := gotoTap_clocks (irFinal s) s
  obtain ⟨pulses, waited, -, noPulses, drawn⟩ := idleWait_trace s.ctx.runtest (gotoTap (irFinal s) s)
  rw [gotoTap_pulses] at drawn
  rw [irSettle_eq, waited, walked, gotoTap_latch]
  exact ⟨down, pulses, len, rfl, noPulses, drawn⟩

/-! ## The shift of an IR scan -/

/-- The last clock of a shift leaves the last bit in the latch (R171). -/
theorem shiftEvents_latch (s : State) (inp : BufName) (n : Nat) (e : Bool) (l : Bool) (i : Nat) (tdos : List Bool)
    (hn : i + tdos.length = n) :
    (shiftEvents s inp n e i tdos).foldl latchAfter l = if n = i then l else chainBit s inp n (n - 1) := by
  induction tdos generalizing i l with
  | nil => rw [if_pos (show n = i from hn.symm)]; rfl
  | cons d tdos ih =>
    rw [List.length_cons] at hn
    rw [shiftEvents, List.foldl_cons, ih _ _ (by omega), if_neg (show n ≠ i by omega)]
    split
    · next last => rw [last]; rfl
    · rfl

theorem shift_latch (inp out : BufName) (hne : inp ≠ out) (n : Nat) (e : Bool) (s : State) :
    (shift inp out n e s).pins.tdi = if n = 0 then s.pins.tdi else chainBit s inp n (n - 1) := by
  obtain ⟨-, tdos, len, clocks, -⟩ := shift_spec inp out hne n e s
  rw [clocks.latch, shiftEvents_latch _ _ _ _ _ _ _ (by omega)]

/-- A shift with an exit leaves SHIFT_IR on its last bit, and stays there if it has none (R174, R176). -/
theorem shift_tap_of_shiftIr (inp out : BufName) (hne : inp ≠ out) (n : Nat) {s : State} (h : s.tap = .shiftIr) :
    (shift inp out n true s).tap = if n = 0 then .shiftIr else .exit1Ir := by
  split
  · next zero => subst zero; rw [shift_zero]; exact h
  · next bits => rw [shift_tap inp out hne n bits true s (by rw [h]; rfl), h]; rfl

/-- The TMS levels of the settle in `final` after a shift of `n` bits, from EXIT1_IR, or from SHIFT_IR if there were
none (R242). -/
def irSettleTms (n : Nat) (final : TapState) : List Bool :=
  (if n = 0 then [true] else []) ++ if final = .runTestIdle then [true, false] else [false]

theorem gotoTms_irSettle (n : Nat) {final : TapState} (h : final = .runTestIdle ∨ final = .pauseIr) :
    gotoTms final (if n = 0 then .shiftIr else .exit1Ir) = irSettleTms n final := by
  unfold irSettleTms
  obtain rfl | rfl := h <;> split <;> rfl

/-! ## IR scans -/

/-- The two phases of an IR scan before its settle: the walk to SHIFT_IR and the shift (R242). -/
def irShifted (s : State) : State := shift .tdi .tdocap s.ctx.irBits.toNat true (gotoTap .shiftIr s)

theorem irScan_eq (s : State) : irScan s = irSettle (irShifted s) := rfl

theorem irShifted_onlyShifted (s : State) : OnlyShifted .tdocap s (irShifted s) :=
  ((gotoTap_onlyClocked .shiftIr s).onlyShifted _).trans (shift_spec .tdi .tdocap (by decide) _ true _).1

theorem irShifted_tap (s : State) :
    (irShifted s).tap = if s.ctx.irBits.toNat = 0 then .shiftIr else .exit1Ir :=
  shift_tap_of_shiftIr _ _ (by decide) _ (gotoTap_tap _ s)

theorem irFinal_irShifted (s : State) : irFinal (irShifted s) = irFinal s := by
  rw [irFinal, (irShifted_onlyShifted s).ctx, irFinal]

theorem endStatesLegal_irShifted {s : State} (h : EndStatesLegal s) : EndStatesLegal (irShifted s) := by
  rw [EndStatesLegal, (irShifted_onlyShifted s).ctx]; exact h

theorem irScan_tap {s : State} (h : EndStatesLegal s) : (irScan s).tap = irFinal s := by
  rw [irScan_eq, irSettle_tap (endStatesLegal_irShifted h), irFinal_irShifted]

/-- The vector an IR scan shifts out still stands in its buffer at the end. -/
theorem irScan_vector (s : State) : (irScan s).bufs.get .tdi = (gotoTap .shiftIr s).bufs.get .tdi := by
  rw [(irScan_scanned s).only.bufs _ (by decide), (gotoTap_onlyClocked _ s).bufs]

theorem irScan_latch (s : State) : (irScan s).pins.tdi = if s.ctx.irBits.toNat = 0 then s.pins.tdi
    else chainBit (irScan s) .tdi s.ctx.irBits.toNat (s.ctx.irBits.toNat - 1) := by
  rw [chainBit_congr (irScan_vector s), irScan_eq, irSettle_latch, irShifted, shift_latch _ _ (by decide),
    gotoTap_latch]

/-- An IR scan captures into the bytes of its chain alone (R175). -/
theorem irScan_above (s : State) {j : Nat} (h : ceil8 s.ctx.irBits.toNat ≤ j) :
    bufByte (irScan s) .tdocap j = bufByte s .tdocap j := by
  rw [irScan_eq, bufByte, irSettle_bufs, ← bufByte, irShifted, shift_above _ _ _ h, bufByte,
    (gotoTap_onlyClocked _ s).bufs, ← bufByte]

/-- The clocks of an IR scan up to its settle, and the bits it captures (R171, R242). -/
theorem irShifted_trace (s : State) :
    ∃ walk tdos : List Bool,
      walk.length = (gotoTms .shiftIr s.tap).length ∧ tdos.length = s.ctx.irBits.toNat ∧
      (irShifted s).trace = s.trace ++
        List.zipWith (fun m d => Event.clk m s.pins.tdi d) (gotoTms .shiftIr s.tap) walk ++
        shiftEvents (irScan s) .tdi s.ctx.irBits.toNat true 0 tdos ∧
      ∀ j p, j < ceil8 s.ctx.irBits.toNat → p < 8 → (bufByte (irScan s) .tdocap j).getLsbD p =
        tdos.getD (8 * (ceil8 s.ctx.irBits.toNat - 1 - j) + p) false := by
  obtain ⟨walk, walkLen, walked⟩ := gotoTap_clocks .shiftIr s
  obtain ⟨-, tdos, bits, shifted, captured, -⟩ :=
    shift_spec .tdi .tdocap (by decide) s.ctx.irBits.toNat true (gotoTap .shiftIr s)
  refine ⟨walk, tdos, walkLen, bits, ?_, fun j p hj hp => ?_⟩
  · rw [irShifted, shifted.trace, walked, shiftEvents_congr (irScan_vector s)]
  · rw [irScan_eq, bufByte, irSettle_bufs, ← bufByte]
    exact captured j p hj hp

/-- The clocks and the delay of an IR scan's settle (R151, R242). -/
theorem irScan_trace {s : State} (h : EndStatesLegal s) :
    ∃ down pulses : List Bool, down.length = (irSettleTms s.ctx.irBits.toNat (irFinal s)).length ∧
      (irScan s).trace = (irShifted s).trace ++
        List.zipWith (fun m d => Event.clk m (irScan s).pins.tdi d)
          (irSettleTms s.ctx.irBits.toNat (irFinal s)) down ++
        pulses.map (Event.clk false (irScan s).pins.tdi) ++
        (if s.ctx.runtest = 0#32 then [] else [.delay s.ctx.runtest]) ∧
      (s.ctx.runtest = 0#32 → pulses = []) ∧
      ∀ k q, s.ctx.runtest ≠ 0#32 → s.env.pulses = k :: q → pulses.length = k := by
  have settled := irSettle_trace (irShifted s)
  have answers : (irShifted s).env.pulses = s.env.pulses := by rw [irShifted, shift_pulses, gotoTap_pulses]
  rwa [irFinal_irShifted, irShifted_tap, gotoTms_irSettle _ (irFinal_legal h), (irShifted_onlyShifted s).ctx,
    answers, ← irScan_eq, ← irSettle_latch, ← irScan_eq] at settled

/-! ## IR records with whole vectors -/

/-- The state an IR record's scan starts from: the size pair written and the vector in its buffer (R240, R241). -/
def irStart (bits : Nat) (v : List Byte) (s : State) : State := withVector .tdi v (irSized bits s)

theorem irStart_irBits {bits : Nat} (h : bits ≤ 1032) (v : List Byte) (s : State) :
    (irStart bits v s).ctx.irBits.toNat = bits := ofNat_irBits h

theorem irStart_irBytes {bits : Nat} (h : bits ≤ 1032) (v : List Byte) (s : State) :
    (irStart bits v s).ctx.irBytes.val = ceil8 bits := ofNat_bytes h

theorem irStart_byte (bits : Nat) (v : List Byte) (s : State) (b : BufName) (j : Nat) :
    bufByte (irStart bits v s) b j = if b = .tdi ∧ j < v.length then v.getD j 0#8 else bufByte s b j :=
  withVector_byte .tdi b v (irSized bits s) j

theorem irRecord_whole {bits : Nat} {v : List Byte} (s : State) (hb : bits ≤ 1032) (h : v.length = ceil8 bits) :
    irRecord bits v s = .go (irScan (irStart bits v s)) := by
  have bytes : (irSized bits s).ctx.irBytes.val = ceil8 bits := ofNat_bytes hb
  obtain ⟨-, sized⟩ := (setIrSize_cases bits s).resolve_right fun tooLong => absurd tooLong.1 hb.not_gt
  rw [irRecord, sized, andThen_go, bytes, fill_exact _ _ h, andThen_go, irStart]

theorem exec_ir_whole {i : Instr} {bits : Nat} {v : List Byte} (s : State) (hi : IrVector i bits v)
    (hb : bits ≤ 1032) (h : v.length = ceil8 bits) : exec i s = .next (irScan (irStart bits v s)) := by
  have ir := congrArg Flow.result (irRecord_whole s hb h)
  obtain ⟨len, rfl, rfl⟩ | ⟨len, rfl, rfl⟩ := hi <;> exact ir

/-- An IR scan changes no buffer but `TDOCAP`. -/
theorem irScan_byte (s : State) {b : BufName} (h : b ≠ .tdocap) (j : Nat) :
    bufByte (irScan s) b j = bufByte s b j :=
  congrArg (Memory.get · j) ((irScan_scanned s).only.bufs b h)

/-- Settles O39: the record is an IR scan from the state with the size pair and the vector in it. -/
theorem irRecordsScanAndSettle : Obligations.IrRecordsScanAndSettle := by
  intro s i bits v hi hb hv legal final settle latched
  have legal' : EndStatesLegal (irStart bits v s) := legal
  have size := irStart_irBits hb v s
  have only := (irScan_scanned (irStart bits v s)).only
  have latch := irScan_latch (irStart bits v s)
  obtain ⟨walk, tdos, walkLen, tdosLen, shifted, captured⟩ := irShifted_trace (irStart bits v s)
  obtain ⟨down, pulses, downLen, trace, noPulses, drawn⟩ := irScan_trace legal'
  rw [shifted] at trace
  rw [size] at latch tdosLen downLen trace captured
  refine ⟨irScan (irStart bits v s), exec_ir_whole s hi hb hv, ?_, ?_, ?_, irScan_tap legal', fun j => ?_,
    ⟨gotoTms .shiftIr s.tap, walk, tdos, down, pulses, walkLen, tdosLen, downLen, trace, tmsWalk_gotoTms _ _,
      fun _ there => (gotoTms_shortest (by decide) there).1, noPulses, drawn, captured⟩,
    latch, fun j hj => ?_, fun b j notTdi notCap => ?_, only.stage, only.phase, only.comment, only.mode, only.host⟩
  · rw [only.ctx, size]
  · rw [only.ctx, irStart_irBytes hb]
  · rw [only.ctx]; rfl
  · rw [irScan_byte _ (by decide), irStart_byte, hv]; simp
  · rw [irScan_above _ (by rwa [size]), irStart_byte, if_neg (by simp)]
  · rw [irScan_byte _ notCap, irStart_byte, if_neg (by simp [notTdi])]

end Sys2Proof.Machine

/-! PROOF. The shift engine (41_shift_engine.md, R170 to R178): the clocks of a shift, its padding and its frame, the
bytes it captures where the outside has its TDO answers ready, and the DR records whose expected vector these answer. -/

namespace Sys2Proof.Machine

/-! ## Padding and frame -/

/-- A shift makes one clock for each bit (R170). -/
theorem shift_clockCount {inp out : BufName} (hne : inp ≠ out) (n : Nat) (e : Bool) (s : State) :
    clockCount (shift inp out n e s).trace = clockCount s.trace + n := by
  obtain ⟨-, tdos, len, clocks, -⟩ := shift_spec inp out hne n e s
  rw [clocks.trace, clockCount_append, shiftEvents_clockCount, len]

theorem setBuf_get_self (b : BufName) (s : State) : setBuf b (s.bufs.get b) s = s := by
  cases b <;> rfl

/-- The padding bits of byte 0 stand at wire positions that no clock has (R175). -/
theorem padding_wirePos {n p : Nat} (partly : n % 8 ≠ 0) (hp : n % 8 ≤ p) : n ≤ 8 * (ceil8 n - 1 - 0) + p := by
  unfold ceil8; omega

/-- Only the padding bits of byte 0 stand beyond the last clock (R171, R175). -/
theorem padding_of_wirePos {n j p : Nat} (hj : j < ceil8 n) (hp : p < 8) (beyond : n ≤ 8 * (ceil8 n - 1 - j) + p) :
    j = 0 ∧ n % 8 ≠ 0 ∧ n % 8 ≤ p := by
  unfold ceil8 at hj beyond; omega

/-- Settles O30: from what a shift captures and leaves alone; the padding bits lie beyond the last clock. -/
theorem shiftPaddingAndFrame : Obligations.ShiftPaddingAndFrame := by
  intro s n e t
  obtain ⟨only, tdos, len, -, captured, above⟩ := shift_spec .tdi .tdocap (by decide) n e s
  refine ⟨fun p partly low high => ?_, above, fun b j hb => congrArg (Memory.get · j) (only.bufs b hb), ?_,
    shift_clockCount (by decide) n e s, only.ctx, only.stage, only.phase, only.comment, only.host⟩
  · have bytes : 0 < ceil8 n := by unfold ceil8; omega
    rw [captured 0 p bytes high]
    exact List.getD_eq_default _ _ (by rw [len]; exact padding_wirePos partly low)
  · rintro rfl
    exact setBuf_get_self .tdocap s

/-! ## Shifts whose TDO answers are ready -/

/-- The bits captured are the outside's answers, each at its wire position (R170, R171). -/
theorem shift_fed_bit {inp out : BufName} (hne : inp ≠ out) {n : Nat} (e : Bool) {l q : List Bool} {s : State}
    (len : l.length = n) (fed : s.env.tdo = l ++ q) {j p : Nat} (hj : j < ceil8 n) (hp : p < 8) :
    (bufByte (shift inp out n e s) out j).getLsbD p = l.getD (8 * (ceil8 n - 1 - j) + p) false := by
  subst len
  obtain ⟨-, tdos, -, clocks, captured, -⟩ := shift_spec inp out hne l.length e s
  have same : tdos = l := shiftEvents_inj s inp l.length e
    (List.append_cancel_left (clocks.trace.symm.trans (shift_fed inp out hne e l q s fed)))
  rw [captured j p hj hp, same]

/-- The answers that send the bytes `v` in wire order, the last byte's lowest bit first (R171). -/
def wireBits (n : Nat) (v : Nat → Byte) : List Bool :=
  (List.range n).map fun k => (v (ceil8 n - 1 - k / 8)).getLsbD (k % 8)

theorem wireBits_length (n : Nat) (v : Nat → Byte) : (wireBits n v).length = n := by simp [wireBits]

/-- At the wire position of a bit stands that bit, and nothing beyond the last clock. -/
theorem wireBits_wirePos (n : Nat) (v : Nat → Byte) {j p : Nat} (hj : j < ceil8 n) (hp : p < 8) :
    (wireBits n v).getD (8 * (ceil8 n - 1 - j) + p) false =
      (decide (8 * (ceil8 n - 1 - j) + p < n) && (v j).getLsbD p) := by
  by_cases clocked : 8 * (ceil8 n - 1 - j) + p < n
  · have byte : ceil8 n - 1 - (8 * (ceil8 n - 1 - j) + p) / 8 = j := by omega
    have bit : (8 * (ceil8 n - 1 - j) + p) % 8 = p := by omega
    simp [wireBits, List.getD_eq_getElem?_getD, clocked, byte, bit]
  · rw [List.getD_eq_default _ _ (by rw [wireBits_length]; omega), decide_eq_false clocked, Bool.false_and]

/-- A shift that is answered the bytes `v` captures them, the padding cleared (R171, R175). -/
theorem shift_fed_wireBits {inp out : BufName} (hne : inp ≠ out) {n : Nat} (e : Bool) {v : Nat → Byte}
    {q : List Bool} {s : State} (fed : s.env.tdo = wireBits n v ++ q) {j p : Nat} (hj : j < ceil8 n) (hp : p < 8) :
    (bufByte (shift inp out n e s) out j).getLsbD p =
      (decide (8 * (ceil8 n - 1 - j) + p < n) && (v j).getLsbD p) := by
  rw [shift_fed_bit hne e (wireBits_length n v) fed hj hp, wireBits_wirePos n v hj hp]

/-- Settles O29: the first two from where a shift leaves the TAP and its clocks; in a loopback the bytes answered are
those of `TDI`. -/
theorem shiftStatedProperties : Obligations.ShiftStatedProperties := by
  refine ⟨fun s loops => ?_, fun s atShift => ⟨?_, shift_clockCount (by decide) 16 true s⟩,
    fun s n e q _ looped j p hj hp => ?_⟩
  · rw [shift_tap _ _ (by decide) 16 (by decide) false s loops, loops]
  · rw [shift_tap _ _ (by decide) 16 (by decide) true s (by rw [atShift]; rfl), atShift]
    rfl
  · exact shift_fed_wireBits (v := bufByte s .tdi) (by decide) e looped hj hp

/-! ## Expected vectors that TDO answers -/

theorem bytesMatch_of_forall {useMask : Bool} {s : State} {n : Nat} (h : ∀ j, j < n → byteMatches useMask s j = true) :
    bytesMatch useMask s n = true := by
  induction n with
  | zero => rfl
  | succ n ih => rw [bytesMatch, ih fun j hj => h j (by omega), h n (by omega)]; rfl

/-- Equal bytes match under every mask (R256). -/
theorem captureMatches_of_eq (useMask : Bool) {s : State}
    (h : ∀ j, j < s.ctx.drBytes.val → bufByte s .tdocap j = bufByte s .tdoexp j) :
    captureMatches useMask s = true :=
  bytesMatch_of_forall fun j hj => by rw [byteMatches, h j hj]; exact beq_self_eq_true _

/-- A match ends the loop, however many attempts are left (R251). -/
theorem drAttempts_of_match {f : DrFlags} {s : State}
    (h : captureMatches f.useMask (drShift f.mustEnd s) = true) (retries : Nat) :
    drAttempts f retries s = .go (drShift f.mustEnd s) := by
  cases retries <;> simp [drAttempts, h]

/-- A DR record whose first attempt matches ends with it (R251, R252). -/
theorem exec_dr_of_first_match {i : Instr} {f : DrFlags} {tdi : List Byte} {exp : Option (List Byte)} {s : State}
    (hi : drOperands i = some (f, tdi, exp)) (h : tdi.length = s.ctx.drBytes.val)
    (h' : ∀ e, exp = some e → e.length = s.ctx.drBytes.val)
    (first : captureMatches f.useMask (drShift f.mustEnd (drStart f tdi exp s)) = true) :
    exec i s = .next (drDone f (drShift f.mustEnd (drStart f tdi exp s))) := by
  have scan : drScan f (withDrVectors tdi exp s) =
      (drAttempts f (drStart f tdi exp s).ctx.retries.toNat (drStart f tdi exp s)).andThen
        fun t => .go (drDone f t) := rfl
  rw [exec_dr_whole hi h h', scan, drAttempts_of_match first, andThen_go, state_go]

/-- Beginning a DR scan only clocks. -/
theorem drStart_onlyClocked (f : DrFlags) (tdi : List Byte) (exp : Option (List Byte)) (s : State) :
    OnlyClocked (withDrVectors tdi exp s) (drStart f tdi exp s) := by
  show OnlyClocked _ (if f.mustBegin then gotoTap .shiftDr (withDrVectors tdi exp s) else withDrVectors tdi exp s)
  split
  · exact gotoTap_onlyClocked _ _
  · exact .refl _

theorem drStart_ctx (f : DrFlags) (tdi : List Byte) (exp : Option (List Byte)) (s : State) :
    (drStart f tdi exp s).ctx = s.ctx := by
  rw [(drStart_onlyClocked f tdi exp s).ctx, withDrVectors_eq]

theorem drShift_drStart_ctx (f : DrFlags) (tdi : List Byte) (exp : Option (List Byte)) (s : State) :
    (drShift f.mustEnd (drStart f tdi exp s)).ctx = s.ctx := by
  rw [(drShift_scanned _ _).only.ctx, drStart_ctx]

/-- An attempt leaves the expected vector in its buffer. -/
theorem drShift_drStart_tdoexp (f : DrFlags) (tdi exp : List Byte) (s : State) {j : Nat} (hj : j < exp.length) :
    bufByte (drShift f.mustEnd (drStart f tdi (some exp) s)) .tdoexp j = exp.getD j 0#8 := by
  rw [bufByte, (drShift_scanned _ _).only.bufs _ (by decide), (drStart_onlyClocked _ _ _ _).bufs, ← bufByte,
    withDrVectors_tdoexp tdi (some exp) s (by rintro _ ⟨⟩; rfl), if_pos hj]
  rfl

theorem drDone_ctx (f : DrFlags) (s : State) : (drDone f s).ctx = s.ctx := by
  unfold drDone
  split
  · exact (drSettle_scanned s).only.ctx
  · rfl

theorem drDone_bufs (f : DrFlags) (s : State) : (drDone f s).bufs = s.bufs := by
  unfold drDone
  split
  · exact drSettle_bufs s
  · rfl

/-- A DR attempt that is answered the bytes of a vector with clear padding captures that vector (R171, R251). -/
theorem drShift_fed_byte (e : Bool) {v : Nat → Byte} {q : List Bool} {s : State}
    (fed : s.env.tdo = wireBits s.ctx.drBits.toNat v ++ q)
    (padding : ∀ p, s.ctx.drBits.toNat % 8 ≠ 0 → s.ctx.drBits.toNat % 8 ≤ p → p < 8 → (v 0).getLsbD p = false)
    {j : Nat} (hj : j < ceil8 s.ctx.drBits.toNat) : bufByte (drShift e s) .tdocap j = v j := by
  refine BitVec.eq_of_getLsbD_eq fun p hp => ?_
  rw [drShift, shift_fed_wireBits (by decide) e fed hj hp]
  by_cases clocked : 8 * (ceil8 s.ctx.drBits.toNat - 1 - j) + p < s.ctx.drBits.toNat
  · rw [decide_eq_true clocked, Bool.true_and]
  · obtain ⟨rfl, partly, low⟩ := padding_of_wirePos hj hp (by omega)
    rw [padding p partly low hp, Bool.and_false]

/-- Settles O42: the first attempt captures the expected vector, and so it matches under every mask. -/
theorem expectedTdoCompletes : Obligations.ExpectedTdoCompletes := by
  rintro s i f tdi exp q ⟨-, agree⟩ hi htdi hexp fed padding
  rw [agree] at fed
  rw [← drStart_ctx f tdi (some exp) s] at fed padding
  have captured {j : Nat} (hj : j < s.ctx.drBytes.val) :
      bufByte (drShift f.mustEnd (drStart f tdi (some exp) s)) .tdocap j = exp.getD j 0#8 :=
    drShift_fed_byte f.mustEnd (v := (exp.getD · 0#8)) fed padding (by rwa [drStart_ctx, ← agree])
  have first : captureMatches f.useMask (drShift f.mustEnd (drStart f tdi (some exp) s)) = true := by
    refine captureMatches_of_eq _ fun j hj => ?_
    rw [drShift_drStart_ctx] at hj
    rw [captured hj, drShift_drStart_tdoexp _ _ _ _ (by rwa [hexp])]
  refine ⟨_, exec_dr_of_first_match hi htdi (by rintro _ ⟨⟩; exact hexp) first, ?_, rfl, fun j hj => ?_⟩
  · rw [drDone_ctx, drShift_drStart_ctx]
  · rw [bufByte, drDone_bufs, ← bufByte, captured hj]

end Sys2Proof.Machine

/-! PROOF. One step of a running session by what its reads come to (42_xsvf_decode_setup.md; R191, R203, R205): a
record, an unassigned opcode, no opcode at all, or one byte more of a comment from a host that never stops. -/

namespace Sys2Proof.Machine

/-! ## A step is the fetch, its execution and the loop test -/

theorem step_of_running {s : State} (hp : s.phase = .running) :
    step s = afterRecord loopTest (execFetched (fetchRecord s)) := by
  simp only [step, hp, interpret]

theorem fetchRecord_of_starved {s t : State} (hc : s.comment = none) (h : nextByte s = (none, t)) :
    fetchRecord s = .starved t := by
  simp only [fetchRecord, hc, h]

theorem fetchRecord_of_unassigned {s t : State} {op : Byte} (hc : s.comment = none)
    (h : nextByte s = (some op, t)) (ho : op ∉ assignedOpcodes) : fetchRecord s = .unassigned (countInstr t) := by
  obtain ⟨assigned, -⟩ | ⟨-, refused⟩ :=
    parseBody_opcode_cases nextByte s.ctx.drBytes.val (commentReads t) op (countInstr t)
  · exact absurd assigned ho
  · simp only [fetchRecord, hc, h, refused, fetchedOf]

/-- Settles O18: an opcode the decoder refuses is refused by the stream's reading too, which stops at it. -/
theorem unassignedOpcodeStep : Obligations.UnassignedOpcodeStep := by
  intro s t op hp hc h hd
  have ho : op ∉ assignedOpcodes := (unassignedOpcodesAreTheRest _ op []).mp hd
  rw [step_of_running hp, fetchRecord_of_unassigned hc h ho]
  rfl

/-- Settles O19: no opcode is fetched, so there is none to count. -/
theorem starvedOpcodeStep : Obligations.StarvedOpcodeStep := by
  intro s t hp hc h
  rw [step_of_running hp, fetchRecord_of_starved hc h]
  rfl

/-! ## The instruction count -/

@[simp] theorem loopTest_ctx (s : State) : (loopTest s).ctx = s.ctx := by
  obtain ⟨-, -, e⟩ | ⟨-, e⟩ := loopTest_cases s <;> rw [e]
  rw [endSession_eq]

/-- What a call of the interpreter does after its reads leaves the instruction count alone (R191). -/
theorem interpret_instrCount {s u : State} (h : interpret s = .next u) :
    u.ctx.instrCount = s.ctx.instrCount +
      if s.comment = none ∧ (nextByte s).1.isSome then 1#32 else 0#32 := by
  obtain ⟨w, fetched, next⟩ := interpret_cases h
  have counted := congrArg Context.instrCount fetched.ctx
  obtain ⟨-, i, ran⟩ | ⟨e, -, rfl⟩ | ⟨-, text, rfl⟩ := next
  · exact (exec_framed ran).kept.instrCount.trans counted
  · exact counted
  · exact counted

/-- Settles O60: the reads count the opcode, and neither the record nor the loop test touches the count. -/
theorem oneCountPerOpcode : Obligations.OneCountPerOpcode := by
  intro s t hp h
  obtain ⟨u, called, rfl⟩ := step_running hp h
  rw [loopTest_ctx]
  exact interpret_instrCount called

/-! ## A comment from a host that never stops -/

/-- In a session that runs, no flag is set, so the loop test goes on where the flags have not changed (R356). -/
theorem loopTest_of_running {s t : State} (inv : s.Inv) (hp : s.phase = .running)
    (error : t.ctx.error = s.ctx.error) (complete : t.ctx.complete = s.ctx.complete) : loopTest t = t := by
  obtain ⟨noError, incomplete, -⟩ := (phaseAgrees_running hp).mp inv.phase
  obtain ⟨-, -, e⟩ | ⟨set | set, -⟩ := loopTest_cases t
  · exact e
  · simp [complete, incomplete] at set
  · exact absurd (error.trans noError) set

/-- The flags that the loop test looks at are not the reader's. -/
theorem nextByte_flags {s t : State} {b : Byte} (h : nextByte s = (some b, t)) :
    t.ctx.error = s.ctx.error ∧ t.ctx.complete = s.ctx.complete := by
  obtain ⟨-, -, -, -, only⟩ := nextByte_some h
  exact ⟨by rw [only.ctx], by rw [only.ctx]⟩

/-- The step that reads the opcode is the one that reads on in an empty text. -/
theorem step_endless_first {s t : State} (hp : s.phase = .running) (he : s.env.host.endless ≠ none)
    (hc : s.comment = none) (h : nextByte s = (some 0x16#8, t)) :
    step s = step { countInstr t with comment := some [] } := by
  obtain ⟨-, -, -, -, only⟩ := nextByte_some h
  have running : ({ countInstr t with comment := some [] } : State).phase = .running := only.phase.trans hp
  rw [step_of_running hp, step_of_running running, fetchRecord_endless_first hc he h]

/-- Settles O21: what the one read of such a step gives decides between text, Diag and IoExhausted. -/
theorem commentFromEndlessHost : Obligations.CommentFromEndlessHost := by
  intro s t inv hp he
  refine ⟨step_endless_first hp he, fun text hc => ⟨fun b hb h => ?_, fun h => ?_, fun h => ?_⟩⟩ <;>
    rw [step_of_running hp, fetchRecord_endless hc he, h]
  · obtain ⟨error, complete⟩ := nextByte_flags h
    simp only [hb, if_false, execFetched, afterRecord_next]
    exact congrArg Host.Outcome.next (loopTest_of_running inv hp error complete)
  · obtain ⟨error, complete⟩ := nextByte_flags h
    exact congrArg Host.Outcome.next (loopTest_of_running inv hp error complete)
  · rfl

/-! ## Setup records that only load or surface their operand -/

/-- Settles O32: the two records' executions are these updates. -/
theorem runtestAndRepeatLoad : Obligations.RuntestAndRepeatLoad := fun _ _ _ => ⟨rfl, rfl⟩

/-- Settles O35: surfacing a text is one event, and XTRST is no update at all. -/
theorem commentSurfacesAndTrstIgnores : Obligations.CommentSurfacesAndTrstIgnores := fun _ _ _ => ⟨rfl, rfl⟩

end Sys2Proof.Machine

/-! PROOF. The DR scans (43_xsvf_scan.md, R250 to R268): the attempts of a record and the bounces between them, the
compare, the settle, and the records that cannot fail. -/

namespace Sys2Proof.Machine

/-! ## The compare -/

theorem bytesMatch_iff (useMask : Bool) (s : State) (n : Nat) :
    bytesMatch useMask s n = true ↔ ∀ j, j < n → byteMatches useMask s j = true := by
  refine ⟨fun h => ?_, bytesMatch_of_forall⟩
  induction n with
  | zero => intro j hj; omega
  | succ n ih =>
    obtain ⟨below, last⟩ := Bool.and_eq_true_iff.mp h
    intro j hj
    obtain hj | rfl := Nat.lt_succ_iff_lt_or_eq.mp hj
    · exact ih below j hj
    · exact last

/-- Two masked words are equal exactly if their bits agree wherever the mask has a 1. -/
theorem bitVec_and_eq_and_iff {w : Nat} (x y m : BitVec w) :
    x &&& m = y &&& m ↔ ∀ p, p < w → m.getLsbD p = true → x.getLsbD p = y.getLsbD p := by
  rw [BitVec.eq_of_getLsbD_eq_iff]
  refine forall₂_congr fun p _ => ?_
  rw [BitVec.getLsbD_and, BitVec.getLsbD_and]
  cases m.getLsbD p <;> simp

/-- One byte matches bit by bit (R257). -/
theorem byteMatches_iff (useMask : Bool) (s : State) (j : Nat) :
    byteMatches useMask s j = true ↔ ∀ p, p < 8 →
      (useMask = true → (bufByte s .tdomask j).getLsbD p = true) →
      (bufByte s .tdocap j).getLsbD p = (bufByte s .tdoexp j).getLsbD p := by
  rw [byteMatches, beq_iff_eq, bitVec_and_eq_and_iff]
  refine forall₂_congr fun p hp => ?_
  cases useMask
  · have compared : (0xFF#8).getLsbD p = true := by
      rw [show 0xFF#8 = BitVec.allOnes 8 from rfl, BitVec.getLsbD_allOnes, decide_eq_true hp]
    simp [compared]
  · simp

/-- Settles O46: the compare is the conjunction of its bytes, and each byte that of its bits. -/
theorem compareIsMaskedBytewise : Obligations.CompareIsMaskedBytewise := fun s useMask =>
  (bytesMatch_iff useMask s _).trans (forall₂_congr fun j _ => byteMatches_iff useMask s j)

/-- A mask without a 1 compares nothing (R256). -/
theorem captureMatches_of_zeroMask {s : State}
    (h : ∀ j, j < s.ctx.drBytes.val → bufByte s .tdomask j = 0#8) : captureMatches true s = true := by
  refine (compareIsMaskedBytewise s true).mpr fun j hj p _ compared => ?_
  have := compared rfl
  rw [h j hj] at this
  simp at this

/-! ## The attempts of a record -/

/-- The attempts after the first one are those of a scan that begins after the bounce (R252). -/
theorem attemptState_succ (e : Bool) (k : Nat) (s : State) :
    attemptState e (k + 1) s = attemptState e k (retryBounce (drShift e s)) := by
  induction k with
  | zero => rfl
  | succ k ih => rw [attemptState, ih]; rfl

theorem attemptState_ctx (e : Bool) (k : Nat) (s : State) : (attemptState e k s).ctx = s.ctx := by
  induction k generalizing s with
  | zero => exact (drShift_scanned e s).only.ctx
  | succ k ih => rw [attemptState_succ, ih, ((drShift_scanned e s).trans (retryBounce_scanned _)).only.ctx]

theorem drAttempts_of_unchecked {f : DrFlags} (h : f.mustCheck = false) (retries : Nat) (s : State) :
    drAttempts f retries s = .go (drShift f.mustEnd s) := by
  cases retries <;> simp [drAttempts, h]

/-- A mismatch bounces and tries again while the budget lasts (R251, R252). -/
theorem drAttempts_of_mismatch {f : DrFlags} {s : State} (check : f.mustCheck = true)
    (h : captureMatches f.useMask (drShift f.mustEnd s) = false) (retries : Nat) :
    drAttempts f (retries + 1) s = drAttempts f retries (retryBounce (drShift f.mustEnd s)) := by
  simp [drAttempts, check, h]

/-- The loop ends with the first attempt that matches (R251). -/
theorem drAttempts_of_attempt_match {f : DrFlags} (check : f.mustCheck = true) {a n : Nat} {s : State} (ha : a ≤ n)
    (hit : captureMatches f.useMask (attemptState f.mustEnd a s) = true)
    (miss : ∀ k, k < a → captureMatches f.useMask (attemptState f.mustEnd k s) = false) :
    drAttempts f n s = .go (attemptState f.mustEnd a s) := by
  induction a generalizing n s with
  | zero => exact drAttempts_of_match hit n
  | succ a ih =>
    obtain ⟨n, rfl⟩ : ∃ m, n = m + 1 := ⟨n - 1, by omega⟩
    rw [attemptState_succ] at hit ⊢
    rw [drAttempts_of_mismatch check (miss 0 (by omega))]
    refine ih (by omega) hit fun k hk => ?_
    rw [← attemptState_succ]
    exact miss (k + 1) (by omega)

/-- The loop raises after the last attempt if none matches (R255). -/
theorem drAttempts_of_no_match {f : DrFlags} (check : f.mustCheck = true) {n : Nat} {s : State}
    (miss : ∀ k, k ≤ n → captureMatches f.useMask (attemptState f.mustEnd k s) = false) :
    drAttempts f n s = .raised (raise .verificationFailed (attemptState f.mustEnd n s)) := by
  induction n generalizing s with
  | zero =>
    have last : captureMatches f.useMask (drShift f.mustEnd s) = false := miss 0 le_rfl
    simp [drAttempts, check, last, attemptState]
  | succ n ih =>
    rw [attemptState_succ, drAttempts_of_mismatch check (miss 0 (by omega))]
    refine ih fun k hk => ?_
    rw [← attemptState_succ]
    exact miss (k + 1) (by omega)

/-- A DR record with whole vectors is its attempts and, where they end well, its settle (R251). -/
theorem exec_dr_attempts {i : Instr} {f : DrFlags} {tdi : List Byte} {exp : Option (List Byte)} {s : State}
    (hi : drOperands i = some (f, tdi, exp)) (h : tdi.length = s.ctx.drBytes.val)
    (h' : ∀ e, exp = some e → e.length = s.ctx.drBytes.val) :
    exec i s = .next ((drAttempts f s.ctx.retries.toNat (drStart f tdi exp s)).andThen
      fun t => .go (drDone f t)).state := by
  rw [exec_dr_whole hi h h', ← drStart_ctx f tdi exp s]
  rfl

/-- Settles O40: a record that does not check takes its first attempt, another one its first match. -/
theorem drRecordsSucceed : Obligations.DrRecordsSucceed := by
  intro s i f tdi exp a hi htdi hexp budget unchecked checked
  have ends : drAttempts f s.ctx.retries.toNat (drStart f tdi exp s) =
      .go (attemptState f.mustEnd a (drStart f tdi exp s)) := by
    cases check : f.mustCheck with
    | false =>
      obtain rfl := unchecked check
      exact drAttempts_of_unchecked check _ _
    | true =>
      obtain ⟨hit, miss⟩ := checked check
      exact drAttempts_of_attempt_match check budget hit miss
  rw [exec_dr_attempts hi htdi hexp, ends]
  rfl

/-- Settles O41: the loop raises, and a raise skips the settle. -/
theorem drRecordsFailWhenBudgetIsUsedUp : Obligations.DrRecordsFailWhenBudgetIsUsedUp := by
  intro s i f tdi exp hi htdi hexp check miss
  rw [exec_dr_attempts hi htdi hexp, drAttempts_of_no_match check miss]
  rfl

/-! ## The settle -/

theorem drSettle_of_no_runtest {s : State} (h : s.ctx.runtest = 0#32) : drSettle s = gotoTap s.ctx.endDr s :=
  if_pos h

theorem drSettle_of_runtest {s : State} (h : s.ctx.runtest ≠ 0#32) :
    drSettle s = idleWait s.ctx.runtest (gotoTap .runTestIdle s) := if_neg h

/-- Settles O49: the two branches of each settle. -/
theorem settleRulesAreMirrored : Obligations.SettleRulesAreMirrored := fun _ =>
  ⟨fun zero => ⟨if_pos zero, drSettle_of_no_runtest zero⟩, fun wait => ⟨if_neg wait, drSettle_of_runtest wait⟩⟩

/-- A DR scan settles in its configured end state, or in RUN_TEST_IDLE with a run-test duration (R254). -/
theorem drSettle_tap (s : State) :
    (drSettle s).tap = if s.ctx.runtest = 0#32 then s.ctx.endDr else .runTestIdle := by
  split
  · next zero => rw [drSettle_of_no_runtest zero, gotoTap_tap]
  · next wait => rw [drSettle_of_runtest wait, idleWait_tap _ _ (by rw [gotoTap_tap]; rfl), gotoTap_tap]

theorem drDone_first_ctx (f : DrFlags) (tdi : List Byte) (exp : Option (List Byte)) (s : State) :
    (drDone f (drShift f.mustEnd (drStart f tdi exp s))).ctx = s.ctx :=
  (drDone_ctx f _).trans (drShift_drStart_ctx f tdi exp s)

/-- A record that must end and passes on its first attempt leaves the context and ends in the settle state. -/
theorem drDone_first_settled {f : DrFlags} (settles : f.mustEnd = true) (tdi : List Byte) (exp : Option (List Byte))
    (s : State) :
    let t := drDone f (drShift f.mustEnd (drStart f tdi exp s))
    t.ctx = s.ctx ∧ t.tap = if s.ctx.runtest = 0#32 then s.ctx.endDr else .runTestIdle := by
  refine ⟨drDone_first_ctx f tdi exp s, ?_⟩
  rw [drDone, if_pos settles, drSettle_tap, drShift_drStart_ctx]

/-! ## Records that cannot fail -/

/-- A DR record without a check makes one attempt and completes (R251). -/
theorem exec_dr_unchecked {i : Instr} {f : DrFlags} {tdi : List Byte} {s : State}
    (hi : drOperands i = some (f, tdi, none)) (check : f.mustCheck = false) (h : tdi.length = s.ctx.drBytes.val) :
    exec i s = .next (drDone f (drShift f.mustEnd (drStart f tdi none s))) :=
  drRecordsSucceed s i f tdi none 0 hi h nofun (Nat.zero_le _) (fun _ => rfl) fun h => by simp [check] at h

/-- Without an exit every clock of a shift has TMS 0 (R172). -/
theorem shiftEvents_tap_noExit (s : State) (inp : BufName) (n : Nat) (t : TapState) (i : Nat) (tdos : List Bool) :
    (shiftEvents s inp n false i tdos).foldl tapAfter t = tmsWalk t (List.replicate tdos.length false) := by
  induction tdos generalizing i t with
  | nil => rfl
  | cons d tdos ih =>
    rw [shiftEvents, List.foldl_cons, ih]
    rfl

theorem drShift_noExit_tap (s : State) :
    (drShift false s).tap = tmsWalk s.tap (List.replicate s.ctx.drBits.toNat false) := by
  obtain ⟨-, tdos, len, clocks, -⟩ := shift_spec .tdi .tdocap (by decide) s.ctx.drBits.toNat false s
  rw [drShift, clocks.tap, shiftEvents_tap_noExit, len]

/-- The clocks of an attempt, read off the vector that still stands in its buffer after it (R171). -/
theorem drShift_trace (e : Bool) (s : State) :
    ∃ tdos : List Bool, tdos.length = s.ctx.drBits.toNat ∧
      (drShift e s).trace = s.trace ++ shiftEvents (drShift e s) .tdi s.ctx.drBits.toNat e 0 tdos := by
  obtain ⟨only, tdos, len, clocks, -⟩ := shift_spec .tdi .tdocap (by decide) s.ctx.drBits.toNat e s
  refine ⟨tdos, len, ?_⟩
  rw [drShift, shiftEvents_congr (only.bufs .tdi (by decide)), clocks.trace]

/-- Settles O44: each record is its one attempt; XSDRB's has no exit from SHIFT_DR, before XSDRC's there is no walk, and
XSDRE's is settled. -/
theorem uncheckedScansComplete : Obligations.UncheckedScansComplete := by
  intro s tdi h
  refine ⟨⟨_, exec_dr_unchecked rfl rfl h, drDone_first_ctx _ tdi none s, ?_⟩,
    ⟨_, exec_dr_unchecked rfl rfl h, drDone_first_ctx _ tdi none s, ?_, ?_⟩,
    _, exec_dr_unchecked rfl rfl h, drDone_first_settled rfl tdi none s⟩
  · have begun : (drStart ⟨true, false, false, false⟩ tdi none s).tap = .shiftDr :=
      gotoTap_tap .shiftDr (withVector .tdi tdi s)
    exact (drShift_noExit_tap _).trans (by rw [begun, tmsWalk_replicate _ _ rfl])
  · exact drShift_noExit_tap (withVector .tdi tdi s)
  · exact drShift_trace false (withVector .tdi tdi s)

/-- The mask at the first attempt's compare is the one the record found. -/
theorem drShift_drStart_tdomask (f : DrFlags) (tdi : List Byte) (exp : Option (List Byte)) (s : State) (j : Nat) :
    bufByte (drShift f.mustEnd (drStart f tdi exp s)) .tdomask j = bufByte s .tdomask j := by
  rw [bufByte, (drShift_scanned _ _).only.bufs _ (by decide), (drStart_onlyClocked _ _ _ _).bufs, ← bufByte,
    withDrVectors_other _ _ _ (by decide) (by decide)]

/-- Settles O45: the first attempt matches, whatever it captures. -/
theorem zeroMaskAcceptsEverything : Obligations.ZeroMaskAcceptsEverything := by
  intro s tdi exp htdi hexp zero i hi
  have first (x : Option (List Byte)) :
      captureMatches true (drShift true (drStart ⟨true, true, true, true⟩ tdi x s)) = true := by
    refine captureMatches_of_zeroMask fun j hj => ?_
    rw [drShift_drStart_ctx ⟨true, true, true, true⟩] at hj
    rw [drShift_drStart_tdomask ⟨true, true, true, true⟩, zero j hj]
  obtain rfl | rfl := hi
  · exact ⟨_, exec_dr_of_first_match rfl htdi nofun (first none), drDone_first_settled rfl tdi none s⟩
  · exact ⟨_, exec_dr_of_first_match rfl htdi (by rintro _ ⟨⟩; exact hexp) (first (some exp)),
      drDone_first_settled rfl tdi (some exp) s⟩

/-! ## The bounce -/

/-- The TMS levels of the bounce up to RUN_TEST_IDLE, through PAUSE_DR and SHIFT_DR (R253). -/
def bounceTms (t : TapState) : List Bool :=
  gotoTms .pauseDr t ++ gotoTms .shiftDr .pauseDr ++ gotoTms .runTestIdle .shiftDr

theorem bounceTms_of_attempt {t : TapState} (h : t = .exit1Dr ∨ t = .shiftDr) :
    bounceTms t = (if t = .exit1Dr then [false] else [true, false]) ++ [true, false, true, true, false] := by
  obtain rfl | rfl := h <;> rfl

theorem tmsWalk_bounceTms (t : TapState) : tmsWalk t (bounceTms t) = .runTestIdle := by
  cases t <;> rfl

theorem retryBounce_eq (s : State) : retryBounce s =
    gotoTap .shiftDr (idleWait s.ctx.runtest (stepAll (bounceTms s.tap) s)) := by
  have out : gotoTap .runTestIdle (gotoTap .shiftDr (gotoTap .pauseDr s)) = stepAll (bounceTms s.tap) s := by
    simp only [gotoTap_eq_stepAll, stepAll_tap, tmsWalk_gotoTms, bounceTms, stepAll_append]
  simp only [retryBounce, out, (stepAll_onlyClocked _ s).ctx]

theorem retryBounce_onlyClocked (s : State) : OnlyClocked s (retryBounce s) := by
  rw [retryBounce_eq]
  exact ((stepAll_onlyClocked _ s).trans (idleWait_onlyClocked _ _)).trans (gotoTap_onlyClocked _ _)

/-- Settles O48: the walk out, the wait, which stays in RUN_TEST_IDLE, and the walk back from there. -/
theorem retryBounceWalksAndWaits : Obligations.RetryBounceWalksAndWaits := by
  intro s h latched out
  refine ⟨retryBounce_onlyClocked s, gotoTap_tap _ _, ?_⟩
  rw [retryBounce_eq, bounceTms_of_attempt h]
  have idle : (stepAll out s).tap = .runTestIdle := by
    rw [stepAll_tap, ← tmsWalk_bounceTms s.tap, bounceTms_of_attempt h]
  have waited : (idleWait s.ctx.runtest (stepAll out s)).tap = .runTestIdle := by
    rw [idleWait_tap _ _ (by rw [idle]; rfl), idle]
  obtain ⟨a, lenA, walked⟩ := stepAll_trace out s
  obtain ⟨w, pulsed, -, noPulses, -⟩ := idleWait_trace s.ctx.runtest (stepAll out s)
  obtain ⟨b, lenB, back⟩ := gotoTap_clocks .shiftDr (idleWait s.ctx.runtest (stepAll out s))
  rw [waited] at lenB back
  refine ⟨a, w, b, lenA, lenB, noPulses, ?_⟩
  rw [back, pulsed, walked, idleWait_latch, stepAll_latch]
  rfl

/-! ## The number of clocks -/

/-- A bounce without a run-test duration takes 9 clocks after an exit and 10 without one (R268). -/
theorem retryBounce_clockCount {s : State} (h : s.tap = .exit1Dr ∨ s.tap = .shiftDr) (noWait : s.ctx.runtest = 0#32) :
    clockCount (retryBounce s).trace = clockCount s.trace + if s.tap = .exit1Dr then 9 else 10 := by
  obtain ⟨-, -, a, w, b, lenA, lenB, noPulses, trace⟩ := retryBounceWalksAndWaits s h
  obtain rfl := noPulses noWait
  rw [trace, if_pos noWait]
  simp only [clockCount_append, clockCount_zipWith _ _ _ lenA, clockCount_zipWith _ [true, false, false] _ lenB]
  split <;> rfl

theorem drShift_tap_of_shiftDr (e : Bool) {s : State} (h : s.tap = .shiftDr) (bits : s.ctx.drBits.toNat ≠ 0) :
    (drShift e s).tap = if e then .exit1Dr else .shiftDr := by
  rw [drShift, shift_tap _ _ (by decide) _ bits e s (by rw [h]; rfl), h]
  cases e <;> rfl

theorem drShift_clockCount (e : Bool) (s : State) :
    clockCount (drShift e s).trace = clockCount s.trace + s.ctx.drBits.toNat :=
  shift_clockCount (by decide) _ e s

/-- Settles O47: by induction on the bounces, each of which begins where an attempt ends. -/
theorem attemptClockCount : Obligations.AttemptClockCount := by
  intro s e a hs bits noWait
  induction a with
  | zero => exact ⟨by rw [attemptState, drShift_clockCount]; omega, drShift_tap_of_shiftDr e hs bits⟩
  | succ a ih =>
    obtain ⟨count, tap⟩ := ih
    have ctx := attemptState_ctx e a s
    have ended : (attemptState e a s).tap = .exit1Dr ∨ (attemptState e a s).tap = .shiftDr := by
      rw [tap]; cases e <;> simp
    have bounced : clockCount (retryBounce (attemptState e a s)).trace =
        clockCount (attemptState e a s).trace + if e then 9 else 10 := by
      rw [retryBounce_clockCount ended (by rw [ctx, noWait]), tap]
      cases e <;> rfl
    have same : (retryBounce (attemptState e a s)).ctx = s.ctx := (retryBounce_onlyClocked _).ctx.trans ctx
    rw [attemptState]
    refine ⟨?_, drShift_tap_of_shiftDr e (gotoTap_tap _ _) (by rwa [same])⟩
    rw [drShift_clockCount, same, bounced, count]
    ring

end Sys2Proof.Machine

/-! PROOF. The wait records (44_xsvf_state_wait.md, R291 to R294): their four clocking phases, each from its own law,
and the pulses alone where both walks are empty and no time is waited. -/

namespace Sys2Proof.Machine

/-! ## Both state bytes in range -/

/-- State bytes up to 15 both name a TAP state (R289, R291). `waitRecord_cases` does not say which byte its fault
is about, so this goes through both bytes itself. -/
theorem waitRecord_of_le {start stop : Byte} (hstart : start.toNat ≤ 15) (hstop : stop.toNat ≤ 15)
    (clocks us : Word) (s : State) :
    ∃ ts te, tapCode ts = start.toNat ∧ tapCode te = stop.toNat ∧
      waitRecord start stop clocks us s = .next (waitWalk ts te clocks us (setWait ts te clocks us s)) := by
  unfold waitRecord waitArgs
  obtain ⟨ts, first, e⟩ | ⟨high, -⟩ := stateArg_cases start
  · obtain ⟨te, second, e'⟩ | ⟨high, -⟩ := stateArg_cases stop
    · exact ⟨ts, te, first, second, by simp only [e, e']⟩
    · omega
  · omega

theorem tapCode_le (t : TapState) : tapCode t ≤ 15 := by
  cases t <;> decide

theorem tapCode_injective : Function.Injective tapCode := fun a b h => by
  simpa [tapOfCode_tapCode] using congrArg tapOfCode h

/-! ## The walk to the wait state, the pulses, the timed wait and the walk on -/

/-- The state in which a wait record's timed wait begins: in the wait state, the fixed pulses made (R292). -/
def afterFixedPulses (ts : TapState) (clocks : Word) (s : State) : State :=
  stepAll (List.replicate clocks.toNat false) (gotoTap ts s)

theorem waitWalk_eq (ts te : TapState) (clocks us : Word) (s : State) :
    waitWalk ts te clocks us s = gotoTap te (idleWait us (afterFixedPulses ts clocks s)) := by
  rw [waitWalk, tapSteps_eq_stepAll, afterFixedPulses]

@[simp] theorem afterFixedPulses_latch (ts : TapState) (clocks : Word) (s : State) :
    (afterFixedPulses ts clocks s).pins.tdi = s.pins.tdi := by
  rw [afterFixedPulses, stepAll_latch, gotoTap_latch]

@[simp] theorem afterFixedPulses_pulses (ts : TapState) (clocks : Word) (s : State) :
    (afterFixedPulses ts clocks s).env.pulses = s.env.pulses := by
  rw [afterFixedPulses, stepAll_pulses, gotoTap_pulses]

@[simp] theorem waitWalk_tap (ts te : TapState) (clocks us : Word) (s : State) :
    (waitWalk ts te clocks us s).tap = te := gotoTap_tap te _

@[simp] theorem waitWalk_latch (ts te : TapState) (clocks us : Word) (s : State) :
    (waitWalk ts te clocks us s).pins.tdi = s.pins.tdi := by
  rw [waitWalk_eq, gotoTap_latch, idleWait_latch, afterFixedPulses_latch]

/-- The events of a wait record's clocks, phase by phase; the pulses of the timed wait are those the outside has ready
(R151, R292). -/
theorem waitWalk_trace (ts te : TapState) (clocks us : Word) (s : State) :
    ∃ (walk there : List Event) (pulses more : List Bool), pulses.length = clocks.toNat ∧
      (us = 0#32 → more = []) ∧ (∀ k q, us ≠ 0#32 → s.env.pulses = k :: q → more.length = k) ∧
      walk.foldl tapAfter s.tap = ts ∧ clockCount walk ≤ 8 ∧ clockCount there ≤ 8 ∧
      (waitWalk ts te clocks us s).trace = s.trace ++ walk ++ pulses.map (Event.clk false s.pins.tdi) ++
        more.map (Event.clk false s.pins.tdi) ++ (if us = 0#32 then [] else [.delay us]) ++ there := by
  obtain ⟨walk, walked, leads, walkCount⟩ := gotoTap_trace ts s
  obtain ⟨pulses, len, pulsed⟩ := stepAll_replicate_trace false clocks.toNat (gotoTap ts s)
  obtain ⟨more, waited, -, noWait, drawn⟩ := idleWait_trace us (afterFixedPulses ts clocks s)
  obtain ⟨there, onward, -, thereCount⟩ := gotoTap_trace te (idleWait us (afterFixedPulses ts clocks s))
  rw [afterFixedPulses_pulses] at drawn
  refine ⟨walk, there, pulses, more, len, noWait, drawn, leads, walkCount.trans_le (gotoTms_length_le _ _),
    thereCount.trans_le (gotoTms_length_le _ _), ?_⟩
  rw [waitWalk_eq, onward, waited, afterFixedPulses_latch, afterFixedPulses, pulsed, walked, gotoTap_latch]

/-- Settles O51: both records are the one wait record, which XWAIT gives no clocks. -/
theorem waitRecordsWalkAndWait : Obligations.WaitRecordsWalkAndWait := by
  intro s start stop clocks us hstart hstop i c hi
  have record : exec i s = waitRecord start stop c us s := by obtain ⟨rfl, rfl⟩ | ⟨rfl, rfl⟩ := hi <;> rfl
  obtain ⟨ts, te, first, second, next⟩ := waitRecord_of_le hstart hstop c us s
  have only := waitWalk_onlyClocked ts te c us (setWait ts te c us s)
  obtain ⟨walk, there, pulses, more, len, noWait, -, leads, walkCount, thereCount, trace⟩ :=
    waitWalk_trace ts te c us (setWait ts te c us s)
  exact ⟨_, ts, te, record.trans next, first, second, waitWalk_tap _ _ _ _ _, only.ctx, only.bufs, only.stage,
    only.phase, only.comment, only.mode, waitWalk_latch _ _ _ _ _, only.host, walk, there, pulses, more, len, noWait,
    leads, walkCount, thereCount, trace⟩

/-! ## The fixed pulses alone -/

/-- `Goto` of the state the TAP is in does not clock, but for TEST_LOGIC_RESET (R149). -/
theorem gotoTap_of_tap_eq {t : TapState} {s : State} (ht : t ≠ .testLogicReset) (h : s.tap = t) :
    gotoTap t s = s := by
  rw [gotoTap, if_neg ht, walk, if_pos h]

/-- A wait without a duration in a TMS-0 self-loop, where the TAP is and stays, is its fixed pulses (R292). -/
theorem waitWalk_in_selfLoop {t : TapState} {s : State} (h : s.tap = t) (loop : tapNext t false = t) (clocks : Word) :
    waitWalk t t clocks 0#32 s = stepAll (List.replicate clocks.toNat false) s := by
  have notReset : t ≠ .testLogicReset := by rintro rfl; contradiction
  have stays : (stepAll (List.replicate clocks.toNat false) s).tap = t := by
    rw [stepAll_tap, h, tmsWalk_replicate t false loop]
  rw [waitWalk_eq, afterFixedPulses, gotoTap_of_tap_eq notReset h]
  exact gotoTap_of_tap_eq notReset stays

/-- Settles O52: the byte names the current state, so that the record is its pulses. -/
theorem fixedPulsesAreExact : Obligations.FixedPulsesAreExact := by
  intro s b clocks code loop
  have low : b.toNat ≤ 15 := code ▸ tapCode_le s.tap
  obtain ⟨ts, te, first, second, next⟩ := waitRecord_of_le low low clocks 0#32 s
  obtain rfl : ts = s.tap := tapCode_injective (first.trans code.symm)
  obtain rfl : te = s.tap := tapCode_injective (second.trans code.symm)
  refine ⟨_, next, waitWalk_tap _ _ _ _ _, ?_⟩
  rw [waitWalk_in_selfLoop (setWait_tap ..) loop]
  exact stepAll_replicate_trace false clocks.toNat _

end Sys2Proof.Machine

/-! PROOF. The exceptions (60_exceptions.md, R310 to R316): which record raises which error, which records fault, and
that an error ends the session. -/

namespace Sys2Proof.Machine

/-! ## The errors of a record -/

/-- A record sets only an error that R310 gives it, also where it writes its IR size before its vector is cut. -/
theorem RecordCtx.error_writer {i : Instr} {c d : Context} (h : RecordCtx i c d) (hd : d.error ≠ c.error) :
    mayRaise i d.error = true := by
  cases h
  case error raises => exact raises
  case irSizeCut carries => obtain ⟨_, rfl⟩ | ⟨_, rfl⟩ := carries <;> rfl
  all_goals exact absurd rfl hd

/-- Settles O58: from what a record may do to the context. -/
theorem errorsByRecord : Obligations.ErrorsByRecord :=
  fun _ _ _ h hd => (exec_recordCtx h).error_writer hd

/-! ## The one fault -/

/-- One state byte above 15 is enough for a wait record to fault (R289, R291). -/
theorem waitRecord_of_high {start stop : Byte} (h : 15 < start.toNat ∨ 15 < stop.toNat) (clocks us : Word)
    (s : State) : ∃ r, waitRecord start stop clocks us s = .fault r := by
  obtain ⟨b, -, e⟩ | ⟨ts, te, first, second, -⟩ := waitRecord_cases start stop clocks us s
  · exact ⟨_, e⟩
  · have := tapCode_le ts
    have := tapCode_le te
    omega

/-- The two ends of a wait record, decided by its state bytes as `badStateByte` reads them. -/
theorem waitRecord_fault_or_next (start stop : Byte) (clocks us : Word) (s : State) :
    (decide (15 < start.toNat) || decide (15 < stop.toNat)) = true ∧
      (∃ r, waitRecord start stop clocks us s = .fault r) ∨
    (decide (15 < start.toNat) || decide (15 < stop.toNat)) = false ∧
      ∃ t, waitRecord start stop clocks us s = .next t := by
  by_cases high : 15 < start.toNat ∨ 15 < stop.toNat
  · exact .inl ⟨by simpa using high, waitRecord_of_high high clocks us s⟩
  · obtain ⟨_, _, -, -, e⟩ := waitRecord_of_le (start := start) (stop := stop) (by omega) (by omega) clocks us s
    exact .inr ⟨by simpa using high, _, e⟩

/-- A record faults with a state byte above 15, and else it has a next state, be it one with an error (R313, R316). -/
theorem exec_fault_or_next (i : Instr) (s : State) :
    badStateByte i = true ∧ (∃ r, exec i s = .fault r) ∨
    badStateByte i = false ∧ ∃ t, exec i s = .next t := by
  cases i
  case xstate b =>
    simp only [badStateByte, exec, execXstate]
    obtain ⟨t, code, e⟩ | ⟨high, e⟩ := stateArg_cases b <;> rw [e]
    · exact .inr ⟨decide_eq_false (code ▸ (tapCode_le t).not_gt), _, rfl⟩
    · exact .inl ⟨decide_eq_true high, _, rfl⟩
  case xwait start stop us => exact waitRecord_fault_or_next start stop 0#32 us s
  case xwaitstate start stop clocks us => exact waitRecord_fault_or_next start stop clocks us s
  case xendir code | xenddr code =>
    simp only [exec, execXendir, execXenddr]
    split <;> exact .inr ⟨rfl, _, rfl⟩
  all_goals exact .inr ⟨rfl, _, rfl⟩

/-- Settles O53: a record faults with a bad state byte, else has a next state, and so is never refused. -/
theorem onlyStateBytesFault : Obligations.OnlyStateBytesFault := by
  intro i s
  obtain ⟨bad, r, e⟩ | ⟨fine, t, e⟩ := exec_fault_or_next i s
  · simp [bad, e]
  · simp [fine, e]

/-! ## An error ends the session -/

theorem phaseAgrees_failed {s : State} (hp : s.phase = .failed) :
    phaseAgrees s = true ↔ s.ctx.error ≠ .none ∧ s.ctx.complete = false ∧ s.pins.mode = .highZ ∧
      s.trace.getLast? = some .release := by
  simp [phaseAgrees, hp, and_assoc]

/-- In no other phase does the invariant allow an error (R356). -/
theorem State.Inv.phase_of_error {s : State} (h : s.Inv) (he : s.ctx.error ≠ .none) : s.phase = .failed := by
  have agrees := h.phase
  cases hp : s.phase
  case failed => rfl
  all_goals simp [phaseAgrees, hp, he] at agrees

/-- An ended session stays as it is (R361; log entry 10). -/
theorem step_of_final {s : State} (h : s.Final) : step s = .next s := by
  obtain hp | hp := h <;> simp only [step, hp]

/-- Settles O10: the step keeps the invariant, which has an error only in a session that failed. -/
theorem errorEndsTheSession : Obligations.ErrorEndsTheSession := by
  intro s t inv h he
  have after : t.Inv := stepKeepsInvariant s t inv h
  have failed : t.phase = .failed := after.phase_of_error he
  obtain ⟨-, -, mode, last⟩ := (phaseAgrees_failed failed).mp after.phase
  exact ⟨failed, mode, last, step_of_final (.inr failed)⟩

end Sys2Proof.Machine

/-! PROOF. Reset and the session (70_reset_and_hazards.md, R351 to R362): what a session starts from, its connection,
its end, and that a stream that ends brings it there. -/

namespace Sys2Proof.Machine

/-! ## The start of a session -/

theorem bufByte_of_initial {s : State} (h : s.bufs = .initial) (b : BufName) (i : Nat) : bufByte s b i = 0#8 := by
  rw [bufByte, h]
  cases b <;> rfl

/-- Settles O6: both states have the initial context and empty byte stores. -/
theorem resetValues : Obligations.ResetValues := by
  intro s u hu
  obtain ⟨ctx, bufs, stage, tap⟩ :
      u.ctx = .initial ∧ u.bufs = .initial ∧ u.stage = [] ∧ u.tap = .testLogicReset := by
    obtain rfl | rfl := hu <;> exact ⟨rfl, rfl, rfl, rfl⟩
  rw [ctx, stage]
  exact ⟨⟨rfl, rfl, rfl, rfl, rfl⟩, rfl, ⟨rfl, rfl, rfl⟩, ⟨rfl, rfl, rfl, rfl, rfl⟩, ⟨rfl, rfl⟩, ⟨rfl, rfl⟩,
    ⟨rfl, rfl, fun _ => rfl⟩, bufByte_of_initial bufs, tap, rfl, rfl⟩

theorem initPins_host (s : State) : (initPins s).env.host = s.env.host := by
  simp [initPins]

/-- The VREF sense alone decides between the two starts of a session (R353). -/
theorem startSession_of_vref (s : State) :
    ∃ u, Started s u ∧ u.env.host = s.env.host ∧
      startSession s =
        if vrefSensed s then { u with phase := .connected } else endSession (raise .notConnected u) :=
  ⟨{ resetContext (initPins s) with env := (initPins s).env.drawVref.2 }, ⟨rfl, rfl, rfl, rfl, rfl, rfl, rfl⟩,
    (drawVref_host _).trans (initPins_host s), rfl⟩

theorem step_of_idle {s : State} (hp : s.phase = .idle) : step s = .next (startSession s) := by
  simp only [step, hp]

theorem step_of_connected {s : State} (hp : s.phase = .connected) : step s = .next (signalReady s) := by
  simp only [step, hp]

/-- Settles O7: the session ends right after the sense, with the trailer of a context that only has the error. -/
theorem notConnectedSession : Obligations.NotConnectedSession := by
  intro s hp inactive
  obtain ⟨u, started, -, start⟩ := startSession_of_vref s
  have incomplete : u.ctx.complete = false := by rw [started.ctx]; rfl
  refine ⟨_, step_of_idle hp, ?_⟩
  rw [start, inactive, if_neg Bool.false_ne_true, endSession_eq]
  refine ⟨?_, rfl, incomplete, ?_, rfl, started.tap, ?_⟩
  · simp [incomplete]
  · simp [started.ctx, Context.initial]
  · simp [started.trace, started.ctx, trailer, Context.initial]

/-- Settles O8: the sense leaves what `Reset()` and the pin initialisation made, and readiness is one event. -/
theorem connectedSession : Obligations.ConnectedSession := by
  intro s hp active
  obtain ⟨u, started, host, start⟩ := startSession_of_vref s
  rw [active, if_pos rfl] at start
  refine ⟨{ u with phase := .connected }, (step_of_idle hp).trans (congrArg _ start), rfl, started.ctx,
    started.bufs, started.tap, started.mode, started.trace, host, ?_⟩
  exact step_of_connected rfl

/-! ## The end of a session -/

/-- Settles O9: the two branches of the loop test. -/
theorem loopTestEndsSession : Obligations.LoopTestEndsSession := by
  intro s
  obtain ⟨incomplete, noError, goesOn⟩ | ⟨ended, ends⟩ := loopTest_cases s
  · refine ⟨fun _ _ => goesOn, fun flag => ?_⟩
    simp [incomplete, noError] at flag
  · refine ⟨fun incomplete noError => ?_, fun _ => ends.trans (endSession_eq s)⟩
    simp [incomplete, noError] at ended

theorem phaseAgrees_completed {s : State} (hp : s.phase = .completed) :
    phaseAgrees s = true ↔ s.ctx.error = .none ∧ s.ctx.complete = true ∧ s.pins.mode = .highZ ∧
      s.trace.getLast? = some .release := by
  simp [phaseAgrees, hp, and_assoc]

/-- In no other phase does the invariant allow a completion (R356). -/
theorem State.Inv.phase_of_complete {s : State} (h : s.Inv) (hc : s.ctx.complete = true) : s.phase = .completed := by
  have agrees := h.phase
  cases hp : s.phase
  case completed => rfl
  all_goals simp [phaseAgrees, hp, hc] at agrees

/-- Settles O11: the step keeps the invariant, which has a completion only in a session that completed. -/
theorem completionEndsTheSession : Obligations.CompletionEndsTheSession := by
  intro s t inv h hc
  have after : t.Inv := stepKeepsInvariant s t inv h
  have completed : t.phase = .completed := after.phase_of_complete hc
  obtain ⟨noError, -, mode, last⟩ := (phaseAgrees_completed completed).mp after.phase
  exact ⟨completed, noError, mode, last, step_of_final (.inl completed)⟩

/-! ## A stream that ends brings the session to its end -/

/-- The loop test takes no byte of the stream. -/
@[simp] theorem loopTest_env (s : State) : (loopTest s).env = s.env := by
  obtain ⟨-, -, e⟩ | ⟨-, e⟩ := loopTest_cases s <;> rw [e]
  rw [endSession_eq]

theorem bytesLeft_congr {s t : State} (rd : t.ctx.rd = s.ctx.rd) (wr : t.ctx.wr = s.ctx.wr)
    (host : t.env.host = s.env.host) : bytesLeft t = bytesLeft s := by
  rw [bytesLeft, bytesLeft, rd, wr, host]

/-- A record takes no byte but those that were read for it. -/
theorem Framed.bytesLeft {s t : State} (h : Framed s t) : bytesLeft t = bytesLeft s :=
  bytesLeft_congr h.kept.rd h.kept.wr h.host

/-- After an error the session does not run on (R356). -/
theorem loopTest_phase_of_error {s : State} (he : s.ctx.error ≠ .none) : (loopTest s).phase ≠ .running := by
  obtain ⟨-, noError, -⟩ | ⟨-, e⟩ := loopTest_cases s
  · exact absurd noError he
  · rw [e, endSession_eq]
    dsimp only
    split <;> decide

/-- From a host stream that ends no comment is left half read, so a call of the interpreter runs a record, for which it
took a byte, or raises an error. -/
theorem interpret_of_ending {s u : State} (inv : s.Inv) (ending : s.env.host.endless = none)
    (h : interpret s = .next u) :
    u.env.host.endless = none ∧ (u.ctx.error ≠ .none ∨ bytesLeft u < bytesLeft s) := by
  have noComment : s.comment = none := inv.comment.resolve_right fun ⟨_, endless⟩ => endless ending
  obtain ⟨w, read, next⟩ := interpret_cases h
  have still : w.env.host.endless = none := read.endless.mpr ending
  obtain ⟨opcode, i, ran⟩ | ⟨e, he, rfl⟩ | ⟨endless, -⟩ := next
  · have frame := exec_framed ran
    refine ⟨by rw [frame.host]; exact still, .inr ?_⟩
    rw [frame.bytesLeft]
    exact read.left noComment (opcode noComment) ending
  · exact ⟨still, .inl he⟩
  · exact absurd still endless

/-- Settles O22: a record took a byte, and an error has ended the session. -/
theorem finiteStreamEndsTheSession : Obligations.FiniteStreamEndsTheSession := by
  intro s t inv hp ending h
  obtain ⟨u, called, rfl⟩ := step_running hp h
  obtain ⟨still, progress⟩ := interpret_of_ending inv ending called
  refine ⟨by rw [loopTest_env]; exact still, fun running => ?_⟩
  have fewer := progress.resolve_left fun he => loopTest_phase_of_error he running
  rwa [bytesLeft_congr (s := u) (by simp) (by simp) (by simp)]

end Sys2Proof.Machine
